-- ==== Sys2Proof/Word.lean ====
section
/-! DEFINITION. The word types of SM256 and its index types (00_scope.md R4, R5; 10_state.md R10, R11, R18, R19; 30_encoding.md R50). -/

namespace Sys2Proof

/-- A field element and the content of a general register: 256 bits (R4, R10). Any 256-bit value may be held. -/
abbrev Word := BitVec 256

/-- A command word: 32 bits, bit 31 most significant (R50). STATUS, ERRCMD and CMDLATCH have this width too (R15 to R17). -/
abbrev CmdWord := BitVec 32

/-- A byte of BUF (R18). -/
abbrev Byte := BitVec 8

/-- The number of a general register, 0..15; all sixteen are legal (R10, R52). -/
abbrev RegId := Fin 16

/-- The number of a point view, 0..7 (R11, R52). -/
abbrev PointId := Fin 8

/-- A byte address of BUF, 0..31: an address outside "cannot be expressed in a host transaction" (R31). -/
abbrev BufIdx := Fin 32

/-- An index of SEQ, 0..255 (R19, R31). -/
abbrev SeqIdx := Fin 256

end Sys2Proof
end

