-- ==== Sys2Proof/Config.lean ====
section
/-! DEFINITION. The parameters of the block (00_scope.md R4) that the model's definitions use. The OPEN parameters are no arguments
of any definition, since no rule depends on them: LATENCY is the freedom of `State.moves` (log 5), and BUS_MAP, CLOCKING and TRACE are left out
by the spec's own scope (00_scope.md R3). There is no free value: the spec leaves no value open (93_implementation_defined.md, end of Part 1). -/

namespace Sys2Proof

/-- `BUFLEN`, the number of bytes of BUF (R4, R18). -/
abbrev Config.bufLen : Nat := 32

/-- `SEQLEN`, the number of entries of SEQ (R4, R19). -/
abbrev Config.seqLen : Nat := 256

/-- `MAX`, that is 2^256 - 1 (R4). -/
abbrev Config.maxWord : Word := BitVec.allOnes 256

/-- What a byte of BUF that the model's memory does not list reads as: the reset content 0x00 of every BUF byte (R22). -/
abbrev Config.bufFill : Byte := 0

/-- The largest constant index of `LDC`: the extra constraint `imm <= 5` of rule R53. -/
abbrev Config.maxConst : Nat := 5

end Sys2Proof
end

