-- ==== Sys2Proof/Syntax.lean ====
section
/-! DEFINITION. The fifteen commands of SM256 command set version 1 (30_encoding.md R53), one constructor per row of the opcode table. -/

namespace Sys2Proof

/-- A command. Operand order and roles are those of rule R53: for the field commands `rs1` is the first argument, `rs2` the second and `rm`
the modulus. -/
inductive Instr where
  /-- `LDC rd, c`: load constant `C[c]` (R70). -/
  | ldc (rd : RegId) (c : BitVec 8)
  /-- `FROMB rd, len`: field element from the first `len` bytes of BUF (R72). -/
  | fromb (rd : RegId) (len : BitVec 8)
  /-- `TOB rs`: field element to the 32 bytes of BUF (R74). -/
  | tob (rs : RegId)
  /-- `BITSEQ`: expand BUF into SEQ (R76). -/
  | bitseq
  /-- `ADDM rd, rs1, rs2, rm`: modular addition (R80). -/
  | addm (rd rs1 rs2 rm : RegId)
  /-- `SUBM rd, rs1, rs2, rm`: modular subtraction (R81). -/
  | subm (rd rs1 rs2 rm : RegId)
  /-- `MULM rd, rs1, rs2, rm`: modular multiplication (R82). -/
  | mulm (rd rs1 rs2 rm : RegId)
  /-- `EXPM rd, rs1, rs2, rm`: modular exponentiation (R83). -/
  | expm (rd rs1 rs2 rm : RegId)
  /-- `DIVM rd, rs1, rs2, rm`: modular division by Fermat's Little Theorem (R84). -/
  | divm (rd rs1 rs2 rm : RegId)
  /-- `LDZP qd`: load the identity sentinel (R102). -/
  | ldzp (qd : PointId)
  /-- `ISZP qs`: test for the identity sentinel (R103). -/
  | iszp (qs : PointId)
  /-- `PADD qd, qs1, qs2`: point addition by the chord rule (R106). -/
  | padd (qd qs1 qs2 : PointId)
  /-- `PDBL qd, qs`: point doubling by the tangent rule (R107). -/
  | pdbl (qd qs : PointId)
  /-- `SMUL qd, rs`: scalar multiplication of the generator (R108). -/
  | smul (qd : PointId) (rs : RegId)
  /-- `CLRERR`: acknowledge a fault (R120). -/
  | clrerr
  deriving DecidableEq, Repr

end Sys2Proof
end

