-- ==== Sys2Proof/WellFormed.lean ====
section
/-! DEFINITION. Which commands have a word (30_encoding.md R52, R53): the index types of Syntax.lean carry every operand's range but one, the
constant index of `LDC`, which has the extra constraint `imm <= 5`. -/

namespace Sys2Proof

/-- The command obeys the extra constraint of its row of rule R53. -/
def Instr.wellFormed : Instr → Bool
  | .ldc _ c => decide (c.toNat ≤ Config.maxConst)
  | .fromb _ _ => true
  | .tob _ => true
  | .bitseq => true
  | .addm _ _ _ _ => true
  | .subm _ _ _ _ => true
  | .mulm _ _ _ _ => true
  | .expm _ _ _ _ => true
  | .divm _ _ _ _ => true
  | .ldzp _ => true
  | .iszp _ => true
  | .padd _ _ _ => true
  | .pdbl _ _ => true
  | .smul _ _ => true
  | .clrerr => true

end Sys2Proof
end

