-- ==== Sys2Proof/Decode.lean ====
section
/-! DEFINITION. The fields of a command word, the opcode table as data, the total decoder and the encoder (30_encoding.md R51 to R56). -/

namespace Sys2Proof

/-! ## The fields of the one format (R51) -/

/-- `op = w[31:24]`. -/
def opField (w : CmdWord) : BitVec 8 := w.extractLsb' 24 8

/-- `d = w[23:20]`. -/
def dField (w : CmdWord) : BitVec 4 := w.extractLsb' 20 4

/-- `s1 = w[19:16]`. -/
def s1Field (w : CmdWord) : BitVec 4 := w.extractLsb' 16 4

/-- `s2 = w[15:12]`. -/
def s2Field (w : CmdWord) : BitVec 4 := w.extractLsb' 12 4

/-- `m = w[11:8]`. -/
def mField (w : CmdWord) : BitVec 4 := w.extractLsb' 8 4

/-- `imm = w[7:0]`, an unsigned integer used as it stands (R52). -/
def immField (w : CmdWord) : BitVec 8 := w.extractLsb' 0 8

/-- A register field is the register number itself (R52). -/
def regOf (f : BitVec 4) : RegId := ⟨f.toNat, f.isLt⟩

/-- A point field holds the point-view number in its low three bits (R52). -/
def pointOf (f : BitVec 4) : PointId := ⟨f.toNat % 8, Nat.mod_lt _ (by decide)⟩

/-! ## The opcode map (R53) -/

/-- A row of rule R53: the words it selects and the command such a word stands for. -/
structure Row where
  mnemonic : String
  /-- The row's `match`. -/
  pattern  : CmdWord
  mask     : CmdWord
  /-- The top bits of the row's point fields; they are part of the mask (R54). -/
  topBits  : CmdWord
  /-- The extra constraint on `imm`, where the row has one. -/
  immMax   : Option Nat
  /-- The command, with the fields of the word (R52). -/
  build    : CmdWord → Instr

/-- The fifteen rows of rule R53. -/
def rows : List Row :=
  [ ⟨"LDC",    0x01000000, 0xFF0FFFF8, 0, some Config.maxConst, fun w => .ldc (regOf (dField w)) (immField w)⟩,
    ⟨"FROMB",  0x02000000, 0xFF0FFF00, 0, none, fun w => .fromb (regOf (dField w)) (immField w)⟩,
    ⟨"TOB",    0x03000000, 0xFFF0FFFF, 0, none, fun w => .tob (regOf (s1Field w))⟩,
    ⟨"BITSEQ", 0x04000000, 0xFFFFFFFF, 0, none, fun _ => .bitseq⟩,
    ⟨"ADDM",   0x10000000, 0xFF0000FF, 0, none,
      fun w => .addm (regOf (dField w)) (regOf (s1Field w)) (regOf (s2Field w)) (regOf (mField w))⟩,
    ⟨"SUBM",   0x11000000, 0xFF0000FF, 0, none,
      fun w => .subm (regOf (dField w)) (regOf (s1Field w)) (regOf (s2Field w)) (regOf (mField w))⟩,
    ⟨"MULM",   0x12000000, 0xFF0000FF, 0, none,
      fun w => .mulm (regOf (dField w)) (regOf (s1Field w)) (regOf (s2Field w)) (regOf (mField w))⟩,
    ⟨"EXPM",   0x13000000, 0xFF0000FF, 0, none,
      fun w => .expm (regOf (dField w)) (regOf (s1Field w)) (regOf (s2Field w)) (regOf (mField w))⟩ ] ++
  [ ⟨"DIVM",   0x14000000, 0xFF0000FF, 0, none,
      fun w => .divm (regOf (dField w)) (regOf (s1Field w)) (regOf (s2Field w)) (regOf (mField w))⟩,
    ⟨"LDZP",   0x20000000, 0xFF8FFFFF, 0x00800000, none, fun w => .ldzp (pointOf (dField w))⟩,
    ⟨"ISZP",   0x21000000, 0xFFF8FFFF, 0x00080000, none, fun w => .iszp (pointOf (s1Field w))⟩,
    ⟨"PADD",   0x22000000, 0xFF888FFF, 0x00888000, none,
      fun w => .padd (pointOf (dField w)) (pointOf (s1Field w)) (pointOf (s2Field w))⟩,
    ⟨"PDBL",   0x23000000, 0xFF88FFFF, 0x00880000, none, fun w => .pdbl (pointOf (dField w)) (pointOf (s1Field w))⟩,
    ⟨"SMUL",   0x24000000, 0xFF80FFFF, 0x00800000, none, fun w => .smul (pointOf (dField w)) (regOf (s1Field w))⟩,
    ⟨"CLRERR", 0x3F000000, 0xFFFFFFFF, 0, none, fun _ => .clrerr⟩ ]

/-- The row's extra constraint holds for the word (R53, last column but two). -/
def Row.constraint (r : Row) (w : CmdWord) : Bool :=
  match r.immMax with
  | some k => decide ((immField w).toNat ≤ k)
  | none => true

/-- "a word `w` selects the command exactly when `w AND mask = match` and the extra constraint, if any, holds" (R53). -/
def Row.selects (r : Row) (w : CmdWord) : Bool := w &&& r.mask == r.pattern && r.constraint w

/-- The bits of the fields the row does not use (R54): its mask less the opcode, the point fields' top bits and, where the row constrains
`imm`, the bits of `imm`. -/
def Row.unusedBits (r : Row) : CmdWord :=
  r.mask &&& 0x00FFFFFF &&& ~~~ r.topBits &&& (if r.immMax.isSome then 0xFFFFFF00 else 0xFFFFFFFF)

/-! ## Illegal words (R56) -/

/-- Why a word is illegal: the four cases (a) to (d) of rule R56, under names. All four raise `IllegalCommand`, and the machine keeps no trace of
which one it was. DESIGN CHOICE, safe (log 11): a word that falls under several cases is named by the first of (a), (b), (c), (d). -/
inductive IllegalWord where
  /-- (a) `op` is not one of the fifteen values of rule R53. -/
  | unknownOpcode
  /-- (b) a non-zero bit in an unused field. -/
  | unusedField
  /-- (c) a point field whose top bit is one. -/
  | pointFieldTopBit
  /-- (d) an `LDC` constant index above 5. -/
  | constantIndex
  deriving DecidableEq, Repr

/-- The name of a rejection, for a word that no row selects. -/
def illegalReason (w : CmdWord) : IllegalWord :=
  match rows.find? (fun r => opField r.pattern == opField w) with
  | none => .unknownOpcode
  | some r =>
    if w &&& r.unusedBits ≠ 0 then .unusedField
    else if w &&& r.topBits ≠ 0 then .pointFieldTopBit
    else .constantIndex

/-- `Decode(w)`, total on all 2^32 words (R55). -/
def decode (w : CmdWord) : Except IllegalWord Instr :=
  match rows.find? (fun r => r.selects w) with
  | some r => .ok (r.build w)
  | none => .error (illegalReason w)

/-! ## The encoder (R51 to R54) -/

/-- The six fields put together, `op` highest; a field a command does not use is zero (R54). -/
def packFields (op : BitVec 8) (d s1 s2 m : BitVec 4) (imm : BitVec 8) : CmdWord := op ++ d ++ s1 ++ s2 ++ m ++ imm

/-- A register number in its four-bit field. -/
def regBits (r : RegId) : BitVec 4 := BitVec.ofNat 4 r.val

/-- A point-view number in the low three bits of its field, the top bit zero. -/
def pointBits (q : PointId) : BitVec 4 := BitVec.ofNat 4 q.val

/-- The word of a command (the `Encoding` line of each command's rule). -/
def encode : Instr → CmdWord
  | .ldc rd c => packFields 0x01 (regBits rd) 0 0 0 c
  | .fromb rd len => packFields 0x02 (regBits rd) 0 0 0 len
  | .tob rs => packFields 0x03 0 (regBits rs) 0 0 0
  | .bitseq => packFields 0x04 0 0 0 0 0
  | .addm rd rs1 rs2 rm => packFields 0x10 (regBits rd) (regBits rs1) (regBits rs2) (regBits rm) 0
  | .subm rd rs1 rs2 rm => packFields 0x11 (regBits rd) (regBits rs1) (regBits rs2) (regBits rm) 0
  | .mulm rd rs1 rs2 rm => packFields 0x12 (regBits rd) (regBits rs1) (regBits rs2) (regBits rm) 0
  | .expm rd rs1 rs2 rm => packFields 0x13 (regBits rd) (regBits rs1) (regBits rs2) (regBits rm) 0
  | .divm rd rs1 rs2 rm => packFields 0x14 (regBits rd) (regBits rs1) (regBits rs2) (regBits rm) 0
  | .ldzp qd => packFields 0x20 (pointBits qd) 0 0 0 0
  | .iszp qs => packFields 0x21 0 (pointBits qs) 0 0 0
  | .padd qd qs1 qs2 => packFields 0x22 (pointBits qd) (pointBits qs1) (pointBits qs2) 0 0
  | .pdbl qd qs => packFields 0x23 (pointBits qd) (pointBits qs) 0 0 0
  | .smul qd rs => packFields 0x24 (pointBits qd) (regBits rs) 0 0 0
  | .clrerr => packFields 0x3F 0 0 0 0 0

/-! ## The opcode table's words -/

/-- The command word whose bits are `w`, numbered as the opcode table numbers them: a command is one 32-bit number passed whole (R50), so the
table's bit 0 is bit 0 of the word. Every bit from `nbits` on is zero. -/
def tableWord (nbits w : Nat) : CmdWord := BitVec.ofNat 32 (w % 2 ^ nbits)

/-- The instruction the decoder reads from an instruction whose bits are `w`; none where it rejects the word. -/
def decodeTableWord (nbits w : Nat) : Option Instr := (decode (tableWord nbits w)).toOption

end Sys2Proof
end

