-- ==== Sys2Proof/Machine/State.lean ====
section
/-! DEFINITION. The state of SM256 as plain data (10_state.md; the State tuple at its head), the moves that act on it (20_memory.md R33, R38), and
the state after reset (R22). -/

namespace Sys2Proof.Machine

/-- The error names a command can raise: the closed set of rule R7. `InvalidHexDigit` (code 1) is not among them: "never raised" (R131). -/
inductive CmdError where
  /-- A byte buffer of more than 32 bytes: raised by `FROMB` (R72). -/
  | valueTooLarge
  /-- A degenerate modulus, or a divisor that is a multiple of the modulus: raised by the field commands and inside the point commands (R132). -/
  | divisionUndefined
  /-- Equal y coordinates passed to point addition: raised by `PADD` and inside `SMUL` (R106, R108). -/
  | preconditionViolated
  /-- A word the decoder rejects: raised by `Complete` (R38, R56). -/
  | illegalCommand
  deriving DecidableEq, Repr

/-- The nine host transactions of rule R33. -/
inductive HostTxn where
  /-- `HostReset` (R150). -/
  | reset
  /-- `HostReadStatus` (R35). -/
  | readStatus
  /-- `HostReadErrCmd` (R35). -/
  | readErrCmd
  /-- `HostReadReg(i)` (R35). -/
  | readReg (i : RegId)
  /-- `HostReadBuf(a)` (R35). -/
  | readBuf (a : BufIdx)
  /-- `HostReadSeq(k)` (R35). -/
  | readSeq (k : SeqIdx)
  /-- `HostWriteReg(i, v)` (R36). -/
  | writeReg (i : RegId) (v : Word)
  /-- `HostWriteBuf(a, b)` (R36). -/
  | writeBuf (a : BufIdx) (b : Byte)
  /-- `HostIssue(w)` (R34). -/
  | issue (w : CmdWord)
  deriving DecidableEq, Repr

/-- One step of the total order of rule R40: a host transaction or the core's `Complete`. -/
inductive Move where
  | host (t : HostTxn)
  | complete
  deriving DecidableEq, Repr

/-- What a host read returned (the "returns" column of rule R33). -/
inductive Reply where
  | status (w : CmdWord)
  | errCmd (w : CmdWord)
  | reg (v : Word)
  | buf (b : Byte)
  | seq (b : Bool)
  deriving DecidableEq, Repr

/-- The state: the spec's tuple (10_state.md), and two fields of the model's own, `moves` and `replies`. The constant ROM is not state (R20) and
the working values of a command are not state (R21). -/
structure State where
  /-- `r[0]` .. `r[15]` (R10); the point views are pairs of these (R11). -/
  regs : Vector Word 16
  /-- `STATUS.BUSY`: a command has been issued and has not completed (R15). -/
  busy : Bool
  /-- `STATUS.ERR`: a fault has not been acknowledged (R15). -/
  err : Bool
  /-- `STATUS.Z`: the result of the last `ISZP` (R14, R15). -/
  z : Bool
  /-- `STATUS.ERRCODE`, 3 bits (R15, R130). -/
  errcode : BitVec 3
  /-- `ERRCMD`: the command word of the unacknowledged fault (R16). -/
  errcmd : CmdWord
  /-- `CMDLATCH`: the command word of the last accepted issue (R17). -/
  cmdlatch : CmdWord
  /-- `BUF` (R18): the bytes that differ from `Config.bufFill`, by rising address (`Memory.wf`). -/
  buf : List Host.Cell
  /-- `SEQ` (R19). -/
  seq : Vector Bool 256
  /-- THE MODEL'S OWN: the moves still to come, the next one first. DESIGN CHOICE, safe (log 1). -/
  moves : List Move
  /-- THE MODEL'S OWN: what the host's reads returned, the latest first. DESIGN CHOICE, safe (log 2). -/
  replies : List Reply
  deriving DecidableEq, Repr

/-- Reasons the machine stops with a fault: none. "Nothing in the block is `stuck` or `any value`" (93_implementation_defined.md): what the spec
calls a fault is recorded in STATUS and ERRCMD and the machine goes on, which is a next state (R134). DEDUCED, safe (log 13). -/
inductive Fault where
  deriving DecidableEq, Repr

/-- Reasons the model gives no next state. -/
inductive Refusal where
  /-- An instruction without a meaning; raised by a refused arm of `exec` alone, safe. No arm of this model is refused. -/
  | notModelled (mnemonic : String)
  deriving DecidableEq, Repr

/-- The machine after reset (R22, R150): every register, STATUS, ERRCMD, CMDLATCH, BUF and SEQ is zero. The model's own `moves` and `replies`
are empty, DESIGN CHOICE, safe (log 1, log 2). -/
def State.reset : State where
  regs := Vector.replicate 16 0
  busy := false
  err := false
  z := false
  errcode := 0
  errcmd := 0
  cmdlatch := 0
  buf := []
  seq := Vector.replicate 256 false
  moves := []
  replies := []

end Sys2Proof.Machine
end

