-- ==== Sys2Proof/Machine/Ops.lean ====
section
/-! DEFINITION. The named operations over registers, BUF and SEQ, the end of a command, taking a fault and returning from one
(00_scope.md R6; 20_memory.md R30, R38; 60_exceptions.md R130, R134, R138). -/

namespace Sys2Proof.Machine

/-! ## Registers (R10) -/

/-- `r[i]`. No register is hardwired. -/
def readReg (s : State) (i : RegId) : Word := s.regs[i]

/-- `r[i] <- v`. -/
def writeReg (s : State) (i : RegId) (v : Word) : State := { s with regs := s.regs.set i v }

/-! ## BUF as a memory of bytes (R18) -/

/-- The canonical form of BUF: rising addresses, all of them in 0..31, and no entry that reads as an unlisted byte does. -/
abbrev Memory.wf (m : List Host.Cell) : Prop :=
  m.Pairwise (fun c d => c.1 < d.1) ∧ ∀ c ∈ m, c.1 < Config.bufLen ∧ c.2 ≠ Config.bufFill

/-- `BUF[a]`. -/
def readByte : List Host.Cell → Nat → Byte
  | [], _ => Config.bufFill
  | c :: m, a => if c.1 = a then c.2 else readByte m a

/-- `c :: m`, unless the entry reads as an unlisted byte does. -/
def consByte (c : Host.Cell) (m : List Host.Cell) : List Host.Cell := if c.2 = Config.bufFill then m else c :: m

/-- `BUF[a] <- b`; it keeps the canonical form. -/
def writeByte : List Host.Cell → Nat → Byte → List Host.Cell
  | [], a, b => consByte (a, b) []
  | c :: m, a, b =>
    if a < c.1 then consByte (a, b) (c :: m)
    else if a = c.1 then consByte (a, b) m
    else c :: writeByte m a b

/-- `MemRead(a, n)`: the `n` bytes from address `a`, big-endian (R6, R30); `MemRead(a, 0) = 0`. -/
def memRead (m : List Host.Cell) (a : Nat) : Nat → Nat
  | 0 => 0
  | n + 1 => memRead m a n * 256 + (readByte m (a + n)).toNat

/-- `MemWrite(a, n, v)`: the `n` low-order bytes of `v`, big-endian from address `a` (R6, R30). -/
def memWrite (m : List Host.Cell) (a : Nat) : Nat → Nat → List Host.Cell
  | 0, _ => m
  | n + 1, v => writeByte (memWrite m a n (v / 256)) (a + n) (BitVec.ofNat 8 v)

/-! ## Bytes and bits of a value (R30, R74, R76, R77) -/

/-- `ToBytes(v)`: the 32 big-endian bytes of a value, `b[i] = v[8(31-i)+7 : 8(31-i)]` (R74). -/
def toBytes (v : Word) : Vector Byte 32 :=
  ⟨((List.range 32).map fun i => v.extractLsb' (8 * (31 - i)) 8).toArray, by simp⟩

/-- The eight bits of a byte, most significant first (R30). -/
def byteBits (b : Byte) : List Bool := [7, 6, 5, 4, 3, 2, 1, 0].map b.getLsbD

/-- `BitSeq(b)`: the 256 bits of 32 bytes, most significant bit of the first byte first (R76). -/
def bitSeq (b : Vector Byte 32) : Vector Bool 256 := ⟨(b.toList.flatMap byteBits).toArray, by simp [byteBits]⟩

/-- `Bits(v)` is `BitSeq(ToBytes(v))` (R77). -/
def bits (v : Word) : Vector Bool 256 := bitSeq (toBytes v)

/-- The 32 bytes of BUF, `BUF[0]` first. -/
def bufBytes (m : List Host.Cell) : Vector Byte 32 := ⟨((List.range 32).map (readByte m)).toArray, by simp⟩

/-! ## The end of a command: completion and fault (R38, R134) -/

/-- The code of an error (R130). -/
def CmdError.code : CmdError → BitVec 3
  | .valueTooLarge => 2
  | .divisionUndefined => 3
  | .preconditionViolated => 4
  | .illegalCommand => 5

/-- Taking a fault (R134): `ERR <- 1`, `ERRCODE <- code(E)`, `ERRCMD <- CMDLATCH`, `BUSY <- 0`, all together; "Nothing else changes". -/
def takeFault (e : CmdError) (s : State) : State :=
  { s with err := true, errcode := e.code, errcmd := s.cmdlatch, busy := false }

/-- The return from a fault (R138, R120): `ERR <- 0`, `ERRCODE <- 0`, `ERRCMD <- 0`; "restores nothing else, because a fault saved nothing else". -/
def clearFault (s : State) : State := { s with err := false, errcode := 0, errcmd := 0 }

/-- A command's end without fault: its writes have been applied together and BUSY falls (R38). -/
def done (s : State) : Host.Outcome State Fault Refusal := .next { s with busy := false }

/-- A command's end with the error `e`: none of its writes is made (R134). -/
def raise (e : CmdError) (s : State) : Host.Outcome State Fault Refusal := .next (takeFault e s)

/-- The end of a command that computes a value or an error (R7, R38): `Ok` applies the writes, `Err` takes the fault. -/
def finish {α : Type} (s : State) (r : Except CmdError α) (write : State → α → State) : Host.Outcome State Fault Refusal :=
  match r with
  | .ok v => done (write s v)
  | .error e => raise e s

end Sys2Proof.Machine
end

