-- ==== Sys2Proof/Machine/Operands.lean ====
section
/-! DEFINITION. The operand forms that are not a plain register: point views (10_state.md R11), the constant ROM (R20), and the private copies of
a value's bits. -/

namespace Sys2Proof.Machine

/-- A pair of field elements (R11); the pair (0, 0) is the sentinel. There is no tag bit. -/
structure Point where
  x : Word
  y : Word
  deriving DecidableEq, Repr

/-- The even register of a point view: its x coordinate (R11). -/
def evenReg (k : PointId) : RegId := ⟨2 * k.val, by omega⟩

/-- The odd register of a point view: its y coordinate (R11). -/
def oddReg (k : PointId) : RegId := ⟨2 * k.val + 1, by omega⟩

/-- `q[k]` reads as the pair `(r[2k], r[2k+1])` (R6, R11). -/
def readPoint (s : State) (k : PointId) : Point := ⟨readReg s (evenReg k), readReg s (oddReg k)⟩

/-- `q[k] <- (x, y)` writes both registers (R6, R11). -/
def writePoint (s : State) (k : PointId) (p : Point) : State := writeReg (writeReg s (evenReg k) p.x) (oddReg k) p.y

/-- The constant ROM `C[0..5]` (R20). The values of P and N are those the rule prints; UNVERIFIED for N, unsafe (log 6). -/
def rom : Fin 6 → Word
  | 0 => 0x0000000000000000000000000000000000000000000000000000000000000000
  | 1 => 0x0000000000000000000000000000000000000000000000000000000000000001
  | 2 => 0xFFFFFFFFFFFFFFFFFFFFFFFFFFFFFFFFFFFFFFFFFFFFFFFFFFFFFFFEFFFFFC2F
  | 3 => 0xFFFFFFFFFFFFFFFFFFFFFFFFFFFFFFFEBAAEDCE6AF48A03BBFD25E8CD0364141
  | 4 => 0x79BE667EF9DCBBAC55A06295CE870B07029BFCDB2DCE28D959F2815B16F81798
  | 5 => 0x483ADA7726A3C4655DA4FBFC0E1108A8FD17B448A68554199C47D08FFB10D4B8

/-- `C[c]` for a constant index held in `imm`; none above 5. -/
def romAt (c : BitVec 8) : Option Word := if h : c.toNat < 6 then some (rom ⟨c.toNat, h⟩) else none

/-- The curve prime, `C[2]` (R100). -/
def curveP : Word := rom 2

/-- The generator, `(C[4], C[5])` (R100). -/
def generator : Point := ⟨rom 4, rom 5⟩

/-- The identity sentinel, the pair (0, 0) (R11). -/
def sentinel : Point := ⟨0, 0⟩

end Sys2Proof.Machine
end

