-- ==== Sys2Proof/Machine/Flags.lean ====
section
/-! DEFINITION. The one flag, Z, and the STATUS word (10_state.md R14, R15). -/

namespace Sys2Proof.Machine

/-- `IsZeroPoint((x, y))`: both raw coordinates are 0, with no reduction first (R103, R104). -/
def isZeroPoint (p : Point) : Bool := p.x == 0 && p.y == 0

/-- `STATUS.Z <- b` (R14). -/
def writeZ (s : State) (b : Bool) : State := { s with z := b }

/-- The 32 bits of STATUS (R15): BUSY in bit 0, ERR in bit 1, Z in bit 2, bit 3 zero, ERRCODE in bits 6:4, bits 31:7 zero. -/
def statusWord (s : State) : CmdWord :=
  (0 : BitVec 25) ++ s.errcode ++ (0 : BitVec 1) ++ BitVec.ofBool s.z ++ BitVec.ofBool s.err ++ BitVec.ofBool s.busy

end Sys2Proof.Machine
end

