-- ==== Sys2Proof/Machine/Conversion.lean ====
section
/-! DEFINITION. The constant and conversion commands `LDC`, `FROMB`, `TOB`, `BITSEQ` (40_conversion_bitseq.md R70 to R77). -/

namespace Sys2Proof.Machine

/-- `LDC rd, c`: `r[rd] <- C[c]` (R70). No word decodes to an index above 5; the command value with such an index takes `IllegalCommand`, the
fault rule R70 names for it. DEDUCED, safe (log 7). -/
def execLdc (rd : RegId) (c : BitVec 8) (s : State) : Host.Outcome State Fault Refusal :=
  match romAt c with
  | some v => done (writeReg s rd v)
  | none => raise .illegalCommand s

/-- `FromBytes(len)`: the length test comes first; then the first `len` bytes of BUF, big-endian, zero-extended (R72). -/
def fromBytes (m : List Host.Cell) (len : Nat) : Except CmdError Word :=
  if Config.bufLen < len then .error .valueTooLarge else .ok (BitVec.ofNat 256 (memRead m 0 len))

/-- `FROMB rd, len`: `r[rd] <- FromBytes(len)` (R72). -/
def execFromb (rd : RegId) (len : BitVec 8) (s : State) : Host.Outcome State Fault Refusal :=
  finish s (fromBytes s.buf len.toNat) fun s v => writeReg s rd v

/-- `TOB rs`: `MemWrite(0, 32, r[rs])` (R74). -/
def execTob (rs : RegId) (s : State) : Host.Outcome State Fault Refusal :=
  done { s with buf := memWrite s.buf 0 Config.bufLen (readReg s rs).toNat }

/-- `BITSEQ`: `SEQ[k] <- BitSeq(BUF[0..31])[k]` for every `k` (R76). -/
def execBitseq (s : State) : Host.Outcome State Fault Refusal := done { s with seq := bitSeq (bufBytes s.buf) }

end Sys2Proof.Machine
end

