-- ==== Sys2Proof/Machine/Field.lean ====
section
/-! DEFINITION. Field arithmetic: the functions of 41_field_arithmetic.md (R80 to R86), each as its rule's pseudocode, and the commands `ADDM`,
`SUBM`, `MULM`, `EXPM`, `DIVM`. -/

namespace Sys2Proof.Machine

/-- `AddMod(a, b, p)` (R80): both operands reduced, a 256-bit sum, and the correction `MAX - p + 1` when the sum carries out. -/
def addMod (a b p : Word) : Except CmdError Word :=
  if p = 0 then .error .divisionUndefined
  else
    let a1 := a % p
    let b1 := b % p
    let t := a1.toNat + b1.toNat
    let s := BitVec.ofNat 256 t
    let carry := t / 2 ^ 256
    let s1 := if carry = 1 then s + (Config.maxWord - p + 1) else s
    .ok (s1 % p)

/-- `SubMod(a, b, p)` (R81): addition of the modular negation `p - (b mod p)`, which lies in `1..p`. -/
def subMod (a b p : Word) : Except CmdError Word :=
  if p = 0 then .error .divisionUndefined else addMod (a % p) (p - b % p) p

/-- The iterations of the bit walk over a list of bits, first bit first (R86): double if doubling has started, then add if the bit is 1, which
starts doubling. An error ends the walk (R7). -/
def walkBits {α : Type} (dbl add : α → Except CmdError α) : List Bool → Bool → α → Except CmdError α
  | [], _, acc => .ok acc
  | b :: bs, started, acc =>
    (if started then dbl acc else .ok acc) >>= fun acc1 =>
    (if b then add acc1 else .ok acc1) >>= fun acc2 =>
    walkBits dbl add bs (started || b) acc2

/-- `Walk(k, acc0, Dbl, Add)` over `Bits(k)`, most significant bit first (R86). -/
def walk {α : Type} (k : Word) (acc0 : α) (dbl add : α → Except CmdError α) : Except CmdError α :=
  walkBits dbl add (bits k).toList false acc0

/-- `MulMod(a, b, p)` (R82): double-and-add over the smaller reduced operand; on a tie the second operand is the adder. -/
def mulMod (a b p : Word) : Except CmdError Word :=
  if p = 0 then .error .divisionUndefined
  else
    let a1 := a % p
    let b1 := b % p
    let seq := if a1 ≤ b1 then a1 else b1
    let adder := if a1 ≤ b1 then b1 else a1
    walk seq 0 (fun acc => addMod acc acc p) (fun acc => addMod acc adder p)

/-- `ExpMod(base, e, p)` (R83): square-and-multiply over the unreduced exponent, from `1 mod p`. -/
def expMod (base e p : Word) : Except CmdError Word :=
  if p = 0 then .error .divisionUndefined
  else walk e (1 % p) (fun acc => mulMod acc acc p) (fun acc => mulMod acc base p)

/-- `DivMod(a, b, p)` (R84): `a * b^(p-2) mod p`; both tests raise `DivisionUndefined`. -/
def divMod (a b p : Word) : Except CmdError Word :=
  if p ≤ 2 then .error .divisionUndefined
  else if b % p = 0 then .error .divisionUndefined
  else do
    let inv ← expMod b (p - 2) p
    mulMod a inv p

/-- `ADDM rd, rs1, rs2, rm` (R80). -/
def execAddm (rd rs1 rs2 rm : RegId) (s : State) : Host.Outcome State Fault Refusal :=
  finish s (addMod (readReg s rs1) (readReg s rs2) (readReg s rm)) fun s v => writeReg s rd v

/-- `SUBM rd, rs1, rs2, rm` (R81). -/
def execSubm (rd rs1 rs2 rm : RegId) (s : State) : Host.Outcome State Fault Refusal :=
  finish s (subMod (readReg s rs1) (readReg s rs2) (readReg s rm)) fun s v => writeReg s rd v

/-- `MULM rd, rs1, rs2, rm` (R82). -/
def execMulm (rd rs1 rs2 rm : RegId) (s : State) : Host.Outcome State Fault Refusal :=
  finish s (mulMod (readReg s rs1) (readReg s rs2) (readReg s rm)) fun s v => writeReg s rd v

/-- `EXPM rd, rs1, rs2, rm` (R83): `rs1` holds the base, `rs2` the exponent. -/
def execExpm (rd rs1 rs2 rm : RegId) (s : State) : Host.Outcome State Fault Refusal :=
  finish s (expMod (readReg s rs1) (readReg s rs2) (readReg s rm)) fun s v => writeReg s rd v

/-- `DIVM rd, rs1, rs2, rm` (R84): `rs1` holds the dividend, `rs2` the divisor. -/
def execDivm (rd rs1 rs2 rm : RegId) (s : State) : Host.Outcome State Fault Refusal :=
  finish s (divMod (readReg s rs1) (readReg s rs2) (readReg s rm)) fun s v => writeReg s rd v

end Sys2Proof.Machine
end

