-- ==== Sys2Proof/Machine/Curve.lean ====
section
/-! DEFINITION. The point and curve functions of 42_point_curve.md (R102 to R108), each as its rule's pseudocode, and the commands `LDZP`, `ISZP`,
`PADD`, `PDBL`, `SMUL`. No operand is validated (R101). -/

namespace Sys2Proof.Machine

/-- The end shared by the chord and the tangent rule: `x3 = lam^2 - x1 - x2`, `y3 = (x1 - x3) * lam - y1` (R106, R107). -/
def lineThird (lam x1 y1 x2 : Word) : Except CmdError Point := do
  let sq ← mulMod lam lam curveP
  let d1 ← subMod sq x1 curveP
  let x3 ← subMod d1 x2 curveP
  let d2 ← subMod x1 x3 curveP
  let pr ← mulMod d2 lam curveP
  let y3 ← subMod pr y1 curveP
  .ok ⟨x3, y3⟩

/-- `AddPoints(p1, p2)` (R106): shortcut on `p1`, shortcut on `p2`, the raw equal-y test, then the chord rule; the order of the tests is that of
rule R135. -/
def addPoints (p1 p2 : Point) : Except CmdError Point :=
  if isZeroPoint p1 then .ok p2
  else if isZeroPoint p2 then .ok p1
  else if p1.y = p2.y then .error .preconditionViolated
  else do
    let num ← subMod p1.y p2.y curveP
    let den ← subMod p1.x p2.x curveP
    let lam ← divMod num den curveP
    lineThird lam p1.x p1.y p2.x

/-- `DoublePoint(pt)` (R107): the two early returns, then the tangent rule. -/
def doublePoint (pt : Point) : Except CmdError Point :=
  if isZeroPoint pt then .ok sentinel
  else if pt.y = 0 then .ok sentinel
  else do
    let xx ← mulMod pt.x pt.x curveP
    let num ← mulMod 3 xx curveP
    let den ← addMod pt.y pt.y curveP
    let lam ← divMod num den curveP
    lineThird lam pt.x pt.y pt.x

/-- `PrToPub(k)` (R108): the bit walk of the scalar from the sentinel; the accumulator is the first operand of the inner addition. The scalar is
not reduced and not tested. -/
def prToPub (k : Word) : Except CmdError Point :=
  walk k sentinel doublePoint (fun acc => addPoints acc generator)

/-- `LDZP qd`: `q[qd] <- (0, 0)` (R102). -/
def execLdzp (qd : PointId) (s : State) : Host.Outcome State Fault Refusal := done (writePoint s qd sentinel)

/-- `ISZP qs`: `Z <- 1` if `q[qs]` is the sentinel, else `0` (R103). -/
def execIszp (qs : PointId) (s : State) : Host.Outcome State Fault Refusal := done (writeZ s (isZeroPoint (readPoint s qs)))

/-- `PADD qd, qs1, qs2`: `q[qd] <- AddPoints(q[qs1], q[qs2])` (R106). -/
def execPadd (qd qs1 qs2 : PointId) (s : State) : Host.Outcome State Fault Refusal :=
  finish s (addPoints (readPoint s qs1) (readPoint s qs2)) fun s p => writePoint s qd p

/-- `PDBL qd, qs`: `q[qd] <- DoublePoint(q[qs])` (R107). -/
def execPdbl (qd qs : PointId) (s : State) : Host.Outcome State Fault Refusal :=
  finish s (doublePoint (readPoint s qs)) fun s p => writePoint s qd p

/-- `SMUL qd, rs`: `q[qd] <- PrToPub(r[rs])` (R108). -/
def execSmul (qd : PointId) (rs : RegId) (s : State) : Host.Outcome State Fault Refusal :=
  finish s (prToPub (readReg s rs)) fun s p => writePoint s qd p

end Sys2Proof.Machine
end

