-- ==== Sys2Proof/Machine/System.lean ====
section
/-! DEFINITION. The system command `CLRERR` (43_system.md R120). -/

namespace Sys2Proof.Machine

/-- `CLRERR`: the return from a fault (R120, R138). It cannot fault. -/
def execClrerr (s : State) : Host.Outcome State Fault Refusal := done (clearFault s)

end Sys2Proof.Machine
end

