-- ==== Sys2Proof/Machine/Dispatch.lean ====
section
/-! DEFINITION. `Exec(c, State)` of 20_memory.md R38: one arm per command of 30_encoding.md R53, each one call of its meaning. -/

namespace Sys2Proof.Machine

def exec (i : Instr) (s : State) : Host.Outcome State Fault Refusal :=
  match i with
  | .ldc rd c => Sys2Proof.Machine.execLdc rd c s
  | .fromb rd len => Sys2Proof.Machine.execFromb rd len s
  | .tob rs => Sys2Proof.Machine.execTob rs s
  | .bitseq => Sys2Proof.Machine.execBitseq s
  | .addm rd rs1 rs2 rm => Sys2Proof.Machine.execAddm rd rs1 rs2 rm s
  | .subm rd rs1 rs2 rm => Sys2Proof.Machine.execSubm rd rs1 rs2 rm s
  | .mulm rd rs1 rs2 rm => Sys2Proof.Machine.execMulm rd rs1 rs2 rm s
  | .expm rd rs1 rs2 rm => Sys2Proof.Machine.execExpm rd rs1 rs2 rm s
  | .divm rd rs1 rs2 rm => Sys2Proof.Machine.execDivm rd rs1 rs2 rm s
  | .ldzp qd => Sys2Proof.Machine.execLdzp qd s
  | .iszp qs => Sys2Proof.Machine.execIszp qs s
  | .padd qd qs1 qs2 => Sys2Proof.Machine.execPadd qd qs1 qs2 s
  | .pdbl qd qs => Sys2Proof.Machine.execPdbl qd qs s
  | .smul qd rs => Sys2Proof.Machine.execSmul qd rs s
  | .clrerr => Sys2Proof.Machine.execClrerr s

end Sys2Proof.Machine
end

