-- ==== Sys2Proof/Machine/HostPort.lean ====
section
/-! DEFINITION. The host's transactions (20_memory.md R33 to R36; 70_reset_and_hazards.md R150). Each is total: a dropped transaction is a null
move (R37). -/

namespace Sys2Proof.Machine

/-- The `CLRERR` word, the one word accepted while `ERR = 1` (R34). -/
def clrerrWord : CmdWord := 0x3F000000

/-- `HostReset` (R150): every piece of the block's state to its reset value, in any state; a command in flight is abandoned. The moves still to
come and the replies already given are outside the block and stay (log 1, log 2). -/
def hostReset (s : State) : State := { State.reset with moves := s.moves, replies := s.replies }

/-- A host read: no effect on the block, the value is handed to the host (R35). -/
def reply (s : State) (r : Reply) : State := { s with replies := r :: s.replies }

/-- `HostWriteReg(i, v)` (R36): dropped while BUSY. -/
def hostWriteReg (s : State) (i : RegId) (v : Word) : State := if s.busy then s else writeReg s i v

/-- `HostWriteBuf(a, b)` (R36): dropped while BUSY. -/
def hostWriteBuf (s : State) (a : BufIdx) (b : Byte) : State :=
  if s.busy then s else { s with buf := writeByte s.buf a.val b }

/-- `HostIssue(w)` (R34): dropped while BUSY; while ERR every word but `CLRERR` is dropped; else latched, and BUSY rises. -/
def hostIssue (s : State) (w : CmdWord) : State :=
  if s.busy then s
  else if s.err ∧ w ≠ clrerrWord then s
  else { s with cmdlatch := w, busy := true }

/-- The effect of a host transaction (R33). -/
def hostTxn (t : HostTxn) (s : State) : State :=
  match t with
  | .reset => hostReset s
  | .readStatus => reply s (.status (statusWord s))
  | .readErrCmd => reply s (.errCmd s.errcmd)
  | .readReg i => reply s (.reg (readReg s i))
  | .readBuf a => reply s (.buf (readByte s.buf a.val))
  | .readSeq k => reply s (.seq s.seq[k])
  | .writeReg i v => hostWriteReg s i v
  | .writeBuf a b => hostWriteBuf s a b
  | .issue w => hostIssue s w

end Sys2Proof.Machine
end

