-- ==== Sys2Proof/Machine/Complete.lean ====
section
/-! DEFINITION. The core's one step, `Complete` (20_memory.md R38), and the step of the total order (R40). -/

namespace Sys2Proof.Machine

/-- `Complete` (R38), where it is enabled: decode the latched word; an illegal word takes `IllegalCommand`, a command is executed. -/
def complete (s : State) : Host.Outcome State Fault Refusal :=
  match decode s.cmdlatch with
  | .ok i => exec i s
  | .error _ => raise .illegalCommand s

/-- The core's turn: `Complete` is enabled exactly when BUSY = 1 (R38); the idle block "simply holds its state" (R145). DEDUCED, safe (log 4). -/
def coreTurn (s : State) : Host.Outcome State Fault Refusal := if s.busy then complete s else .next s

/-- One move of the total order (R40). -/
def takeMove (m : Move) (s : State) : Host.Outcome State Fault Refusal :=
  match m with
  | .host t => .next (hostTxn t s)
  | .complete => coreTurn s

end Sys2Proof.Machine
end

