-- ==== Sys2Proof/Machine/Step.lean ====
section
/-! DEFINITION. One step of the machine: the next move of the list, or, when the host has no more moves, the core's turn (20_memory.md R38, R40). -/

namespace Sys2Proof.Machine

/-- One step. The list `moves` is the total order of rule R40 as far as the host has chosen it; when it is empty the core completes what is in
flight, since "`Complete` always becomes enabled-and-taken after a finite time" (R38). DESIGN CHOICE, safe (log 1, log 5). -/
def step (s : State) : Host.Outcome State Fault Refusal :=
  match s.moves with
  | [] => coreTurn s
  | m :: ms => takeMove m { s with moves := ms }

/-- The state in which the next step runs the command word with the bits `w`: the word is in CMDLATCH, BUSY is 1, and the next move is `Complete`.
It stands for an accepted `HostIssue` (R34). DESIGN CHOICE, safe (log 3). -/
def State.withFetchWord (s : State) (nbits w : Nat) : State :=
  { s with cmdlatch := tableWord nbits w, busy := true, moves := .complete :: s.moves }

end Sys2Proof.Machine
end

