-- ==== Sys2Proof/Machine/Pseudo.lean ====
section
/-! DEFINITION. The pseudo-commands and the assembler text (30_encoding.md R59, R60). They have no encoding; a host writes a program with them. -/

namespace Sys2Proof.Machine

/-- The pseudo-commands of rule R60. -/
inductive Pseudo where
  /-- `ZERO rd`. -/
  | zero (rd : RegId)
  /-- `ONE rd`. -/
  | one (rd : RegId)
  /-- `LDG qd`: the generator as a point view. -/
  | ldg (qd : PointId)
  /-- `INVM rd, rs, rm, rt`: the modular inverse; `rt` is a scratch register that is overwritten. -/
  | invm (rd rs rm rt : RegId)
  deriving DecidableEq, Repr

/-- "`rt` may equal `rd`, and must not equal `rs` or `rm`" (R60). -/
def Pseudo.wellFormed : Pseudo → Bool
  | .zero _ => true
  | .one _ => true
  | .ldg _ => true
  | .invm _ rs rm rt => rt != rs && rt != rm

/-- The commands a pseudo-command stands for, in order (R60). -/
def Pseudo.expand : Pseudo → List Instr
  | .zero rd => [.ldc rd 0]
  | .one rd => [.ldc rd 1]
  | .ldg qd => [.ldc (evenReg qd) 4, .ldc (oddReg qd) 5]
  | .invm rd rs rm rt => [.ldc rt 1, .divm rd rt rs rm]

/-- One command line of a program: `HostIssue(word)` and then `WAIT`, that is reading STATUS until BUSY = 0 (R59). The list lets the command
complete before the read, so that one read ends the wait. -/
def issueAndWait (i : Instr) : List Move := [.host (.issue (encode i)), .complete, .host .readStatus]

/-- A pseudo-command's moves: its commands "issued in order with a `WAIT` after each" (R60). -/
def Pseudo.moves (p : Pseudo) : List Move := p.expand.flatMap issueAndWait

/-- A register's assembler name (R10, R59). -/
def regName (r : RegId) : String := "r" ++ toString r.val

/-- A point view's assembler name (R11, R59). -/
def pointName (q : PointId) : String := "q" ++ toString q.val

/-- The `LDC` constant by name (R20, R59), or by number where it has none. -/
def constName (c : BitVec 8) : String :=
  match c.toNat with
  | 0 => "ZERO"
  | 1 => "ONE"
  | 2 => "P"
  | 3 => "N"
  | 4 => "GX"
  | 5 => "GY"
  | n => toString n

/-- A command's assembler text: the mnemonic, then its operands in the order of rule R53, separated by commas (R59). -/
def asmText : Instr → String
  | .ldc rd c => "LDC " ++ ", ".intercalate [regName rd, constName c]
  | .fromb rd len => "FROMB " ++ ", ".intercalate [regName rd, toString len.toNat]
  | .tob rs => "TOB " ++ regName rs
  | .bitseq => "BITSEQ"
  | .addm rd rs1 rs2 rm => "ADDM " ++ ", ".intercalate [regName rd, regName rs1, regName rs2, regName rm]
  | .subm rd rs1 rs2 rm => "SUBM " ++ ", ".intercalate [regName rd, regName rs1, regName rs2, regName rm]
  | .mulm rd rs1 rs2 rm => "MULM " ++ ", ".intercalate [regName rd, regName rs1, regName rs2, regName rm]
  | .expm rd rs1 rs2 rm => "EXPM " ++ ", ".intercalate [regName rd, regName rs1, regName rs2, regName rm]
  | .divm rd rs1 rs2 rm => "DIVM " ++ ", ".intercalate [regName rd, regName rs1, regName rs2, regName rm]
  | .ldzp qd => "LDZP " ++ pointName qd
  | .iszp qs => "ISZP " ++ pointName qs
  | .padd qd qs1 qs2 => "PADD " ++ ", ".intercalate [pointName qd, pointName qs1, pointName qs2]
  | .pdbl qd qs => "PDBL " ++ ", ".intercalate [pointName qd, pointName qs]
  | .smul qd rs => "SMUL " ++ ", ".intercalate [pointName qd, regName rs]
  | .clrerr => "CLRERR"

end Sys2Proof.Machine
end

