-- ==== Sys2Proof/Safety.lean ====
section
/-! DEFINITION. What counts as a sound state and as the end of a run (10_state.md R15, R16; 20_memory.md R34, R44; 60_exceptions.md R130, R134). -/

namespace Sys2Proof.Machine

/-- The codes that appear in ERRCODE: none, and the codes of the four errors that are raised (R130, R131). -/
abbrev errcodeLegal (c : BitVec 3) : Prop := c = 0 ∨ c = 2 ∨ c = 3 ∨ c = 4 ∨ c = 5

/-- The invariant of the machine: `ERR = 0` exactly when `ERRCODE = 0` (R15); ERRCODE holds a code that can appear (R130); ERRCMD reads 0 while
`ERR = 0` (R16); only `CLRERR` is in flight while `ERR = 1` (R34); BUF is in its canonical form. -/
abbrev State.Inv (s : State) : Prop :=
  (s.err = false ↔ s.errcode = 0) ∧
  errcodeLegal s.errcode ∧
  (s.err = false → s.errcmd = 0) ∧
  (s.busy = true → s.err = true → s.cmdlatch = clrerrWord) ∧
  Memory.wf s.buf

/-- The general registers a command writes when it does not fault: the "writes" column of rule R12. -/
def destRegs : Instr → List RegId
  | .ldc rd _ => [rd]
  | .fromb rd _ => [rd]
  | .tob _ => []
  | .bitseq => []
  | .addm rd _ _ _ => [rd]
  | .subm rd _ _ _ => [rd]
  | .mulm rd _ _ _ => [rd]
  | .expm rd _ _ _ => [rd]
  | .divm rd _ _ _ => [rd]
  | .ldzp qd => [evenReg qd, oddReg qd]
  | .iszp _ => []
  | .padd qd _ _ => [evenReg qd, oddReg qd]
  | .pdbl qd _ => [evenReg qd, oddReg qd]
  | .smul qd _ => [evenReg qd, oddReg qd]
  | .clrerr => []

/-- The general registers a command reads: the "reads" column of rule R12. -/
def srcRegs : Instr → List RegId
  | .ldc _ _ => []
  | .fromb _ _ => []
  | .tob rs => [rs]
  | .bitseq => []
  | .addm _ rs1 rs2 rm => [rs1, rs2, rm]
  | .subm _ rs1 rs2 rm => [rs1, rs2, rm]
  | .mulm _ rs1 rs2 rm => [rs1, rs2, rm]
  | .expm _ rs1 rs2 rm => [rs1, rs2, rm]
  | .divm _ rs1 rs2 rm => [rs1, rs2, rm]
  | .ldzp _ => []
  | .iszp qs => [evenReg qs, oddReg qs]
  | .padd _ qs1 qs2 => [evenReg qs1, oddReg qs1, evenReg qs2, oddReg qs2]
  | .pdbl _ qs => [evenReg qs, oddReg qs]
  | .smul _ rs => [rs]
  | .clrerr => []

/-- The curve prime as a number, 2^256 - 2^32 - 977 (R20). -/
def secpP : Nat := 2 ^ 256 - 2 ^ 32 - 977

/-- The group order as a number (R20). -/
def secpN : Nat := 0xFFFFFFFFFFFFFFFFFFFFFFFFFFFFFFFEBAAEDCE6AF48A03BBFD25E8CD0364141

/-- The curve `y^2 = x^3 + 7` over the field of the curve prime (R100), with Mathlib's group of its points. -/
def secpCurve : WeierstrassCurve.Affine (ZMod secpP) := ⟨0, 0, 0, 0, 7⟩

/-- A coordinate pair stands for a point of the curve: the sentinel for the identity (R11), reduced coordinates for an affine point (R110). -/
def Represents (pt : Point) (g : secpCurve.Point) : Prop :=
  (g = 0 ∧ pt = sentinel) ∨
    ∃ (x y : ZMod secpP) (h : secpCurve.Nonsingular x y), g = .some x y h ∧
      pt.x.toNat < secpP ∧ pt.y.toNat < secpP ∧ (pt.x.toNat : ZMod secpP) = x ∧ (pt.y.toNat : ZMod secpP) = y

/-- A run is finished "when the host has performed its last transaction and `STATUS.BUSY = 0`" (R44). -/
abbrev State.finished (s : State) : Prop := s.moves = [] ∧ s.busy = false

/-- "A run in which `ERR = 1` at the end is a run that faulted" (R44). -/
abbrev State.faulted (s : State) : Prop := s.finished ∧ s.err = true

end Sys2Proof.Machine
end

