-- ==== Sys2Proof/Certificates/Slice0/Obligations.lean ====
section
/-! DEFINITION. The statements for the provers, each from rules of the spec, and the words they are written in: what a command leaves, the command
words, the fields of a word, all written out here a second time from the spec, so that a statement does not lean on the model's own helpers. -/

namespace Sys2Proof.Machine.Expect

/-! ## What a command leaves behind -/

/-- A register result: `r[rd]` is the value, BUSY is 0, everything else is as before. -/
def withReg (s : State) (rd : RegId) (v : Word) : State := { s with regs := s.regs.set rd v, busy := false }

/-- A point result: `r[2k]` and `r[2k+1]` are the coordinates (R11), BUSY is 0, everything else is as before. -/
def withPoint (s : State) (k : PointId) (x y : Word) : State :=
  { s with regs := (s.regs.set (2 * k.val) x).set (2 * k.val + 1) y, busy := false }

/-- A fault (R134): ERR, ERRCODE, ERRCMD and BUSY, and nothing else. -/
def withFault (s : State) (code : BitVec 3) : State :=
  { s with err := true, errcode := code, errcmd := s.cmdlatch, busy := false }

/-- The x coordinate of a point view: its even register (R11). -/
def xOf (s : State) (k : PointId) : Word := s.regs[2 * k.val]

/-- The y coordinate of a point view: its odd register (R11). -/
def yOf (s : State) (k : PointId) : Word := s.regs[2 * k.val + 1]

/-- The point view is the sentinel (0, 0). -/
abbrev isSentinel (s : State) (k : PointId) : Prop := xOf s k = 0 ∧ yOf s k = 0

/-! ## Constants (R20) -/

/-- The curve prime: `C[2]`. -/
def constP : Word := 0xFFFFFFFFFFFFFFFFFFFFFFFFFFFFFFFFFFFFFFFFFFFFFFFFFFFFFFFEFFFFFC2F

/-- The group order: `C[3]`. -/
def constN : Word := 0xFFFFFFFFFFFFFFFFFFFFFFFFFFFFFFFEBAAEDCE6AF48A03BBFD25E8CD0364141

/-- The generator's x: `C[4]`. -/
def constGX : Word := 0x79BE667EF9DCBBAC55A06295CE870B07029BFCDB2DCE28D959F2815B16F81798

/-- The generator's y: `C[5]`. -/
def constGY : Word := 0x483ADA7726A3C4655DA4FBFC0E1108A8FD17B448A68554199C47D08FFB10D4B8

/-- The six entries in order. -/
def constants : List Word := [0, 1, constP, constN, constGX, constGY]

/-! ## Command words (R51) and the fields of a word -/

/-- `op | d<<20 | s1<<16 | s2<<12 | m<<8 | imm`, the form of every `Encoding` line. -/
def wordOf (op : CmdWord) (d s1 s2 m imm : Nat) : CmdWord :=
  op ||| (BitVec.ofNat 32 d <<< 20) ||| (BitVec.ofNat 32 s1 <<< 16) ||| (BitVec.ofNat 32 s2 <<< 12) ||| (BitVec.ofNat 32 m <<< 8) |||
    BitVec.ofNat 32 imm

/-- Bits 31:24. -/
def op (w : CmdWord) : Nat := (w.extractLsb' 24 8).toNat

/-- Bits 23:20. -/
def d (w : CmdWord) : Nat := (w.extractLsb' 20 4).toNat

/-- Bits 19:16. -/
def s1 (w : CmdWord) : Nat := (w.extractLsb' 16 4).toNat

/-- Bits 15:12. -/
def s2 (w : CmdWord) : Nat := (w.extractLsb' 12 4).toNat

/-- Bits 11:8. -/
def m (w : CmdWord) : Nat := (w.extractLsb' 8 4).toNat

/-- Bits 7:0. -/
def imm (w : CmdWord) : Nat := (w.extractLsb' 0 8).toNat

/-- The word's fields are those of the command: the used ones hold the operands, the others are zero (R52, R54). A point number is below 8, so its
field's top bit is zero. -/
def fieldsAre (w : CmdWord) : Instr → Prop
  | .ldc rd c => op w = 0x01 ∧ d w = rd.val ∧ s1 w = 0 ∧ s2 w = 0 ∧ m w = 0 ∧ imm w = c.toNat ∧ imm w ≤ 5
  | .fromb rd len => op w = 0x02 ∧ d w = rd.val ∧ s1 w = 0 ∧ s2 w = 0 ∧ m w = 0 ∧ imm w = len.toNat
  | .tob rs => op w = 0x03 ∧ d w = 0 ∧ s1 w = rs.val ∧ s2 w = 0 ∧ m w = 0 ∧ imm w = 0
  | .bitseq => op w = 0x04 ∧ d w = 0 ∧ s1 w = 0 ∧ s2 w = 0 ∧ m w = 0 ∧ imm w = 0
  | .addm rd rs1 rs2 rm => op w = 0x10 ∧ d w = rd.val ∧ s1 w = rs1.val ∧ s2 w = rs2.val ∧ m w = rm.val ∧ imm w = 0
  | .subm rd rs1 rs2 rm => op w = 0x11 ∧ d w = rd.val ∧ s1 w = rs1.val ∧ s2 w = rs2.val ∧ m w = rm.val ∧ imm w = 0
  | .mulm rd rs1 rs2 rm => op w = 0x12 ∧ d w = rd.val ∧ s1 w = rs1.val ∧ s2 w = rs2.val ∧ m w = rm.val ∧ imm w = 0
  | .expm rd rs1 rs2 rm => op w = 0x13 ∧ d w = rd.val ∧ s1 w = rs1.val ∧ s2 w = rs2.val ∧ m w = rm.val ∧ imm w = 0
  | .divm rd rs1 rs2 rm => op w = 0x14 ∧ d w = rd.val ∧ s1 w = rs1.val ∧ s2 w = rs2.val ∧ m w = rm.val ∧ imm w = 0
  | .ldzp qd => op w = 0x20 ∧ d w = qd.val ∧ s1 w = 0 ∧ s2 w = 0 ∧ m w = 0 ∧ imm w = 0
  | .iszp qs => op w = 0x21 ∧ d w = 0 ∧ s1 w = qs.val ∧ s2 w = 0 ∧ m w = 0 ∧ imm w = 0
  | .padd qd qs1 qs2 => op w = 0x22 ∧ d w = qd.val ∧ s1 w = qs1.val ∧ s2 w = qs2.val ∧ m w = 0 ∧ imm w = 0
  | .pdbl qd qs => op w = 0x23 ∧ d w = qd.val ∧ s1 w = qs.val ∧ s2 w = 0 ∧ m w = 0 ∧ imm w = 0
  | .smul qd rs => op w = 0x24 ∧ d w = qd.val ∧ s1 w = rs.val ∧ s2 w = 0 ∧ m w = 0 ∧ imm w = 0
  | .clrerr => op w = 0x3F ∧ d w = 0 ∧ s1 w = 0 ∧ s2 w = 0 ∧ m w = 0 ∧ imm w = 0

/-- R56 (a): the opcode is none of the fifteen. -/
abbrev unlistedOp (w : CmdWord) : Prop :=
  op w ∉ [0x01, 0x02, 0x03, 0x04, 0x10, 0x11, 0x12, 0x13, 0x14, 0x20, 0x21, 0x22, 0x23, 0x24, 0x3F]

/-- R56 (b): a non-zero bit in an unused field of a listed opcode. -/
abbrev unusedNonzero (w : CmdWord) : Prop :=
  (op w ∈ [0x01, 0x02] ∧ (s1 w ≠ 0 ∨ s2 w ≠ 0 ∨ m w ≠ 0)) ∨
  (op w = 0x03 ∧ (d w ≠ 0 ∨ s2 w ≠ 0 ∨ m w ≠ 0 ∨ imm w ≠ 0)) ∨
  (op w ∈ [0x04, 0x3F] ∧ (d w ≠ 0 ∨ s1 w ≠ 0 ∨ s2 w ≠ 0 ∨ m w ≠ 0 ∨ imm w ≠ 0)) ∨
  (op w ∈ [0x10, 0x11, 0x12, 0x13, 0x14] ∧ imm w ≠ 0) ∨
  (op w = 0x20 ∧ (s1 w ≠ 0 ∨ s2 w ≠ 0 ∨ m w ≠ 0 ∨ imm w ≠ 0)) ∨
  (op w = 0x21 ∧ (d w ≠ 0 ∨ s2 w ≠ 0 ∨ m w ≠ 0 ∨ imm w ≠ 0)) ∨
  (op w = 0x22 ∧ (m w ≠ 0 ∨ imm w ≠ 0)) ∨
  (op w ∈ [0x23, 0x24] ∧ (s2 w ≠ 0 ∨ m w ≠ 0 ∨ imm w ≠ 0))

/-- R56 (c): a point field whose top bit is one. -/
abbrev pointTopBit (w : CmdWord) : Prop :=
  (op w ∈ [0x20, 0x22, 0x23, 0x24] ∧ 8 ≤ d w) ∨ (op w ∈ [0x21, 0x22, 0x23] ∧ 8 ≤ s1 w) ∨ (op w = 0x22 ∧ 8 ≤ s2 w)

/-- R56 (d): an `LDC` index above 5. -/
abbrev badConstIndex (w : CmdWord) : Prop := op w = 0x01 ∧ 5 < imm w

/-- The word is illegal: one of the four cases of R56. -/
abbrev illegal (w : CmdWord) : Prop := unlistedOp w ∨ unusedNonzero w ∨ pointTopBit w ∨ badConstIndex w

/-- Every word of an opcode that breaks a field rule completes as the fault `IllegalCommand` (code 5). -/
def illegalFaults (o : Nat) : Prop :=
  ∀ s : State, op s.cmdlatch = o → illegal s.cmdlatch → complete s = .next (withFault s 5)

/-! ## What a host read returns (R33, R35) -/

/-- The answer of a host read in a state; none for a transaction that returns nothing. -/
def answer (s : State) : HostTxn → Option Reply
  | .readStatus => some (.status (statusWord s))
  | .readErrCmd => some (.errCmd s.errcmd)
  | .readReg i => some (.reg s.regs[i])
  | .readBuf a => some (.buf (readByte s.buf a.val))
  | .readSeq k => some (.seq s.seq[k])
  | .reset => none
  | .writeReg _ _ => none
  | .writeBuf _ _ => none
  | .issue _ => none

/-- The core completes a command in this step: BUSY is 1, and the next move is `Complete`, or the host has no moves left (R38; log 1). -/
abbrev completing (s : State) : Prop := s.busy = true ∧ (s.moves = [] ∨ s.moves.head? = some .complete)

/-- The host performs the transaction in this step. -/
abbrev hostDoes (s : State) (x : HostTxn) : Prop := s.moves.head? = some (.host x)

/-! ## Faults (R132) -/

/-- The code a command reports, 0 for none, for every command but `SMUL` (R130, R132): its own row of the table of R132. -/
def faultCode (s : State) : Instr → BitVec 3
  | .ldc _ _ => 0
  | .fromb _ len => if 32 < len.toNat then 2 else 0
  | .tob _ => 0
  | .bitseq => 0
  | .addm _ _ _ rm => if s.regs[rm] = 0 then 3 else 0
  | .subm _ _ _ rm => if s.regs[rm] = 0 then 3 else 0
  | .mulm _ _ _ rm => if s.regs[rm] = 0 then 3 else 0
  | .expm _ _ _ rm => if s.regs[rm] = 0 then 3 else 0
  | .divm _ _ rs2 rm =>
    if s.regs[rm].toNat ≤ 2 ∨ s.regs[rs2].toNat % s.regs[rm].toNat = 0 then 3 else 0
  | .ldzp _ => 0
  | .iszp _ => 0
  | .padd _ qs1 qs2 =>
    if isSentinel s qs1 ∨ isSentinel s qs2 then 0
    else if yOf s qs1 = yOf s qs2 then 4
    else if (xOf s qs1).toNat % secpP = (xOf s qs2).toNat % secpP then 3
    else 0
  | .pdbl _ qs => if yOf s qs = constP then 3 else 0
  | .smul _ rs =>
    if s.regs[rs] = constN then 3
    else if s.regs[rs] ∈ [constN + 2,
      0xAC9C52B33FA3CF1F5AD9E3FD77ED9BA4A880B9FC8EC739C2E0CFC810B51283CF,
      0x5363AD4CC05C30E0A5261C028812645A122E22EA20816678DF02967C1B23BD73,
      0xA6C75A9980B861C14A4C38051024C8B4245C45D44102CCF1BE052CF836477AE6,
      0xA6C75A9980B861C14A4C38051024C8B4245C45D44102CCF1BE052CF836477AE7] then 4
    else 0
  | .clrerr => 0

/-- The command is `SMUL`. -/
def isSmul : Instr → Bool
  | .smul _ _ => true
  | _ => false

/-- The command reads BUF (R18): `FROMB` and `BITSEQ`. -/
def readsBuf : Instr → Bool
  | .fromb _ _ => true
  | .bitseq => true
  | _ => false

/-! ## The field of the curve -/

/-- A word as an element of the field of the curve prime. -/
def fe (v : Word) : ZMod secpP := (v.toNat : ZMod secpP)

/-- `x3` and `y3` are the reduced coordinates that the rules R106 and R107 compute from the slope, with `a / b` taken as `a * b^(p-2)` (R84). -/
def lineResult (num den x1 y1 x2 : ZMod secpP) (x3 y3 : Word) : Prop :=
  x3.toNat < secpP ∧ y3.toNat < secpP ∧
    fe x3 = (num * den ^ (secpP - 2)) ^ 2 - x1 - x2 ∧
    fe y3 = (x1 - fe x3) * (num * den ^ (secpP - 2)) - y1

end Sys2Proof.Machine.Expect

section Sys2ProofObligations

open Sys2Proof Sys2Proof.Machine Sys2Proof.Machine.Expect

/-! ## Encoding -/

/-- Words written out from R59's examples and from the `Encoding` line of each command, and five illegal ones. -/
def Obligations.DecodesSpecWords : Prop :=
  decode 0x10301200 = .ok (.addm 3 0 1 2) ∧ decode 0x22201000 = .ok (.padd 2 0 1) ∧ decode 0x24380000 = .ok (.smul 3 8) ∧
  decode 0x01500004 = .ok (.ldc 5 4) ∧ decode 0x02000020 = .ok (.fromb 0 32) ∧ decode 0x03040000 = .ok (.tob 4) ∧
  decode 0x04000000 = .ok .bitseq ∧ decode 0x3F000000 = .ok .clrerr ∧ decode 0x20300000 = .ok (.ldzp 3) ∧
  (decode 0x00000000).toOption = none ∧ (decode 0xFF000000).toOption = none ∧ (decode 0x01000006).toOption = none ∧
  (decode 0x20800000).toOption = none ∧ (decode 0x10301201).toOption = none

/-- Decoding the word of a well-formed command gives the command, every operand at every value. -/
def Obligations.DecodeOfEncode : Prop := ∀ i : Instr, i.wellFormed = true → decode (encode i) = .ok i

/-- A word that decodes is the word of the command it decodes to, and that command is well formed: each command has one word. -/
def Obligations.EncodeOfDecode : Prop :=
  ∀ (w : CmdWord) (i : Instr), decode w = .ok i → encode i = w ∧ i.wellFormed = true

/-- R54 with R52: a word stands for a command exactly when its used fields are the operands, its other fields are zero and its point fields'
top bits are zero. -/
def Obligations.DecodeReadsTheFields : Prop := ∀ (w : CmdWord) (i : Instr), decode w = .ok i ↔ fieldsAre w i

/-- R55, over the rows of R53 written out: a word gives the command of the row that selects it, at most one row selects it, and where none
does the word is illegal; the word is decoded at `Complete`. -/
def Obligations.DecodeSearchesTheTable : Prop :=
  (rows.map fun r => (r.mnemonic, r.pattern.toNat, r.mask.toNat, r.immMax)) =
    [("LDC", 0x01000000, 0xFF0FFFF8, some 5), ("FROMB", 0x02000000, 0xFF0FFF00, none), ("TOB", 0x03000000, 0xFFF0FFFF, none),
     ("BITSEQ", 0x04000000, 0xFFFFFFFF, none), ("ADDM", 0x10000000, 0xFF0000FF, none), ("SUBM", 0x11000000, 0xFF0000FF, none),
     ("MULM", 0x12000000, 0xFF0000FF, none), ("EXPM", 0x13000000, 0xFF0000FF, none), ("DIVM", 0x14000000, 0xFF0000FF, none),
     ("LDZP", 0x20000000, 0xFF8FFFFF, none), ("ISZP", 0x21000000, 0xFFF8FFFF, none), ("PADD", 0x22000000, 0xFF888FFF, none),
     ("PDBL", 0x23000000, 0xFF88FFFF, none), ("SMUL", 0x24000000, 0xFF80FFFF, none), ("CLRERR", 0x3F000000, 0xFFFFFFFF, none)] ∧
  (∀ (w : CmdWord), ∀ r ∈ rows, w &&& r.mask = r.pattern → (∀ k, r.immMax = some k → imm w ≤ k) → decode w = .ok (r.build w)) ∧
  (∀ (w : CmdWord), (∀ r ∈ rows, w &&& r.mask = r.pattern → ∃ k, r.immMax = some k ∧ k < imm w) → ∃ e, decode w = .error e) ∧
  (∀ (w : CmdWord), ∀ r ∈ rows, ∀ r' ∈ rows, w &&& r.mask = r.pattern → w &&& r'.mask = r'.pattern → r.mnemonic = r'.mnemonic) ∧
  (∀ (s : State) (i : Instr), decode s.cmdlatch = .ok i → complete s = exec i s)

/-- R56: the illegal words are exactly those of its cases (a) to (d), and each completes as `IllegalCommand`, code 5, and changes nothing else.
`StepRunsTheDecodedCommand` and `IssuedCommandRuns` say the same of a step and of an issued word. -/
def Obligations.IllegalWordsFault : Prop :=
  (∀ w : CmdWord, (∃ e, decode w = .error e) ↔ illegal w) ∧
  ∀ s : State, illegal s.cmdlatch → complete s = .next (withFault s 5)

/-! ## Reset -/

/-- R22: every piece of state after reset. -/
def Obligations.ResetState : Prop :=
  (∀ i : RegId, State.reset.regs[i] = 0) ∧ (∀ k : PointId, readPoint State.reset k = sentinel) ∧
  State.reset.busy = false ∧ State.reset.err = false ∧ State.reset.z = false ∧ State.reset.errcode = 0 ∧
  State.reset.errcmd = 0 ∧ State.reset.cmdlatch = 0 ∧
  (∀ a : BufIdx, readByte State.reset.buf a.val = 0x00) ∧ (∀ k : SeqIdx, State.reset.seq[k] = false)

/-- From R150: `HostReset` in any state, also while busy, puts every piece of the block's state to its reset value in one step; a command in flight is
abandoned; and the block then accepts any command. The model's own choices stand in three clauses: the moves to come and the replies given stay (log 1,
log 2), and a `complete` move that follows is null (log 4). -/
def Obligations.HostResetInAnyState : Prop :=
  ∀ (s : State) (ms : List Move), s.moves = .host .reset :: ms →
    ∃ t, step s = .next t ∧
      (∀ i : RegId, t.regs[i] = 0) ∧ t.busy = false ∧ t.err = false ∧ t.z = false ∧ t.errcode = 0 ∧ t.errcmd = 0 ∧
      t.cmdlatch = 0 ∧ (∀ a : BufIdx, readByte t.buf a.val = 0x00) ∧ (∀ k : SeqIdx, t.seq[k] = false) ∧
      t.moves = ms ∧ t.replies = s.replies ∧
      (∀ ms', ms = .complete :: ms' → step t = .next { t with moves := ms' }) ∧
      (∀ w ms', ms = .host (.issue w) :: ms' → step t = .next { t with cmdlatch := w, busy := true, moves := ms' })

/-- R152: right after reset a field command faults with `DivisionUndefined`, `SMUL` of a zero register and `PADD` and `PDBL` of reset views
return the sentinel. -/
def Obligations.ResetOperands : Prop :=
  ∀ (rd rs1 rs2 rm : RegId) (qd qs1 qs2 : PointId),
    exec (.addm rd rs1 rs2 rm) State.reset = .next (withFault State.reset 3) ∧
    exec (.subm rd rs1 rs2 rm) State.reset = .next (withFault State.reset 3) ∧
    exec (.mulm rd rs1 rs2 rm) State.reset = .next (withFault State.reset 3) ∧
    exec (.expm rd rs1 rs2 rm) State.reset = .next (withFault State.reset 3) ∧
    exec (.divm rd rs1 rs2 rm) State.reset = .next (withFault State.reset 3) ∧
    exec (.smul qd rs1) State.reset = .next (withPoint State.reset qd 0 0) ∧
    exec (.padd qd qs1 qs2) State.reset = .next (withPoint State.reset qd 0 0) ∧
    exec (.pdbl qd qs1) State.reset = .next (withPoint State.reset qd 0 0)

/-! ## The host port -/

/-- R34: the three cases of `HostIssue(w)`; acceptance does not look at the word but for the comparison with `CLRERR`. -/
def Obligations.IssueRule : Prop :=
  ∀ (s : State) (w : CmdWord) (ms : List Move), s.moves = .host (.issue w) :: ms →
    (s.busy = true → step s = .next { s with moves := ms }) ∧
    (s.busy = false → s.err = true → w ≠ 0x3F000000 → step s = .next { s with moves := ms }) ∧
    (s.busy = false → (s.err = false ∨ w = 0x3F000000) → step s = .next { s with cmdlatch := w, busy := true, moves := ms })

/-- R35: a host read is allowed in every state and returns the architectural value at that point; after an accepted issue, whatever the host
then does short of reset, its reads return the values from before the issue, and its writes and issues are without effect. -/
def Obligations.HostReadsReturnTheState : Prop :=
  (∀ (s : State) (x : HostTxn) (r : Reply) (ms : List Move), s.moves = .host x :: ms → answer s x = some r →
    step s = .next { s with moves := ms, replies := r :: s.replies }) ∧
  (∀ (s : State) (w : CmdWord) (xs : List HostTxn) (ms : List Move), s.busy = false → (s.err = false ∨ w = 0x3F000000) →
    HostTxn.reset ∉ xs → s.moves = .host (.issue w) :: (xs.map Move.host ++ ms) →
    Sys2Proof.core.run (xs.length + 1) s =
      .next { s with
        cmdlatch := w, busy := true, moves := ms,
        replies := (xs.filterMap (answer { s with busy := true })).reverse ++ s.replies })

/-- R36: host writes take effect while BUSY is 0, whatever ERR is, and are dropped while BUSY is 1. A written byte reads back where BUF is in its canonical
form, which `InvKeptByStep` says every reachable state has. -/
def Obligations.HostWritesRule : Prop :=
  (∀ (s : State) (i : RegId) (v : Word) (ms : List Move), s.moves = .host (.writeReg i v) :: ms →
    (s.busy = false → step s = .next { s with regs := s.regs.set i v, moves := ms }) ∧
    (s.busy = true → step s = .next { s with moves := ms })) ∧
  (∀ (s : State) (a : BufIdx) (b : Byte) (ms : List Move), s.moves = .host (.writeBuf a b) :: ms →
    (s.busy = false → ∃ buf', step s = .next { s with buf := buf', moves := ms } ∧
      (Memory.wf s.buf → readByte buf' a.val = b) ∧ ∀ c, c ≠ a.val → readByte buf' c = readByte s.buf c) ∧
    (s.busy = true → step s = .next { s with moves := ms }))

/-! ## The core's step -/

/-- From R38 and R56: a step that completes a command whose word decodes is `exec` of that command at this state, and a step that completes an illegal word,
whichever it is, records code 5 and changes nothing else. What the step adds is the model's own: it takes the `complete` move off `moves`, or runs the core
when the host has no moves left (log 1, log 5). -/
def Obligations.StepRunsTheDecodedCommand : Prop :=
  (∀ (s : State) (i : Instr) (ms : List Move), s.busy = true → decode s.cmdlatch = .ok i →
    (s.moves = .complete :: ms → step s = exec i { s with moves := ms }) ∧ (s.moves = [] → step s = exec i s)) ∧
  (∀ (s : State) (ms : List Move), s.busy = true → illegal s.cmdlatch →
    (s.moves = .complete :: ms → step s = .next (withFault { s with moves := ms } 5)) ∧
    (s.moves = [] → step s = .next (withFault s 5)))

/-- From R34, R38 and R56: an issue that is accepted and then completed runs `exec` of the issued command at the state of the issue; an illegal word is
accepted like any other and records code 5 when it completes. The two moves are the model's own (log 1). -/
def Obligations.IssuedCommandRuns : Prop :=
  (∀ (s : State) (w : CmdWord) (i : Instr) (ms : List Move), s.busy = false → (s.err = false ∨ w = 0x3F000000) → decode w = .ok i →
    s.moves = .host (.issue w) :: .complete :: ms →
    ∃ t, step s = .next t ∧ step t = exec i { s with cmdlatch := w, busy := true, moves := ms }) ∧
  (∀ (s : State) (w : CmdWord) (ms : List Move), s.busy = false → s.err = false → illegal w →
    s.moves = .host (.issue w) :: .complete :: ms →
    Sys2Proof.core.run 2 s = .next (withFault { s with cmdlatch := w, moves := ms } 5))

/-- The model's own placement of a word (log 3): the very next step runs the instruction it decodes to. -/
def Obligations.PlacedWordRunsNext : Prop :=
  ∀ (s : State) (nbits w : Nat) (i : Instr), decodeTableWord nbits w = some i →
    step (s.withFetchWord nbits w) = exec i { s with cmdlatch := tableWord nbits w, busy := true }

/-- Nothing stops the machine: every step answers a next state. -/
def Obligations.EveryStepAnswersNext : Prop := ∀ s : State, ∃ t, step s = .next t

/-- THE MODEL'S CHOICE: the run of any list of moves is finished (R44's word) after one step for each and one more. R38 says only that a completion is taken
after a finite time; that the core completes at once when no moves are left is log 5, and that a `complete` move of an idle block is null is log 4. -/
def Obligations.EveryRunFinishes : Prop :=
  ∀ s : State, ∃ t : State, Sys2Proof.core.run (s.moves.length + 1) s = .next t ∧ t.finished

/-- R38 (`Complete` is enabled exactly when BUSY is 1) and R145 (the idle block holds its state; log 4): while BUSY is 0 a `complete` move and a step
without moves change nothing. -/
def Obligations.IdleBlockHoldsItsState : Prop :=
  ∀ (s : State) (ms : List Move), s.busy = false →
    (s.moves = .complete :: ms → step s = .next { s with moves := ms }) ∧ (s.moves = [] → step s = .next s)

/-! ## Invariant and whole-machine rules -/

/-- The reset state meets the invariant. -/
def Obligations.InvAtReset : Prop := State.reset.Inv

/-- Every step keeps the invariant: ERR = 0 exactly when ERRCODE = 0, only the codes 0, 2, 3, 4, 5 appear, ERRCMD is 0 while ERR is 0, only `CLRERR` is in
flight while ERR is 1, and BUF is in its canonical form. -/
def Obligations.InvKeptByStep : Prop := ∀ s t : State, s.Inv → step s = .next t → t.Inv

/-- R14: Z is written only by `ISZP`; a fault leaves it; reset clears it; the host reads it in STATUS. -/
def Obligations.OnlyIszpWritesZ : Prop :=
  (∀ (i : Instr) (s t : State), (∀ qs, i ≠ .iszp qs) → exec i s = .next t → t.z = s.z) ∧
  (∀ (qs : PointId) (s : State), exec (.iszp qs) s = .next { s with z := decide (isSentinel s qs), busy := false }) ∧
  (∀ s t : State, step s = .next t → t.z ≠ s.z →
    (completing s ∧ ∃ qs, decode s.cmdlatch = .ok (.iszp qs)) ∨ hostDoes s .reset) ∧
  State.reset.z = false ∧
  (∀ s : State, (statusWord s).getLsbD 2 = s.z)

/-- From R15: the bits of STATUS, its read by the host, and for each field what sets it, what clears it, and that nothing else changes it. A faulting
completion, that is of an illegal word, of a command whose row of R132 gives a code, or of an `SMUL` whose walk fails, sets ERR and ERRCODE. ERR = 0 exactly
when ERRCODE = 0 in every state that a run from reset reaches, whatever the moves. The moves are the model's own (log 1). -/
def Obligations.StatusRegister : Prop :=
  (∀ s : State, (statusWord s).getLsbD 0 = s.busy ∧ (statusWord s).getLsbD 1 = s.err ∧ (statusWord s).getLsbD 2 = s.z ∧
    (statusWord s).getLsbD 3 = false ∧ (statusWord s).extractLsb' 4 3 = s.errcode ∧ (statusWord s).extractLsb' 7 25 = 0) ∧
  statusWord State.reset = 0 ∧
  (∀ s t : State, step s = .next t →
    (s.busy = false → t.busy = true → ∃ w, hostDoes s (.issue w) ∧ (s.err = false ∨ w = 0x3F000000) ∧ t.cmdlatch = w) ∧
    (s.busy = true → t.busy = false → completing s ∨ hostDoes s .reset) ∧
    (completing s → t.busy = false) ∧
    (s.err = false → t.err = true → completing s ∧ t.errcode ≠ 0) ∧
    (completing s → illegal s.cmdlatch → t.err = true ∧ t.errcode = 5) ∧
    (∀ i, completing s → decode s.cmdlatch = .ok i → isSmul i = false → faultCode s i ≠ 0 → t.err = true ∧ t.errcode = faultCode s i) ∧
    (∀ qd rs e, completing s → decode s.cmdlatch = .ok (.smul qd rs) → prToPub s.regs[rs] = .error e →
      t.err = true ∧ t.errcode = e.code) ∧
    (s.err = true → t.err = false → (completing s ∧ decode s.cmdlatch = .ok .clrerr) ∨ hostDoes s .reset) ∧
    (t.z ≠ s.z → (completing s ∧ ∃ qs, decode s.cmdlatch = .ok (.iszp qs)) ∨ hostDoes s .reset) ∧
    (t.errcode ≠ s.errcode →
      (completing s ∧ (t.err = true ∨ decode s.cmdlatch = .ok .clrerr)) ∨ hostDoes s .reset) ∧
    (∀ w, hostDoes s (.issue w) → s.busy = false → s.err = false → t.busy = true) ∧
    (completing s → decode s.cmdlatch = .ok .clrerr → t.err = false ∧ t.errcode = 0) ∧
    (hostDoes s .reset → statusWord t = 0)) ∧
  (∀ (s : State) (ms : List Move), s.moves = .host .readStatus :: ms →
    step s = .next { s with moves := ms, replies := .status (statusWord s) :: s.replies }) ∧
  (∀ (n : Nat) (ms : List Move) (s : State), Sys2Proof.core.run n ({ State.reset with moves := ms } : State) = .next s →
    (s.err = false ↔ s.errcode = 0))

/-- R16: ERRCMD changes only with a fault, and every faulting completion copies CMDLATCH into it (a completion faults if ERR is 1 after it, in states that
meet the invariant); `CLRERR` and reset clear it; the host reads it; in every state that a run from reset reaches it is 0 while ERR is 0. -/
def Obligations.ErrcmdRegister : Prop :=
  (∀ s t : State, step s = .next t →
    t.errcmd = s.errcmd ∨
    (completing s ∧ t.err = true ∧ t.errcmd = s.cmdlatch) ∨
    (t.errcmd = 0 ∧ ((completing s ∧ decode s.cmdlatch = .ok .clrerr) ∨ hostDoes s .reset))) ∧
  (∀ s t : State, s.Inv → completing s → step s = .next t → t.err = true → t.errcmd = s.cmdlatch) ∧
  (∀ (s t : State), completing s → decode s.cmdlatch = .ok .clrerr → step s = .next t → t.errcmd = 0) ∧
  (∀ (s t : State), hostDoes s .reset → step s = .next t → t.errcmd = 0) ∧
  (∀ (s : State) (ms : List Move), s.moves = .host .readErrCmd :: ms →
    step s = .next { s with moves := ms, replies := .errCmd s.errcmd :: s.replies }) ∧
  (∀ (n : Nat) (ms : List Move) (s : State), Sys2Proof.core.run n ({ State.reset with moves := ms } : State) = .next s →
    s.err = false → s.errcmd = 0)

/-- R134: a fault is taken at `Complete`, finds ERR = 0, and changes ERR, ERRCODE, ERRCMD and BUSY and nothing else; until `CLRERR` completes, every
other word is dropped, while host reads and writes remain allowed. The premise is the invariant that `InvKeptByStep` states. -/
def Obligations.FaultsArePrecise : Prop :=
  ∀ (s t : State), s.Inv → completing s → step s = .next t → t.err = true →
    s.err = false ∧ (t.errcode = 2 ∨ t.errcode = 3 ∨ t.errcode = 4 ∨ t.errcode = 5) ∧
    t = { s with err := true, errcode := t.errcode, errcmd := s.cmdlatch, busy := false, moves := s.moves.tail } ∧
    (∀ w ms, t.moves = .host (.issue w) :: ms → w ≠ 0x3F000000 → step t = .next { t with moves := ms }) ∧
    (∀ i v ms, t.moves = .host (.writeReg i v) :: ms → step t = .next { t with regs := t.regs.set i v, moves := ms }) ∧
    (∀ a b ms, t.moves = .host (.writeBuf a b) :: ms → step t = .next { t with buf := writeByte t.buf a.val b, moves := ms }) ∧
    (∀ x r ms, t.moves = .host x :: ms → answer t x = some r → step t = .next { t with moves := ms, replies := r :: t.replies })

/-- While ERR is 1 the fault record stays: a step that completes a command completes `CLRERR`; that step and `HostReset` clear ERR, ERRCODE and ERRCMD, and
every other step keeps the three. -/
def Obligations.FaultRecordIsSticky : Prop :=
  ∀ s t : State, s.Inv → s.err = true → step s = .next t →
    (completing s → decode s.cmdlatch = .ok .clrerr) ∧
    (completing s ∨ hostDoes s .reset → t.err = false ∧ t.errcode = 0 ∧ t.errcmd = 0) ∧
    (¬(completing s ∨ hostDoes s .reset) → t.err = true ∧ t.errcode = s.errcode ∧ t.errcmd = s.errcmd)

/-- The return from a fault: with ERR = 1 and the block idle, `CLRERR` issued and completed clears ERR, ERRCODE and ERRCMD and restores nothing else. -/
def Obligations.ReturnFromFault : Prop :=
  ∀ (s : State) (ms : List Move), s.busy = false → s.err = true → s.moves = .host (.issue 0x3F000000) :: .complete :: ms →
    Sys2Proof.core.run 2 s = .next { s with err := false, errcode := 0, errcmd := 0, cmdlatch := 0x3F000000, moves := ms }

/-- R132 with R130: what each command but `SMUL` reports, ERRCODE being 0 before. -/
def Obligations.FaultTable : Prop :=
  ∀ (i : Instr) (s t : State), i.wellFormed = true → isSmul i = false → s.err = false → s.errcode = 0 → exec i s = .next t →
    t.errcode = faultCode s i ∧ (t.err = true ↔ faultCode s i ≠ 0)

/-- R37's last sentence: a command ends with BUSY = 0 and either ERR, ERRCODE and ERRCMD unchanged, or the fault recorded and nothing else written;
`CLRERR`, whose effect is on those fields, apart. -/
def Obligations.CommandEnds : Prop :=
  ∀ (i : Instr) (s : State), i ≠ .clrerr → ∃ t, exec i s = .next t ∧ t.busy = false ∧
    ((t.err = s.err ∧ t.errcode = s.errcode ∧ t.errcmd = s.errcmd) ∨
      ∃ c, (c = 2 ∨ c = 3 ∨ c = 4 ∨ c = 5) ∧ t = withFault s c)

/-! ## Frames -/

/-- R12, register by register: no command changes a general register that is not in its "writes" column; a host write changes its own register
alone; reset changes any; nothing else changes a register. -/
def Obligations.RegisterWriters : Prop :=
  (∀ (i : Instr) (s t : State) (r : RegId), exec i s = .next t → r ∉ destRegs i → t.regs[r] = s.regs[r]) ∧
  (∀ (s t : State) (r : RegId), step s = .next t → t.regs[r] ≠ s.regs[r] →
    (completing s ∧ ∃ i, decode s.cmdlatch = .ok i ∧ r ∈ destRegs i) ∨
    (s.busy = false ∧ ∃ v, hostDoes s (.writeReg r v)) ∨ hostDoes s .reset)

/-- The memory frame. `TOB` stores to the bytes 0..31 and to no other address; no other command stores a byte; `BITSEQ` alone writes SEQ. Machine-wide, a
byte of BUF changes only by `TOB`, by the host's write of it, or by reset, and SEQ only by `BITSEQ` or reset. -/
def Obligations.MemoryWriters : Prop :=
  (∀ (i : Instr) (s t : State), exec i s = .next t → (∀ rs, i ≠ .tob rs) → ∀ a, readByte t.buf a = readByte s.buf a) ∧
  (∀ (rs : RegId) (s t : State), exec (.tob rs) s = .next t → ∀ a, 32 ≤ a → readByte t.buf a = readByte s.buf a) ∧
  (∀ (i : Instr) (s t : State), exec i s = .next t → i ≠ .bitseq → t.seq = s.seq) ∧
  (∀ (s t : State) (a : Nat), step s = .next t → readByte t.buf a ≠ readByte s.buf a →
    (completing s ∧ ∃ rs, decode s.cmdlatch = .ok (.tob rs)) ∨
    (s.busy = false ∧ ∃ (k : BufIdx) (b : Byte), k.val = a ∧ hostDoes s (.writeBuf k b)) ∨ hostDoes s .reset) ∧
  (∀ s t : State, step s = .next t → t.seq ≠ s.seq →
    (completing s ∧ decode s.cmdlatch = .ok .bitseq) ∨ hostDoes s .reset)

/-- The rest of the frame: no command changes CMDLATCH, the moves to come or the replies given; only `CLRERR` and a fault change ERR, ERRCODE or
ERRCMD; only `ISZP` changes Z. -/
def Obligations.StatusFrame : Prop :=
  ∀ (i : Instr) (s t : State), exec i s = .next t →
    t.cmdlatch = s.cmdlatch ∧ t.moves = s.moves ∧ t.replies = s.replies ∧ t.busy = false ∧
    ((∀ qs, i ≠ .iszp qs) → t.z = s.z) ∧
    (i ≠ .clrerr → (t.err = s.err ∧ t.errcode = s.errcode ∧ t.errcmd = s.errcmd) ∨
      (t.err = true ∧ t.errcode ≠ 0 ∧ t.errcmd = s.cmdlatch))

/-- R12's "reads" column: what a command writes and the fault it reports depend only on its source registers, and for `FROMB` and `BITSEQ` on BUF. Two
states that agree there (both with BUF in its canonical form and without a fault) give the same outcome. -/
def Obligations.SourcesDetermineTheResult : Prop :=
  ∀ (i : Instr) (s s' t t' : State), (∀ r ∈ srcRegs i, s.regs[r] = s'.regs[r]) →
    (readsBuf i = true → ∀ a : BufIdx, readByte s.buf a.val = readByte s'.buf a.val) → Memory.wf s.buf → Memory.wf s'.buf →
    s.err = false → s'.err = false → s.errcode = 0 → s'.errcode = 0 → exec i s = .next t → exec i s' = .next t' →
    t.err = t'.err ∧ t.errcode = t'.errcode ∧
    (t.err = false →
      (∀ r ∈ destRegs i, t.regs[r] = t'.regs[r]) ∧
      (∀ qs, i = .iszp qs → t.z = t'.z) ∧
      (∀ rs, i = .tob rs → ∀ a : BufIdx, readByte t.buf a.val = readByte t'.buf a.val) ∧
      (i = .bitseq → t.seq = t'.seq))

/-- R11: a point view is the pair of its even and odd register and no storage of its own; a write of either register changes it, a write of the view writes
both, and the sentinel is the pair (0, 0) with no tag beside it. -/
def Obligations.PointViewsAreAliases : Prop :=
  (∀ (s : State) (k : PointId), readPoint s k = ⟨xOf s k, yOf s k⟩) ∧
  (∀ (s : State) (k : PointId) (v : Word) (ms : List Move), s.busy = false →
    s.moves = .host (.writeReg ⟨2 * k.val, by omega⟩ v) :: ms → ∃ t, step s = .next t ∧ readPoint t k = ⟨v, yOf s k⟩) ∧
  (∀ (s : State) (k : PointId) (v : Word) (ms : List Move), s.busy = false →
    s.moves = .host (.writeReg ⟨2 * k.val + 1, by omega⟩ v) :: ms → ∃ t, step s = .next t ∧ readPoint t k = ⟨xOf s k, v⟩) ∧
  (∀ (s : State) (k : PointId) (p : Point), (writePoint s k p).regs = (s.regs.set (2 * k.val) p.x).set (2 * k.val + 1) p.y) ∧
  (∀ (s : State) (k : PointId), readPoint s k = sentinel ↔ s.regs[2 * k.val] = 0 ∧ s.regs[2 * k.val + 1] = 0)

/-! ## Conversion commands -/

/-- R70: `LDC`. -/
def Obligations.LdcLoadsAConstant : Prop :=
  (∀ (rd : RegId) (c : BitVec 8) (s : State) (h : c.toNat ≤ 5),
    decode (wordOf 0x01000000 rd.val 0 0 0 c.toNat) = .ok (.ldc rd c) ∧
    exec (.ldc rd c) s = .next (withReg s rd (constants[c.toNat]'(by simp [constants]; omega)))) ∧
  illegalFaults 0x01

/-- The model's choice of log 7: the command VALUE `LDC` with an index above 5, for which no word exists, takes the fault that R70 names for an index of 6
or 7. -/
def Obligations.LdcValueAboveFiveFaults : Prop :=
  ∀ (rd : RegId) (c : BitVec 8) (s : State), 5 < c.toNat → exec (.ldc rd c) s = .next (withFault s 5)

/-- R72: `FROMB`, all 256 lengths. -/
def Obligations.FrombReadsTheBuffer : Prop :=
  (∀ (rd : RegId) (len : BitVec 8) (s : State),
    decode (wordOf 0x02000000 rd.val 0 0 0 len.toNat) = .ok (.fromb rd len) ∧
    (len.toNat ≤ 32 → exec (.fromb rd len) s =
      .next (withReg s rd (BitVec.ofNat 256
        (∑ i ∈ Finset.range len.toNat, (readByte s.buf i).toNat * 256 ^ (len.toNat - 1 - i))))) ∧
    (32 < len.toNat → exec (.fromb rd len) s = .next (withFault s 2))) ∧
  illegalFaults 0x02

/-- R74: `TOB`. The written bytes read back where BUF is in its canonical form (`InvKeptByStep`), and BUF keeps that form. -/
def Obligations.TobWritesTheBuffer : Prop :=
  (∀ (rs : RegId) (s : State),
    decode (wordOf 0x03000000 0 rs.val 0 0 0) = .ok (.tob rs) ∧
    ∃ buf', exec (.tob rs) s = .next { s with buf := buf', busy := false } ∧
      (Memory.wf s.buf → ∀ a, a < 32 → readByte buf' a = s.regs[rs].extractLsb' (8 * (31 - a)) 8) ∧
      (∀ a, 32 ≤ a → readByte buf' a = readByte s.buf a) ∧ (Memory.wf s.buf → Memory.wf buf')) ∧
  illegalFaults 0x03

/-- R76: `BITSEQ`. -/
def Obligations.BitseqExpandsTheBuffer : Prop :=
  (∀ s : State, decode 0x04000000 = .ok .bitseq ∧
    ∃ seq', exec .bitseq s = .next { s with seq := seq', busy := false } ∧
      ∀ k : SeqIdx, seq'[k] = decide ((readByte s.buf (k.val / 8)).toNat / 2 ^ (7 - k.val % 8) % 2 = 1)) ∧
  illegalFaults 0x04

/-- R78: both round trips, for a BUF in its canonical form (`InvKeptByStep`). -/
def Obligations.ByteRoundTrips : Prop :=
  (∀ (rs rd : RegId) (s : State), Memory.wf s.buf →
    ∃ t, exec (.tob rs) s = .next t ∧ exec (.fromb rd 32) t = .next (withReg t rd s.regs[rs])) ∧
  (∀ (rd : RegId) (s : State), Memory.wf s.buf →
    ∃ t, exec (.fromb rd 32) s = .next t ∧ ∃ u, exec (.tob rd) t = .next u ∧ u.buf = s.buf)

/-! ## Field commands -/

/-- R80: `ADDM`. -/
def Obligations.AddmAddsModulo : Prop :=
  (∀ (rd rs1 rs2 rm : RegId) (s : State),
    decode (wordOf 0x10000000 rd.val rs1.val rs2.val rm.val 0) = .ok (.addm rd rs1 rs2 rm) ∧
    (s.regs[rm] ≠ 0 → exec (.addm rd rs1 rs2 rm) s =
      .next (withReg s rd (BitVec.ofNat 256 ((s.regs[rs1].toNat + s.regs[rs2].toNat) % s.regs[rm].toNat)))) ∧
    (s.regs[rm] = 0 → exec (.addm rd rs1 rs2 rm) s = .next (withFault s 3))) ∧
  illegalFaults 0x10

/-- R81: `SUBM`; the result is the remainder, in `[0, p)`, of the possibly negative difference. -/
def Obligations.SubmSubtractsModulo : Prop :=
  (∀ (rd rs1 rs2 rm : RegId) (s : State),
    decode (wordOf 0x11000000 rd.val rs1.val rs2.val rm.val 0) = .ok (.subm rd rs1 rs2 rm) ∧
    (s.regs[rm] ≠ 0 → exec (.subm rd rs1 rs2 rm) s =
      .next (withReg s rd (BitVec.ofInt 256 (((s.regs[rs1].toNat : Int) - s.regs[rs2].toNat) % s.regs[rm].toNat)))) ∧
    (s.regs[rm] = 0 → exec (.subm rd rs1 rs2 rm) s = .next (withFault s 3))) ∧
  illegalFaults 0x11

/-- R82: `MULM`. -/
def Obligations.MulmMultipliesModulo : Prop :=
  (∀ (rd rs1 rs2 rm : RegId) (s : State),
    decode (wordOf 0x12000000 rd.val rs1.val rs2.val rm.val 0) = .ok (.mulm rd rs1 rs2 rm) ∧
    (s.regs[rm] ≠ 0 → exec (.mulm rd rs1 rs2 rm) s =
      .next (withReg s rd (BitVec.ofNat 256 (s.regs[rs1].toNat * s.regs[rs2].toNat % s.regs[rm].toNat)))) ∧
    (s.regs[rm] = 0 → exec (.mulm rd rs1 rs2 rm) s = .next (withFault s 3))) ∧
  illegalFaults 0x12

/-- R83: `EXPM`; the exponent is not reduced, and `a^0 = 1`. -/
def Obligations.ExpmExponentiates : Prop :=
  (∀ (rd rs1 rs2 rm : RegId) (s : State),
    decode (wordOf 0x13000000 rd.val rs1.val rs2.val rm.val 0) = .ok (.expm rd rs1 rs2 rm) ∧
    (s.regs[rm] ≠ 0 → exec (.expm rd rs1 rs2 rm) s =
      .next (withReg s rd (BitVec.ofNat 256 (s.regs[rs1].toNat ^ s.regs[rs2].toNat % s.regs[rm].toNat)))) ∧
    (s.regs[rm] = 0 → exec (.expm rd rs1 rs2 rm) s = .next (withFault s 3))) ∧
  illegalFaults 0x13

/-- R84: `DIVM`; no test that the modulus is prime. -/
def Obligations.DivmDividesByFermat : Prop :=
  (∀ (rd rs1 rs2 rm : RegId) (s : State),
    decode (wordOf 0x14000000 rd.val rs1.val rs2.val rm.val 0) = .ok (.divm rd rs1 rs2 rm) ∧
    (2 < s.regs[rm].toNat → s.regs[rs2].toNat % s.regs[rm].toNat ≠ 0 → exec (.divm rd rs1 rs2 rm) s =
      .next (withReg s rd (BitVec.ofNat 256
        (s.regs[rs1].toNat * s.regs[rs2].toNat ^ (s.regs[rm].toNat - 2) % s.regs[rm].toNat)))) ∧
    ((s.regs[rm].toNat ≤ 2 ∨ s.regs[rs2].toNat % s.regs[rm].toNat = 0) →
      exec (.divm rd rs1 rs2 rm) s = .next (withFault s 3))) ∧
  illegalFaults 0x14

/-- R89: the laws the source gives as testable properties. -/
def Obligations.ModularLaws : Prop :=
  (∀ a b p c : Word, p ≠ 0 → addMod a b p = .ok c → subMod c b p = .ok (a % p)) ∧
  (∀ a b p : Word, mulMod a b p = mulMod b a p) ∧
  (∀ a p : Word, 1 < p.toNat → expMod a 0 p = .ok (1 % p)) ∧
  (∀ a b p : Word, Nat.Prime p.toNat → 2 < p.toNat → b.toNat % p.toNat ≠ 0 →
    ∃ q, divMod a b p = .ok q ∧ mulMod q b p = .ok (a % p))

/-- From R90 and R60: the moves of `INVM rd, rs, rm, rt`, from an idle block without a fault, for a prime modulus above 2 and an operand that is no
multiple of it, leave in `r[rd]` the modular inverse, without fault. That the two commands with their `WAIT`s are six moves, so that the run takes six
steps, is the model's choice (log 14): each `WAIT`, R59's "poll until BUSY = 0", is one `complete` move and one read of STATUS. -/
def Obligations.InvmInverts : Prop :=
  ∀ (rd rs rm rt : RegId) (s : State), (Pseudo.invm rd rs rm rt).wellFormed = true → s.busy = false → s.err = false →
    s.moves = (Pseudo.invm rd rs rm rt).moves → Nat.Prime s.regs[rm].toNat → 2 < s.regs[rm].toNat →
    s.regs[rs].toNat % s.regs[rm].toNat ≠ 0 →
    ∃ t : State, Sys2Proof.core.run 6 s = .next t ∧ t.busy = false ∧ t.err = false ∧ t.regs[rd].toNat < s.regs[rm].toNat ∧
      t.regs[rd].toNat * s.regs[rs].toNat % s.regs[rm].toNat = 1

/-- R86: the bit walk of a non-zero value of bit length L with h bits set performs `Add` h times and `Dbl` L - 1 times, none of them for the leading
zeros, and the walk of 0 does nothing. The accumulator here counts the two. -/
def Obligations.WalkCountsItsOperations : Prop :=
  (∀ (α : Type) (acc : α) (dbl add : α → Except CmdError α), walk 0 acc dbl add = .ok acc) ∧
  ∀ k : Word, k ≠ 0 →
    walk k ((0, 0) : Nat × Nat) (fun a => .ok (a.1 + 1, a.2)) (fun a => .ok (a.1, a.2 + 1)) =
      .ok (Nat.log2 k.toNat, ((List.range 256).filter fun j => k.getLsbD j).length)

/-! ## Point commands -/

/-- R102: `LDZP`. -/
def Obligations.LdzpLoadsTheSentinel : Prop :=
  (∀ (qd : PointId) (s : State),
    decode (wordOf 0x20000000 qd.val 0 0 0 0) = .ok (.ldzp qd) ∧ exec (.ldzp qd) s = .next (withPoint s qd 0 0)) ∧
  illegalFaults 0x20

/-- R103 with R104: `ISZP` compares the raw coordinates. -/
def Obligations.IszpTestsTheSentinel : Prop :=
  (∀ (qs : PointId) (s : State),
    decode (wordOf 0x21000000 0 qs.val 0 0 0) = .ok (.iszp qs) ∧
    (xOf s qs = 0 ∧ yOf s qs = 0 → exec (.iszp qs) s = .next { s with z := true, busy := false }) ∧
    (¬(xOf s qs = 0 ∧ yOf s qs = 0) → exec (.iszp qs) s = .next { s with z := false, busy := false })) ∧
  illegalFaults 0x21

/-- R106: `PADD`, every case, in the order of its tests. -/
def Obligations.PaddAddsByTheChord : Prop :=
  (∀ (qd qs1 qs2 : PointId) (s : State),
    decode (wordOf 0x22000000 qd.val qs1.val qs2.val 0 0) = .ok (.padd qd qs1 qs2) ∧
    (isSentinel s qs1 → exec (.padd qd qs1 qs2) s = .next (withPoint s qd (xOf s qs2) (yOf s qs2))) ∧
    (¬isSentinel s qs1 → isSentinel s qs2 → exec (.padd qd qs1 qs2) s = .next (withPoint s qd (xOf s qs1) (yOf s qs1))) ∧
    (¬isSentinel s qs1 → ¬isSentinel s qs2 → yOf s qs1 = yOf s qs2 → exec (.padd qd qs1 qs2) s = .next (withFault s 4)) ∧
    (¬isSentinel s qs1 → ¬isSentinel s qs2 → yOf s qs1 ≠ yOf s qs2 →
      (xOf s qs1).toNat % secpP = (xOf s qs2).toNat % secpP → exec (.padd qd qs1 qs2) s = .next (withFault s 3)) ∧
    (¬isSentinel s qs1 → ¬isSentinel s qs2 → yOf s qs1 ≠ yOf s qs2 →
      (xOf s qs1).toNat % secpP ≠ (xOf s qs2).toNat % secpP →
      ∃ x3 y3 : Word, exec (.padd qd qs1 qs2) s = .next (withPoint s qd x3 y3) ∧
        lineResult (fe (yOf s qs1) - fe (yOf s qs2)) (fe (xOf s qs1) - fe (xOf s qs2)) (fe (xOf s qs1)) (fe (yOf s qs1))
          (fe (xOf s qs2)) x3 y3)) ∧
  illegalFaults 0x22

/-- R107: `PDBL`, every case. -/
def Obligations.PdblDoublesByTheTangent : Prop :=
  (∀ (qd qs : PointId) (s : State),
    decode (wordOf 0x23000000 qd.val qs.val 0 0 0) = .ok (.pdbl qd qs) ∧
    (yOf s qs = 0 → exec (.pdbl qd qs) s = .next (withPoint s qd 0 0)) ∧
    (yOf s qs = constP → exec (.pdbl qd qs) s = .next (withFault s 3)) ∧
    (yOf s qs ≠ 0 → yOf s qs ≠ constP →
      ∃ x3 y3 : Word, exec (.pdbl qd qs) s = .next (withPoint s qd x3 y3) ∧
        lineResult (3 * fe (xOf s qs) ^ 2) (2 * fe (yOf s qs)) (fe (xOf s qs)) (fe (yOf s qs)) (fe (xOf s qs)) x3 y3)) ∧
  illegalFaults 0x23

/-- The walk of `SMUL` over the bits of the scalar, written as a recursion on the number that the bits consumed so far form: doubling by
`DoublePoint`, addition of G as the second operand by `AddPoints`, and the first error ends it. -/
def Obligations.SmulWalksTheScalar : Prop :=
  (∃ f : Nat → Except CmdError Point,
    f 0 = .ok ⟨0, 0⟩ ∧ f 1 = .ok ⟨constGX, constGY⟩ ∧
    (∀ k, 1 ≤ k → f (2 * k) = (f k).bind doublePoint) ∧
    (∀ k, 1 ≤ k → f (2 * k + 1) = (f (2 * k)).bind fun acc => addPoints acc ⟨constGX, constGY⟩) ∧
    ∀ (qd : PointId) (rs : RegId) (s : State),
      (∀ pt, f s.regs[rs].toNat = .ok pt → exec (.smul qd rs) s = .next (withPoint s qd pt.x pt.y)) ∧
      (∀ e, f s.regs[rs].toNat = .error e → exec (.smul qd rs) s = .next (withFault s e.code))) ∧
  (∀ (qd : PointId) (rs : RegId), decode (wordOf 0x24000000 qd.val rs.val 0 0 0) = .ok (.smul qd rs)) ∧
  illegalFaults 0x24

/-- `SMUL` of the scalars 0 to 4: the sentinel, G, and the points the source prints in its scenarios 5 and 6. -/
def Obligations.SmulSmallScalars : Prop :=
  ∀ (qd : PointId) (rs : RegId) (s : State),
    (s.regs[rs] = 0 → exec (.smul qd rs) s = .next (withPoint s qd 0 0)) ∧
    (s.regs[rs] = 1 → exec (.smul qd rs) s = .next (withPoint s qd constGX constGY)) ∧
    (s.regs[rs] = 2 → exec (.smul qd rs) s = .next (withPoint s qd
      0xC6047F9441ED7D6D3045406E95C07CD85C778E4B8CEF3CA7ABAC09B95C709EE5
      0x1AE168FEA63DC339A3C58419466CEAEEF7F632653266D0E1236431A950CFE52A)) ∧
    (s.regs[rs] = 3 → exec (.smul qd rs) s = .next (withPoint s qd
      0xF9308A019258C31049344F85F89D5229B531C845836F99B08601F113BCE036F9
      0x388F7B0F632DE8140FE337E62A37F3566500A99934C2231B6CB9FD7584B8E672)) ∧
    (s.regs[rs] = 4 → exec (.smul qd rs) s = .next (withPoint s qd
      0xE493DBF1C10D80F3581E4904930B1404CC6C13900EE0758474FA94ABE8C4CD13
      0x51ED993EA0D455B75642E2098EA51448D967AE33BFBDFE40CFE97BDC47739922))

/-- R109: `SMUL` faults for exactly the six scalars of the table, each with the code of the table, and completes for every other scalar. -/
def Obligations.SmulFaultsForExactlySixScalars : Prop :=
  ∀ (qd : PointId) (rs : RegId) (s : State),
    (faultCode s (.smul qd rs) ≠ 0 → exec (.smul qd rs) s = .next (withFault s (faultCode s (.smul qd rs)))) ∧
    (faultCode s (.smul qd rs) = 0 → ∃ x y, exec (.smul qd rs) s = .next (withPoint s qd x y))

/-- From R106 to R108 and R110, which the spec derives from them and from the group law that it takes from general knowledge (log 15): for every scalar
outside the six, `SMUL` gives the coordinates of `(k mod n) G` in the group of the curve, and the sentinel exactly for
`k = 0`. -/
def Obligations.SmulIsScalarMultiplication : Prop :=
  ∀ [Fact (Nat.Prime secpP)] (g : secpCurve.Point) (qd : PointId) (rs : RegId) (s : State),
    Represents ⟨constGX, constGY⟩ g → faultCode s (.smul qd rs) = 0 →
    ∃ x y, exec (.smul qd rs) s = .next (withPoint s qd x y) ∧ Represents ⟨x, y⟩ ((s.regs[rs].toNat % constN.toNat) • g) ∧
      ((x = 0 ∧ y = 0) ↔ s.regs[rs] = 0)

/-- The ROM's six entries are the values R20 prints (N among them UNVERIFIED, log 6), the point functions' prime and generator are its entries 2, 4 and 5,
and they are the curve's: entries 2 and 3 are prime, entries 4 and 5 satisfy `y^2 = x^3 + 7` modulo entry 2 and the sentinel does not, and the order of
the generator in the group of the curve (general knowledge, log 15) is entry 3. -/
def Obligations.RomConstantsAreTheCurves : Prop :=
  (rom 0 = 0 ∧ rom 1 = 1 ∧ rom 2 = constP ∧ rom 3 = constN ∧ rom 4 = constGX ∧ rom 5 = constGY) ∧
  curveP = rom 2 ∧ generator = ⟨rom 4, rom 5⟩ ∧
  (rom 2).toNat = 2 ^ 256 - 2 ^ 32 - 977 ∧ (rom 2).toNat = secpP ∧ Nat.Prime (rom 2).toNat ∧ Nat.Prime (rom 3).toNat ∧
  (rom 5).toNat ^ 2 % (rom 2).toNat = ((rom 4).toNat ^ 3 + 7) % (rom 2).toNat ∧ 0 ^ 2 % (rom 2).toNat ≠ (0 ^ 3 + 7) % (rom 2).toNat ∧
  ∀ [Fact (Nat.Prime secpP)], ∃ g : secpCurve.Point, Represents ⟨rom 4, rom 5⟩ g ∧ addOrderOf g = (rom 3).toNat

/-- In the group of the curve (general knowledge, log 15): `PADD` of two points is their group sum, through a shortcut or when their y coordinates differ
and the sum is not the identity; a point and its negation fault with `DivisionUndefined`. -/
def Obligations.PaddIsGroupAddition : Prop :=
  ∀ [Fact (Nat.Prime secpP)] (g h : secpCurve.Point) (qd qs1 qs2 : PointId) (s : State),
    Represents ⟨xOf s qs1, yOf s qs1⟩ g → Represents ⟨xOf s qs2, yOf s qs2⟩ h →
    ((g = 0 ∨ h = 0 ∨ (yOf s qs1 ≠ yOf s qs2 ∧ g + h ≠ 0)) →
      ∃ x y, exec (.padd qd qs1 qs2) s = .next (withPoint s qd x y) ∧ Represents ⟨x, y⟩ (g + h)) ∧
    (g ≠ 0 → h ≠ 0 → g + h = 0 → exec (.padd qd qs1 qs2) s = .next (withFault s 3))

/-- In the group of the curve (general knowledge, log 15): `PDBL` of a point is its group double, and never faults. -/
def Obligations.PdblIsGroupDoubling : Prop :=
  ∀ [Fact (Nat.Prime secpP)] (g : secpCurve.Point) (qd qs : PointId) (s : State), Represents ⟨xOf s qs, yOf s qs⟩ g →
    ∃ x y, exec (.pdbl qd qs) s = .next (withPoint s qd x y) ∧ Represents ⟨x, y⟩ (g + g)

/-- From R111 (the curve equation is general knowledge, log 15): with the cube root of unity the rule prints, every point of the curve has exactly two
others with the same y, `(βx, y)` and `(β²x, y)`; the two for G have the coordinates the rule prints; and `PADD` of two such points faults with
`PreconditionViolated`. -/
def Obligations.PointsWithEqualY : Prop :=
  let β : Word := 0x7AE96A2B657C07106E64479EAC3434E99CF0497512F58995C1396C28719501EE
  (∀ [Fact (Nat.Prime secpP)] (x x' y : ZMod secpP), y ^ 2 = x ^ 3 + 7 →
    (y ^ 2 = x' ^ 3 + 7 ↔ x' = x ∨ x' = fe β * x ∨ x' = fe β ^ 2 * x)) ∧
  (∀ [Fact (Nat.Prime secpP)] (x y : ZMod secpP), y ^ 2 = x ^ 3 + 7 →
    x ≠ fe β * x ∧ x ≠ fe β ^ 2 * x ∧ fe β * x ≠ fe β ^ 2 * x) ∧
  β.toNat * constGX.toNat % secpP = 0xBCACE2E99DA01887AB0102B696902325872844067F15E98DA7BBA04400B88FCB ∧
  β.toNat ^ 2 * constGX.toNat % secpP = 0xC994B69768832BCBFF5E9AB39AE8D1D3763BBF1E531BED98FE51DE5EE84F50FB ∧
  (∀ (qd qs1 qs2 : PointId) (s : State), ¬isSentinel s qs1 → ¬isSentinel s qs2 → yOf s qs1 = yOf s qs2 →
    exec (.padd qd qs1 qs2) s = .next (withFault s 4))

/-! ## The system command -/

/-- R120: `CLRERR`. It clears the error state and nothing else, it cannot fault, it is the one word accepted while ERR is 1, and a word with its opcode and
any other bit set is dropped while ERR is 1 and faults while ERR is 0. -/
def Obligations.ClrerrAcknowledgesAFault : Prop :=
  decode 0x3F000000 = .ok .clrerr ∧
  (∀ s : State, exec .clrerr s = .next { s with err := false, errcode := 0, errcmd := 0, busy := false }) ∧
  (∀ s : State, s.Inv → s.err = false → exec .clrerr s = .next { s with busy := false }) ∧
  (∀ (s : State) (w : CmdWord) (ms : List Move), s.busy = false → s.err = true → s.moves = .host (.issue w) :: ms →
    step s = .next (if w = 0x3F000000 then { s with cmdlatch := w, busy := true, moves := ms } else { s with moves := ms })) ∧
  (∀ (s : State) (w : CmdWord) (ms : List Move), op w = 0x3F → w ≠ 0x3F000000 → s.busy = false → s.err = false →
    s.moves = .host (.issue w) :: .complete :: ms →
    Sys2Proof.core.run 2 s = .next (withFault { s with cmdlatch := w, moves := ms } 5))

end Sys2ProofObligations
end

