-- ==== Sys2Proof/Laws/Bits.lean ====
section
/-! SUPPORT. Bytes and bits of a value: `ToBytes`, `BitSeq` and `Bits` by index (40_conversion_bitseq.md R74, R76, R77), and the number a prefix
of the bits stands for. -/

namespace Sys2Proof.Machine

theorem toBytes_getElem (v : Word) (i : Nat) (h : i < 32) : (toBytes v)[i] = v.extractLsb' (8 * (31 - i)) 8 := by
  simp [toBytes]

theorem bufBytes_getElem (m : List Host.Cell) (i : Nat) (h : i < 32) : (bufBytes m)[i] = readByte m i := by
  simp [bufBytes]

/-- Item `k` of a list of blocks of eight is item `k mod 8` of block `k div 8`. -/
theorem getElem?_flatMap_eight {α β : Type} (f : α → List β) (hf : ∀ a, (f a).length = 8) (l : List α) (k : Nat) :
    (l.flatMap f)[k]? = (l[k / 8]?).bind fun a => (f a)[k % 8]? := by
  induction l generalizing k with
  | nil => simp
  | cons a l ih =>
    rw [List.flatMap_cons]
    by_cases hk : k < 8
    · rw [List.getElem?_append_left (by rw [hf]; exact hk), Nat.div_eq_of_lt hk, Nat.mod_eq_of_lt hk]
      simp
    · rw [List.getElem?_append_right (by rw [hf]; omega), hf, ih]
      have h1 : k / 8 = (k - 8) / 8 + 1 := by omega
      have h2 : k % 8 = (k - 8) % 8 := by omega
      rw [h1, h2, List.getElem?_cons_succ]

theorem byteBits_getElem? (b : Byte) (j : Nat) (h : j < 8) : (byteBits b)[j]? = some (b.getLsbD (7 - j)) := by
  unfold byteBits
  interval_cases j <;> rfl

/-- `BitSeq(b)[k]` is bit `7 - (k mod 8)` of byte `k div 8` (R30, R76). -/
theorem bitSeq_getElem (b : Vector Byte 32) (k : Nat) (h : k < 256) :
    (bitSeq b)[k] = (b[k / 8]'(by omega)).getLsbD (7 - k % 8) := by
  have hk : k / 8 < 32 := by omega
  have h1 := getElem?_flatMap_eight byteBits (fun a => by simp [byteBits]) b.toList k
  have h2 : b.toList[k / 8]? = some b[k / 8] := by
    rw [List.getElem?_eq_getElem (by simpa using hk), Vector.getElem_toList]
  rw [h2, Option.bind_some, byteBits_getElem? _ _ (by omega)] at h1
  have h3 : k < (b.toList.flatMap byteBits).length := by simp [byteBits]; omega
  rw [List.getElem?_eq_getElem h3, Option.some.injEq] at h1
  exact h1

/-- `Bits(v)[k] = v[255 - k]` (R77). -/
theorem bits_getElem (v : Word) (k : Nat) (h : k < 256) : (bits v)[k] = v.getLsbD (255 - k) := by
  rw [bits, bitSeq_getElem _ _ h, toBytes_getElem _ _ (by omega), BitVec.getLsbD_extractLsb']
  have h1 : 7 - k % 8 < 8 := by omega
  have h2 : 8 * (31 - k / 8) + (7 - k % 8) = 255 - k := by omega
  simp [h1, h2]

theorem bits_toList (v : Word) : (bits v).toList = (List.range 256).map fun k => v.getLsbD (255 - k) := by
  apply List.ext_getElem
  · simp
  · intro k h1 h2
    simp only [Vector.getElem_toList, List.getElem_map, List.getElem_range]
    exact bits_getElem v k (by simpa using h1)

/-- The number a list of bits stands for, most significant bit first. -/
def bitsValue (bs : List Bool) : Nat := bs.foldl (fun n b => 2 * n + b.toNat) 0

theorem bitsValue_snoc (bs : List Bool) (b : Bool) : bitsValue (bs ++ [b]) = 2 * bitsValue bs + b.toNat := by
  simp [bitsValue]

/-- The first `n` bits of `Bits(v)` stand for the `n` most significant bits of `v`. -/
theorem bitsValue_prefix (v : Word) (n : Nat) (h : n ≤ 256) :
    bitsValue ((List.range n).map fun k => v.getLsbD (255 - k)) = v.toNat / 2 ^ (256 - n) := by
  induction n with
  | zero => simp [bitsValue, Nat.div_eq_of_lt v.isLt]
  | succ n ih =>
    rw [List.range_succ, List.map_append, List.map_singleton, bitsValue_snoc, ih (by omega)]
    have h1 : 256 - n = (255 - n) + 1 := by omega
    have h2 : 256 - (n + 1) = 255 - n := by omega
    rw [h1, h2, Nat.pow_succ, ← Nat.div_div_eq_div_mul, BitVec.getLsbD, Nat.testBit_eq_decide_div_mod_eq]
    have := Nat.div_add_mod (v.toNat / 2 ^ (255 - n)) 2
    rcases Nat.mod_two_eq_zero_or_one (v.toNat / 2 ^ (255 - n)) with h0 | h0 <;> simp [h0] <;> omega

/-- `Bits(v)` stands for `v`. -/
theorem bitsValue_bits (v : Word) : bitsValue (bits v).toList = v.toNat := by
  rw [bits_toList, bitsValue_prefix v 256 (by omega)]; simp

end Sys2Proof.Machine
end

