-- ==== Sys2Proof/Machine/ClosedForm.lean ====
section
/-! DEFINITION. The closed forms of the field functions (41_field_arithmetic.md R88), over exact integers. The machine runs the algorithms of
`Machine/Field.lean`; `Laws/Field.lean` proves each of them equal to its closed form for every modulus, zero included. -/

namespace Sys2Proof.Machine

/-- `AddMod(a, b, p) = (a + b) mod p` for `p ≥ 1`; `DivisionUndefined` for `p = 0` (R88). -/
def addClosed (a b p : Word) : Except CmdError Word :=
  if p = 0 then .error .divisionUndefined else .ok (BitVec.ofNat 256 ((a.toNat + b.toNat) % p.toNat))

/-- `SubMod(a, b, p) = (a − b) mod p` for `p ≥ 1`, "the remainder of the possibly negative integer `a − b`, taken in `[0, p)`";
`DivisionUndefined` for `p = 0` (R88). -/
def subClosed (a b p : Word) : Except CmdError Word :=
  if p = 0 then .error .divisionUndefined else .ok (BitVec.ofInt 256 (((a.toNat : Int) - b.toNat) % p.toNat))

/-- `MulMod(a, b, p) = (a · b) mod p` for `p ≥ 1`; `DivisionUndefined` for `p = 0` (R88). -/
def mulClosed (a b p : Word) : Except CmdError Word :=
  if p = 0 then .error .divisionUndefined else .ok (BitVec.ofNat 256 (a.toNat * b.toNat % p.toNat))

/-- `ExpMod(a, e, p) = (a^e) mod p` with `a^0 = 1` for `p ≥ 1`; `DivisionUndefined` for `p = 0` (R88). -/
def expClosed (a e p : Word) : Except CmdError Word :=
  if p = 0 then .error .divisionUndefined else .ok (BitVec.ofNat 256 (a.toNat ^ e.toNat % p.toNat))

/-- `DivMod(a, b, p) = (a · b^(p−2)) mod p` for `p > 2` and `b` not a multiple of `p`; `DivisionUndefined` for `p ≤ 2` or `b ≡ 0` (R88). -/
def divClosed (a b p : Word) : Except CmdError Word :=
  if p.toNat ≤ 2 ∨ b.toNat % p.toNat = 0 then .error .divisionUndefined
  else .ok (BitVec.ofNat 256 (a.toNat * b.toNat ^ (p.toNat - 2) % p.toNat))

end Sys2Proof.Machine
end

