-- ==== Sys2Proof/Laws/Field.lean ====
section
/-! SUPPORT. What each field function gives: the closed forms of 41_field_arithmetic.md R88, from the algorithms of R80 to R84 and R86. -/

namespace Sys2Proof.Machine

/-! ## Words and natural numbers -/

/-- A modulus that is not the zero word is a positive number. -/
theorem toNat_pos_of_ne_zero {p : Word} (hp : p ≠ 0) : 0 < p.toNat :=
  Nat.pos_of_ne_zero fun h => hp (BitVec.eq_of_toNat_eq (by simpa using h))

/-- A residue modulo a word fits a word. -/
theorem toNat_ofNat_mod {p : Word} (hp : p ≠ 0) (n : Nat) : (BitVec.ofNat 256 (n % p.toNat)).toNat = n % p.toNat := by
  rw [BitVec.toNat_ofNat]
  exact Nat.mod_eq_of_lt (Nat.lt_trans (Nat.mod_lt _ (toNat_pos_of_ne_zero hp)) p.isLt)

/-! ## Zero moduli (D16) -/

@[simp] theorem addMod_zero (a b : Word) : addMod a b 0 = .error .divisionUndefined := rfl
@[simp] theorem subMod_zero (a b : Word) : subMod a b 0 = .error .divisionUndefined := rfl
@[simp] theorem mulMod_zero (a b : Word) : mulMod a b 0 = .error .divisionUndefined := rfl
@[simp] theorem expMod_zero (a b : Word) : expMod a b 0 = .error .divisionUndefined := rfl

/-! ## Addition and subtraction -/

/-- The correction amount of rule R80 is the two's complement of the modulus. -/
theorem correction_eq_neg (p : Word) : Config.maxWord - p + 1 = -p := by
  rw [BitVec.neg_eq_not_add, BitVec.allOnes_sub_eq_not]; rfl

/-- The carry correction recovers the true sum: `AddMod` is the exact sum reduced (R80). -/
theorem addMod_eq {p : Word} (hp : p ≠ 0) (a b : Word) :
    addMod a b p = .ok (BitVec.ofNat 256 ((a.toNat + b.toNat) % p.toNat)) := by
  have hpos := toNat_pos_of_ne_zero hp
  have hlt := p.isLt
  have ha : a.toNat % p.toNat < p.toNat := Nat.mod_lt _ hpos
  have hb : b.toNat % p.toNat < p.toNat := Nat.mod_lt _ hpos
  simp only [addMod, hp, if_false, BitVec.toNat_umod]
  congr 1
  apply BitVec.eq_of_toNat_eq
  rw [toNat_ofNat_mod hp, BitVec.toNat_umod, Nat.add_mod a.toNat]
  generalize a.toNat % p.toNat = x at *
  generalize b.toNat % p.toNat = y at *
  split
  · rename_i hc
    have hs : (BitVec.ofNat 256 (x + y) + (Config.maxWord - p + 1)).toNat = x + y - p.toNat := by
      rw [correction_eq_neg, ← BitVec.sub_eq_add_neg, BitVec.toNat_sub, BitVec.toNat_ofNat]
      omega
    rw [hs, Nat.mod_eq_sub_mod (by omega : p.toNat ≤ x + y)]
  · rw [BitVec.toNat_ofNat, Nat.mod_eq_of_lt (a := x + y) (by omega)]

/-- `SubMod` is addition of the modular negation (R81). -/
theorem subMod_eq {p : Word} (hp : p ≠ 0) (a b : Word) :
    subMod a b p = .ok (BitVec.ofNat 256 ((a.toNat + (p.toNat - b.toNat % p.toNat)) % p.toNat)) := by
  have hpos := toNat_pos_of_ne_zero hp
  have hb : b.toNat % p.toNat < p.toNat := Nat.mod_lt _ hpos
  have hneg : (p - b % p).toNat = p.toNat - b.toNat % p.toNat := by
    rw [BitVec.toNat_sub_of_le, BitVec.toNat_umod]
    rw [BitVec.le_def, BitVec.toNat_umod]; omega
  simp only [subMod, hp, if_false]
  rw [addMod_eq hp, hneg, BitVec.toNat_umod, Nat.mod_add_mod]

/-- `SubMod` is the remainder, in `[0, p)`, of the possibly negative difference (R88). -/
theorem subMod_eq_int {p : Word} (hp : p ≠ 0) (a b : Word) :
    subMod a b p = .ok (BitVec.ofInt 256 (((a.toNat : Int) - b.toNat) % p.toNat)) := by
  have hpos := toNat_pos_of_ne_zero hp
  have hb : b.toNat % p.toNat ≤ p.toNat := (Nat.mod_lt _ hpos).le
  have h : (((a.toNat + (p.toNat - b.toNat % p.toNat)) % p.toNat : Nat) : Int) =
      ((a.toNat : Int) - b.toNat) % p.toNat := by
    push_cast [Nat.cast_sub hb]
    rw [show (a.toNat : Int) + (p.toNat - (b.toNat : Int) % p.toNat) = a.toNat - (b.toNat : Int) % p.toNat + p.toNat by ring,
      Int.add_emod_right, Int.sub_emod, Int.emod_emod_of_dvd _ (dvd_refl _), ← Int.sub_emod]
  rw [subMod_eq hp, ← h, BitVec.ofInt_natCast]

/-! ## The bit walk (R86) -/

@[simp] theorem except_ok_bind {ε α β : Type} (a : α) (f : α → Except ε β) : (Except.ok a >>= f) = f a := rfl
@[simp] theorem except_error_bind {ε α β : Type} (e : ε) (f : α → Except ε β) : (Except.error e >>= f) = .error e := rfl

/-- What a walk computes, for operations that never fail: if `R m acc` says that `acc` stands for the number `m`, doubling keeps `R` for `2m` and
adding for `m + 1`, then the walk's result stands for the number of its bits. -/
theorem walkBits_spec {α : Type} {dbl add : α → Except CmdError α} {R : Nat → α → Prop}
    (hdbl : ∀ m acc, R m acc → ∃ acc', dbl acc = .ok acc' ∧ R (2 * m) acc')
    (hadd : ∀ m acc, R m acc → ∃ acc', add acc = .ok acc' ∧ R (m + 1) acc')
    (bs : List Bool) (started : Bool) (m : Nat) (acc : α) (hm : started = false → m = 0) (hacc : R m acc) :
    ∃ acc', walkBits dbl add bs started acc = .ok acc' ∧ R (bs.foldl (fun n b => 2 * n + b.toNat) m) acc' := by
  induction bs generalizing started m acc with
  | nil => exact ⟨acc, rfl, hacc⟩
  | cons b bs ih =>
    obtain ⟨acc1, h1, hR1⟩ : ∃ acc1, (if started then dbl acc else Except.ok acc) = .ok acc1 ∧ R (2 * m) acc1 := by
      cases started with
      | true => simpa using hdbl m acc hacc
      | false => exact ⟨acc, rfl, by simpa [hm rfl] using hacc⟩
    obtain ⟨acc2, h2, hR2⟩ : ∃ acc2, (if b then add acc1 else Except.ok acc1) = .ok acc2 ∧ R (2 * m + b.toNat) acc2 := by
      cases b with
      | true => simpa using hadd _ _ hR1
      | false => exact ⟨acc1, rfl, by simpa using hR1⟩
    obtain ⟨acc', h', hR'⟩ := ih (started || b) _ acc2 (by cases started <;> cases b <;> simp_all) hR2
    exact ⟨acc', by rw [walkBits, h1, except_ok_bind, h2, except_ok_bind, h'], hR'⟩

/-- The walk over a value, for operations that never fail. -/
theorem walk_spec {α : Type} {dbl add : α → Except CmdError α} {R : Nat → α → Prop} (k : Word) (acc0 : α)
    (hdbl : ∀ m acc, R m acc → ∃ acc', dbl acc = .ok acc' ∧ R (2 * m) acc')
    (hadd : ∀ m acc, R m acc → ∃ acc', add acc = .ok acc' ∧ R (m + 1) acc') (h0 : R 0 acc0) :
    ∃ acc', walk k acc0 dbl add = .ok acc' ∧ R k.toNat acc' := by
  obtain ⟨acc', h, hR⟩ := walkBits_spec hdbl hadd (bits k).toList false 0 acc0 (fun _ => rfl) h0
  exact ⟨acc', h, by rwa [← bitsValue, bitsValue_bits] at hR⟩

/-! ## Multiplication, exponentiation, division -/

/-- A word that is the residue of `n`. -/
theorem eq_ofNat_of_toNat {p x : Word} {n : Nat} (h : x.toNat = n % p.toNat) : x = BitVec.ofNat 256 (n % p.toNat) := by
  rw [← h, BitVec.ofNat_toNat, BitVec.setWidth_eq]

/-- `MulMod` is the exact product reduced (R82, R88). -/
theorem mulMod_eq {p : Word} (hp : p ≠ 0) (a b : Word) :
    mulMod a b p = .ok (BitVec.ofNat 256 (a.toNat * b.toNat % p.toNat)) := by
  have walk_mul (seq adder : Word) :
      ∃ acc', walk seq 0 (fun acc => addMod acc acc p) (fun acc => addMod acc adder p) = .ok acc' ∧
        acc'.toNat = seq.toNat * adder.toNat % p.toNat :=
    walk_spec (R := fun m acc => acc.toNat = m * adder.toNat % p.toNat) seq 0
      (fun m acc h => ⟨_, addMod_eq hp acc acc, by
        rw [toNat_ofNat_mod hp, h, ← Nat.add_mod, ← Nat.add_mul, ← Nat.two_mul]⟩)
      (fun m acc h => ⟨_, addMod_eq hp acc adder, by
        rw [toNat_ofNat_mod hp, h, Nat.mod_add_mod, Nat.succ_mul]⟩)
      (by simp)
  obtain ⟨acc', h, hv⟩ := walk_mul (if a % p ≤ b % p then a % p else b % p) (if a % p ≤ b % p then b % p else a % p)
  simp only [mulMod, hp, if_false]
  rw [h]
  congr 1
  refine eq_ofNat_of_toNat (hv.trans ?_)
  split
  · rw [BitVec.toNat_umod, BitVec.toNat_umod, ← Nat.mul_mod]
  · rw [BitVec.toNat_umod, BitVec.toNat_umod, ← Nat.mul_mod, Nat.mul_comm]

/-- `ExpMod` is the exact power reduced, the exponent unreduced (R83, R88). -/
theorem expMod_eq {p : Word} (hp : p ≠ 0) (base e : Word) :
    expMod base e p = .ok (BitVec.ofNat 256 (base.toNat ^ e.toNat % p.toNat)) := by
  obtain ⟨acc', h, hv⟩ := walk_spec (R := fun m acc => acc.toNat = base.toNat ^ m % p.toNat)
    (dbl := fun acc => mulMod acc acc p) (add := fun acc => mulMod acc base p) e (1 % p)
    (fun m acc h => ⟨_, mulMod_eq hp acc acc, by
      rw [toNat_ofNat_mod hp, h, ← Nat.mul_mod, ← Nat.pow_add, ← Nat.two_mul]⟩)
    (fun m acc h => ⟨_, mulMod_eq hp acc base, by
      rw [toNat_ofNat_mod hp, h, Nat.mod_mul_mod, Nat.pow_succ]⟩)
    (by simp [BitVec.toNat_umod])
  simp only [expMod, hp, if_false]
  rw [h]
  exact congrArg _ (eq_ofNat_of_toNat hv)

/-- `DivMod` is `a * b^(p-2)` reduced, where it does not fault (R84, R88). -/
theorem divMod_eq {b p : Word} (hp : 2 < p.toNat) (hb : b.toNat % p.toNat ≠ 0) (a : Word) :
    divMod a b p = .ok (BitVec.ofNat 256 (a.toNat * b.toNat ^ (p.toNat - 2) % p.toNat)) := by
  have hp0 : p ≠ 0 := by rintro rfl; simp at hp
  have h1 : ¬ p ≤ 2 := by rw [BitVec.le_def]; simpa using hp
  have h2 : ¬ b % p = 0 := fun h => hb (by simpa using congrArg BitVec.toNat h)
  have h3 : (p - 2).toNat = p.toNat - 2 := by
    rw [BitVec.toNat_sub_of_le (by rw [BitVec.le_def]; simpa using hp.le)]; simp
  simp only [divMod, h1, h2, if_false]
  rw [expMod_eq hp0, h3]
  rw [except_ok_bind, mulMod_eq hp0, toNat_ofNat_mod hp0, Nat.mul_mod_mod]

/-- `DivMod` raises `DivisionUndefined` for a modulus of at most 2 and for a divisor that is a multiple of the modulus (R84). -/
theorem divMod_error {a b p : Word} (h : p.toNat ≤ 2 ∨ b.toNat % p.toNat = 0) : divMod a b p = .error .divisionUndefined := by
  by_cases h1 : p ≤ 2
  · exact if_pos h1
  · refine (if_neg h1).trans (if_pos (BitVec.eq_of_toNat_eq ?_))
    rcases h with h | h
    · exact absurd (by rw [BitVec.le_def]; simpa using h) h1
    · simpa using h

/-! ## The closed forms, for every modulus (R88) -/

theorem addMod_eq_addClosed (a b p : Word) : addMod a b p = addClosed a b p := by
  unfold addClosed; split
  · rename_i h; rw [h, addMod_zero]
  · rename_i h; exact addMod_eq h a b

theorem subMod_eq_subClosed (a b p : Word) : subMod a b p = subClosed a b p := by
  unfold subClosed; split
  · rename_i h; rw [h, subMod_zero]
  · rename_i h; exact subMod_eq_int h a b

theorem mulMod_eq_mulClosed (a b p : Word) : mulMod a b p = mulClosed a b p := by
  unfold mulClosed; split
  · rename_i h; rw [h, mulMod_zero]
  · rename_i h; exact mulMod_eq h a b

theorem expMod_eq_expClosed (a e p : Word) : expMod a e p = expClosed a e p := by
  unfold expClosed; split
  · rename_i h; rw [h, expMod_zero]
  · rename_i h; exact expMod_eq h a e

theorem divMod_eq_divClosed (a b p : Word) : divMod a b p = divClosed a b p := by
  unfold divClosed; split
  · rename_i h; exact divMod_error h
  · rename_i h; exact divMod_eq (by omega) (fun h0 => h (.inr h0)) a

end Sys2Proof.Machine
end

