-- ==== Sys2Proof/Laws/Curve.lean ====
section
/-! SUPPORT. The point functions (42_point_curve.md R106 to R108) in closed form over residues modulo the curve prime, with a power that is computed
by repeated squaring, so that the kernel can evaluate them on numerals. -/

namespace Sys2Proof.Machine

/-! ## A power modulo `p` by repeated squaring -/

/-- `b ^ e mod p` for `e < 2 ^ fuel`, by repeated squaring. -/
def powMod (b p : Nat) : Nat → Nat → Nat
  | 0, _ => 1 % p
  | fuel + 1, e =>
    let h := powMod b p fuel (e / 2)
    if e % 2 = 1 then h * h % p * b % p else h * h % p

theorem powMod_eq (b p fuel e : Nat) (he : e < 2 ^ fuel) : powMod b p fuel e = b ^ e % p := by
  induction fuel generalizing e with
  | zero => obtain rfl : e = 0 := by simpa using he
            rfl
  | succ fuel ih =>
    have hq : e / 2 < 2 ^ fuel := by rw [Nat.pow_succ] at he; omega
    have hsq : powMod b p fuel (e / 2) * powMod b p fuel (e / 2) % p = b ^ (2 * (e / 2)) % p := by
      rw [ih _ hq, ← Nat.mul_mod, ← Nat.pow_add, Nat.two_mul]
    simp only [powMod]
    rw [hsq]
    have hdiv := Nat.div_add_mod e 2
    split
    · rename_i h1
      rw [h1] at hdiv
      conv_rhs => rw [← hdiv]
      rw [Nat.mod_mul_mod, Nat.pow_succ]
    · rename_i h1
      have h0 : e % 2 = 0 := by omega
      rw [h0, Nat.add_zero] at hdiv
      conv_rhs => rw [← hdiv]

/-! ## The field functions at the curve prime -/

theorem curveP_ne_zero : curveP ≠ 0 := by decide

theorem two_lt_curveP : 2 < curveP.toNat := by decide

/-- Sum modulo the curve prime. -/
def addP (a b : Word) : Word := BitVec.ofNat 256 ((a.toNat + b.toNat) % curveP.toNat)

/-- Difference modulo the curve prime. -/
def subP (a b : Word) : Word := BitVec.ofNat 256 ((a.toNat + (curveP.toNat - b.toNat % curveP.toNat)) % curveP.toNat)

/-- Product modulo the curve prime. -/
def mulP (a b : Word) : Word := BitVec.ofNat 256 (a.toNat * b.toNat % curveP.toNat)

/-- Quotient modulo the curve prime, `a * b^(p-2)`. -/
def divP (a b : Word) : Word :=
  BitVec.ofNat 256 (a.toNat * powMod b.toNat curveP.toNat 256 (curveP.toNat - 2) % curveP.toNat)

theorem addMod_curveP (a b : Word) : addMod a b curveP = .ok (addP a b) := addMod_eq curveP_ne_zero a b

theorem subMod_curveP (a b : Word) : subMod a b curveP = .ok (subP a b) := subMod_eq curveP_ne_zero a b

theorem mulMod_curveP (a b : Word) : mulMod a b curveP = .ok (mulP a b) := mulMod_eq curveP_ne_zero a b

theorem divMod_curveP (a b : Word) :
    divMod a b curveP = if b.toNat % curveP.toNat = 0 then .error .divisionUndefined else .ok (divP a b) := by
  split
  · rename_i h; exact divMod_error (.inr h)
  · rename_i h
    rw [divMod_eq two_lt_curveP h, divP, powMod_eq _ _ _ _ (by decide), Nat.mul_mod_mod]

/-! ## The point functions -/

/-- The third point on a line of slope `lam` through `(x1, y1)` and a point of abscissa `x2`, negated. -/
def lineP (lam x1 y1 x2 : Word) : Point :=
  let x3 := subP (subP (mulP lam lam) x1) x2
  ⟨x3, subP (mulP (subP x1 x3) lam) y1⟩

theorem lineThird_eq (lam x1 y1 x2 : Word) : lineThird lam x1 y1 x2 = .ok (lineP lam x1 y1 x2) := by
  simp only [lineThird, mulMod_curveP, subMod_curveP, except_ok_bind]; rfl

/-- `AddPoints` in closed form. -/
def chordSum (p1 p2 : Point) : Except CmdError Point :=
  if isZeroPoint p1 then .ok p2
  else if isZeroPoint p2 then .ok p1
  else if p1.y = p2.y then .error .preconditionViolated
  else if (subP p1.x p2.x).toNat % curveP.toNat = 0 then .error .divisionUndefined
  else .ok (lineP (divP (subP p1.y p2.y) (subP p1.x p2.x)) p1.x p1.y p2.x)

theorem addPoints_eq (p1 p2 : Point) : addPoints p1 p2 = chordSum p1 p2 := by
  simp only [addPoints, chordSum, subMod_curveP, except_ok_bind, divMod_curveP, lineThird_eq]
  split_ifs <;> simp

/-- `DoublePoint` in closed form. -/
def tangentDouble (pt : Point) : Except CmdError Point :=
  if isZeroPoint pt then .ok sentinel
  else if pt.y = 0 then .ok sentinel
  else if (addP pt.y pt.y).toNat % curveP.toNat = 0 then .error .divisionUndefined
  else .ok (lineP (divP (mulP 3 (mulP pt.x pt.x)) (addP pt.y pt.y)) pt.x pt.y pt.x)

theorem doublePoint_eq (pt : Point) : doublePoint pt = tangentDouble pt := by
  rw [doublePoint, tangentDouble]
  by_cases h1 : isZeroPoint pt = true
  · rw [if_pos h1, if_pos h1]
  rw [if_neg h1, if_neg h1]
  by_cases h2 : pt.y = 0
  · rw [if_pos h2, if_pos h2]
  rw [if_neg h2, if_neg h2, mulMod_curveP, except_ok_bind, mulMod_curveP, except_ok_bind, addMod_curveP, except_ok_bind,
    divMod_curveP]
  by_cases h3 : (addP pt.y pt.y).toNat % curveP.toNat = 0
  · rw [if_pos h3, if_pos h3, except_error_bind]
  · rw [if_neg h3, if_neg h3, except_ok_bind, lineThird_eq]

/-- `PrToPub` over the closed forms. -/
theorem prToPub_eq (k : Word) :
    prToPub k = walk k sentinel tangentDouble (fun acc => chordSum acc generator) := by
  have h1 : doublePoint = tangentDouble := funext doublePoint_eq
  have h2 : addPoints = chordSum := funext fun p => funext (addPoints_eq p)
  rw [prToPub, h1, h2]

/-- Two coordinates have a zero difference modulo the curve prime exactly when they are congruent. -/
theorem subP_mod_eq_zero (a b : Word) :
    (subP a b).toNat % curveP.toNat = 0 ↔ a.toNat % curveP.toNat = b.toNat % curveP.toNat := by
  rw [subP, toNat_ofNat_mod curveP_ne_zero, Nat.mod_mod]
  have hb := Nat.mod_lt b.toNat (toNat_pos_of_ne_zero curveP_ne_zero)
  have ha := Nat.mod_lt a.toNat (toNat_pos_of_ne_zero curveP_ne_zero)
  rw [Nat.add_mod]
  generalize a.toNat % curveP.toNat = x at *
  generalize b.toNat % curveP.toNat = y at *
  generalize curveP.toNat = p at *
  rcases Nat.eq_zero_or_pos y with rfl | hy
  · simp [Nat.mod_eq_of_lt ha]
  · rw [Nat.mod_eq_of_lt (by omega : p - y < p)]
    rcases Nat.lt_trichotomy (x + (p - y)) p with h | h | h
    · rw [Nat.mod_eq_of_lt h]; omega
    · rw [h, Nat.mod_self]; omega
    · rw [Nat.mod_eq_sub_mod (by omega), Nat.mod_eq_of_lt (by omega)]; omega

end Sys2Proof.Machine
end

