-- ==== Sys2Proof/Laws/Decode.lean ====
section
/-! SUPPORT. The fields of a packed word, and the opcode table as a decision: at most one row selects a word (30_encoding.md R51 to R55). -/

namespace Sys2Proof

/-! ## Fields of a packed word (R51) -/

theorem opField_packFields (op : BitVec 8) (d s1 s2 m : BitVec 4) (imm : BitVec 8) :
    opField (packFields op d s1 s2 m imm) = op := by
  ext i hi; simp [opField, packFields]; grind

theorem dField_packFields (op : BitVec 8) (d s1 s2 m : BitVec 4) (imm : BitVec 8) :
    dField (packFields op d s1 s2 m imm) = d := by
  ext i hi; simp [dField, packFields]; grind

theorem s1Field_packFields (op : BitVec 8) (d s1 s2 m : BitVec 4) (imm : BitVec 8) :
    s1Field (packFields op d s1 s2 m imm) = s1 := by
  ext i hi; simp [s1Field, packFields]; grind

theorem s2Field_packFields (op : BitVec 8) (d s1 s2 m : BitVec 4) (imm : BitVec 8) :
    s2Field (packFields op d s1 s2 m imm) = s2 := by
  ext i hi; simp [s2Field, packFields]; grind

theorem mField_packFields (op : BitVec 8) (d s1 s2 m : BitVec 4) (imm : BitVec 8) :
    mField (packFields op d s1 s2 m imm) = m := by
  ext i hi; simp [mField, packFields]; grind

theorem immField_packFields (op : BitVec 8) (d s1 s2 m : BitVec 4) (imm : BitVec 8) :
    immField (packFields op d s1 s2 m imm) = imm := by
  ext i hi; simp [immField, packFields]; grind

/-- A word is its fields, packed. -/
theorem packFields_fields (w : CmdWord) :
    packFields (opField w) (dField w) (s1Field w) (s2Field w) (mField w) (immField w) = w := by
  ext i hi
  simp [opField, dField, s1Field, s2Field, mField, immField, packFields]
  grind

/-- AND works field by field. -/
theorem packFields_and (op op' : BitVec 8) (d d' s1 s1' s2 s2' m m' : BitVec 4) (imm imm' : BitVec 8) :
    packFields op d s1 s2 m imm &&& packFields op' d' s1' s2' m' imm' =
      packFields (op &&& op') (d &&& d') (s1 &&& s1') (s2 &&& s2') (m &&& m') (imm &&& imm') := by
  ext i hi; simp [packFields]; grind

/-! ## Operand fields (R52) -/

@[simp] theorem regOf_regBits (r : RegId) : regOf (regBits r) = r := by revert r; decide

@[simp] theorem pointOf_pointBits (q : PointId) : pointOf (pointBits q) = q := by revert q; decide

theorem regBits_regOf (f : BitVec 4) : regBits (regOf f) = f := by revert f; decide

theorem pointBits_pointOf (f : BitVec 4) (h : f &&& 8 = 0) : pointBits (pointOf f) = f := by revert f; decide

theorem pointBits_top (q : PointId) : pointBits q &&& 8 = 0 := by revert q; decide

theorem field_and_zero (f : BitVec 4) : f &&& 0 = 0 := BitVec.and_zero

theorem immField_and_zero (c : BitVec 8) : c &&& 0 = 0 := BitVec.and_zero

theorem imm_and_mask (c : BitVec 8) (h : c.toNat ≤ Config.maxConst) : c &&& 0xF8 = 0 := by revert c; decide

/-! ## The opcode table -/

/-- The rows have pairwise different opcodes (R55). -/
theorem rows_opcodes_differ : rows.Pairwise fun r r' => opField r.pattern ≠ opField r'.pattern := by decide

/-- Every row's mask holds the whole opcode field. -/
theorem rows_mask_opcode : ∀ r ∈ rows, opField r.mask = 0xFF := by decide

/-- A row that selects a word has the word's opcode. -/
theorem opField_of_selects {r : Row} (hr : r ∈ rows) {w : CmdWord} (h : r.selects w = true) :
    opField r.pattern = opField w := by
  have h1 : w &&& r.mask = r.pattern := by
    have := (Bool.and_eq_true_iff.mp h).1
    simpa using this
  have h2 := rows_mask_opcode r hr
  have h3 : opField (w &&& r.mask) = opField w &&& opField r.mask := by
    ext i hi; simp [opField]
  rw [← h1, h3, h2, show (0xFF : BitVec 8) = BitVec.allOnes 8 by decide, BitVec.and_allOnes]

/-- In a list with pairwise different keys, the search finds the row that selects, whichever else comes first. -/
theorem find?_of_pairwise {l : List Row} (hp : l.Pairwise fun r r' => opField r.pattern ≠ opField r'.pattern)
    {w : CmdWord} (hop : ∀ r ∈ l, r.selects w = true → opField r.pattern = opField w) {r : Row} (hr : r ∈ l)
    (hs : r.selects w = true) : l.find? (fun r => r.selects w) = some r := by
  induction l with
  | nil => simp at hr
  | cons q l ih =>
    obtain ⟨hq, hl⟩ := List.pairwise_cons.mp hp
    rcases List.mem_cons.mp hr with rfl | hr
    · simp [hs]
    · have hne : q.selects w = false := by
        by_contra hqs
        have hqs : q.selects w = true := by simpa using hqs
        exact hq r hr ((hop q (by simp) hqs).trans (hop r (by simp [hr]) hs).symm)
      rw [List.find?_cons, hne]
      exact ih hl (fun r hr => hop r (by simp [hr])) hr

/-- The decoder reads a word by the one row that selects it (R55). -/
theorem decode_of_selects {r : Row} (hr : r ∈ rows) {w : CmdWord} (h : r.selects w = true) :
    decode w = .ok (r.build w) := by
  rw [decode, find?_of_pairwise rows_opcodes_differ (fun r hr => opField_of_selects hr) hr h]

/-- What a decoded word was selected by. -/
theorem selects_of_decode {w : CmdWord} {i : Instr} (h : decode w = .ok i) :
    ∃ r ∈ rows, r.selects w = true ∧ r.build w = i := by
  rw [decode] at h
  split at h
  · rename_i r hf
    exact ⟨r, List.mem_of_find?_eq_some hf, by simpa using List.find?_some hf, by simpa using h⟩
  · simp at h

end Sys2Proof
end

