-- ==== Sys2Proof/Laws/Primes.lean ====
section
/-! SUPPORT. The curve prime and the group order are prime: Lucas's test, with the prime factors of each predecessor proved in turn. -/

namespace Sys2Proof.Machine

/-- Lucas's test: an `a` of order `n - 1` modulo `n`, where `n - 1` divides a power of the product of the listed primes, makes `n` prime. -/
theorem prime_of_lucas (n a fuel k : Nat) (fs : List Nat) (hn : 1 < n) (hsmall : n < 2 ^ fuel) (hprod : n - 1 ∣ fs.prod ^ k)
    (hfs : ∀ q ∈ fs, q.Prime) (hone : powMod a n fuel (n - 1) = 1)
    (hne : ∀ q ∈ fs, powMod a n fuel ((n - 1) / q) ≠ 1) : n.Prime := by
  have cast_pow (e : Nat) (he : e < 2 ^ fuel) : (a : ZMod n) ^ e = 1 ↔ powMod a n fuel e = 1 := by
    rw [powMod_eq _ _ _ _ he, ← Nat.cast_pow, ← Nat.cast_one, ZMod.natCast_eq_natCast_iff, Nat.ModEq,
      Nat.mod_eq_of_lt hn]
  refine lucas_primality n a ((cast_pow _ (by omega)).mpr hone) fun q hq hdvd h => ?_
  obtain ⟨r, hr, hqr⟩ := (Prime.dvd_prod_iff hq.prime).mp (hq.dvd_of_dvd_pow (hdvd.trans hprod))
  obtain rfl : q = r := (Nat.prime_dvd_prime_iff_eq hq (hfs r hr)).mp hqr
  exact hne q hr ((cast_pow _ (lt_of_le_of_lt (Nat.div_le_self _ _) (by omega))).mp h)

theorem prime_13331831 : Nat.Prime 13331831 :=
  prime_of_lucas 13331831 13 24 1 [2, 5, 971, 1373]
    (by norm_num) (by norm_num) (by decide +kernel)
    (by
      intro q hq
      fin_cases hq
      · norm_num
      · norm_num
      · norm_num
      · norm_num)
    (by decide +kernel) (by decide +kernel)

theorem prime_173378833005251801 : Nat.Prime 173378833005251801 :=
  prime_of_lucas 173378833005251801 6 58 3 [2, 5, 2621, 24809, 13331831]
    (by norm_num) (by norm_num) (by decide +kernel)
    (by
      intro q hq
      fin_cases hq
      · norm_num
      · norm_num
      · norm_num
      · norm_num
      · exact prime_13331831)
    (by decide +kernel) (by decide +kernel)

theorem prime_22149492674086928081353 : Nat.Prime 22149492674086928081353 :=
  prime_of_lucas 22149492674086928081353 5 75 3 [2, 3, 5323, 173378833005251801]
    (by norm_num) (by norm_num) (by decide +kernel)
    (by
      intro q hq
      fin_cases hq
      · norm_num
      · norm_num
      · norm_num
      · exact prime_173378833005251801)
    (by decide +kernel) (by decide +kernel)

theorem prime_132896956044521568488119 : Nat.Prime 132896956044521568488119 :=
  prime_of_lucas 132896956044521568488119 6 77 1 [2, 3, 22149492674086928081353]
    (by norm_num) (by norm_num) (by decide +kernel)
    (by
      intro q hq
      fin_cases hq
      · norm_num
      · norm_num
      · exact prime_22149492674086928081353)
    (by decide +kernel) (by decide +kernel)

theorem prime_1206781 : Nat.Prime 1206781 :=
  prime_of_lucas 1206781 10 21 2 [2, 3, 5, 20113]
    (by norm_num) (by norm_num) (by decide +kernel)
    (by
      intro q hq
      fin_cases hq
      · norm_num
      · norm_num
      · norm_num
      · norm_num)
    (by decide +kernel) (by decide +kernel)

theorem prime_7240687 : Nat.Prime 7240687 :=
  prime_of_lucas 7240687 3 23 1 [2, 3, 1206781]
    (by norm_num) (by norm_num) (by decide +kernel)
    (by
      intro q hq
      fin_cases hq
      · norm_num
      · norm_num
      · exact prime_1206781)
    (by decide +kernel) (by decide +kernel)

theorem prime_107590001 : Nat.Prime 107590001 :=
  prime_of_lucas 107590001 3 27 4 [2, 5, 7, 29, 53]
    (by norm_num) (by norm_num) (by decide +kernel)
    (by
      intro q hq
      fin_cases hq
      · norm_num
      · norm_num
      · norm_num
      · norm_num
      · norm_num)
    (by decide +kernel) (by decide +kernel)

theorem prime_255515944373312847190720520512484175977 : Nat.Prime 255515944373312847190720520512484175977 :=
  prime_of_lucas 255515944373312847190720520512484175977 3 128 3 [2, 7, 11, 1627, 2657, 4423, 41201, 96557, 7240687, 107590001]
    (by norm_num) (by norm_num) (by decide +kernel)
    (by
      intro q hq
      fin_cases hq
      · norm_num
      · norm_num
      · norm_num
      · norm_num
      · norm_num
      · norm_num
      · norm_num
      · norm_num
      · exact prime_7240687
      · exact prime_107590001)
    (by decide +kernel) (by decide +kernel)

theorem prime_205115282021455665897114700593932402728804164701536103180137503955397371 : Nat.Prime 205115282021455665897114700593932402728804164701536103180137503955397371 :=
  prime_of_lucas 205115282021455665897114700593932402728804164701536103180137503955397371 10 237 2 [2, 3, 5, 29, 31, 7723, 132896956044521568488119, 255515944373312847190720520512484175977]
    (by norm_num) (by norm_num) (by decide +kernel)
    (by
      intro q hq
      fin_cases hq
      · norm_num
      · norm_num
      · norm_num
      · norm_num
      · norm_num
      · norm_num
      · exact prime_132896956044521568488119
      · exact prime_255515944373312847190720520512484175977)
    (by decide +kernel) (by decide +kernel)

theorem curveP_prime_nat : Nat.Prime 115792089237316195423570985008687907853269984665640564039457584007908834671663 :=
  prime_of_lucas 115792089237316195423570985008687907853269984665640564039457584007908834671663 3 256 1 [2, 3, 7, 13441, 205115282021455665897114700593932402728804164701536103180137503955397371]
    (by norm_num) (by norm_num) (by decide +kernel)
    (by
      intro q hq
      fin_cases hq
      · norm_num
      · norm_num
      · norm_num
      · norm_num
      · exact prime_205115282021455665897114700593932402728804164701536103180137503955397371)
    (by decide +kernel) (by decide +kernel)

theorem prime_4681609 : Nat.Prime 4681609 :=
  prime_of_lucas 4681609 23 23 3 [2, 3, 97, 2011]
    (by norm_num) (by norm_num) (by decide +kernel)
    (by
      intro q hq
      fin_cases hq
      · norm_num
      · norm_num
      · norm_num
      · norm_num)
    (by decide +kernel) (by decide +kernel)

theorem prime_107361793816595537 : Nat.Prime 107361793816595537 :=
  prime_of_lucas 107361793816595537 3 57 4 [2, 16699, 85831, 4681609]
    (by norm_num) (by norm_num) (by decide +kernel)
    (by
      intro q hq
      fin_cases hq
      · norm_num
      · norm_num
      · norm_num
      · exact prime_4681609)
    (by decide +kernel) (by decide +kernel)

theorem prime_44706919 : Nat.Prime 44706919 :=
  prime_of_lucas 44706919 6 26 1 [2, 3, 797, 9349]
    (by norm_num) (by norm_num) (by decide +kernel)
    (by
      intro q hq
      fin_cases hq
      · norm_num
      · norm_num
      · norm_num
      · norm_num)
    (by decide +kernel) (by decide +kernel)

theorem prime_174723607534414371449 : Nat.Prime 174723607534414371449 :=
  prime_of_lucas 174723607534414371449 3 68 3 [2, 17, 59, 4051, 120233, 44706919]
    (by norm_num) (by norm_num) (by decide +kernel)
    (by
      intro q hq
      fin_cases hq
      · norm_num
      · norm_num
      · norm_num
      · norm_num
      · norm_num
      · exact prime_44706919)
    (by decide +kernel) (by decide +kernel)

theorem prime_545358713 : Nat.Prime 545358713 :=
  prime_of_lucas 545358713 5 30 3 [2, 41, 59, 28181]
    (by norm_num) (by norm_num) (by decide +kernel)
    (by
      intro q hq
      fin_cases hq
      · norm_num
      · norm_num
      · norm_num
      · norm_num)
    (by decide +kernel) (by decide +kernel)

theorem prime_1627771 : Nat.Prime 1627771 :=
  prime_of_lucas 1627771 3 21 1 [2, 3, 5, 29, 1871]
    (by norm_num) (by norm_num) (by decide +kernel)
    (by
      intro q hq
      fin_cases hq
      · norm_num
      · norm_num
      · norm_num
      · norm_num
      · norm_num)
    (by decide +kernel) (by decide +kernel)

theorem prime_297159362677 : Nat.Prime 297159362677 :=
  prime_of_lucas 297159362677 2 39 2 [2, 3, 11, 461, 1627771]
    (by norm_num) (by norm_num) (by decide +kernel)
    (by
      intro q hq
      fin_cases hq
      · norm_num
      · norm_num
      · norm_num
      · norm_num
      · exact prime_1627771)
    (by decide +kernel) (by decide +kernel)

theorem prime_29047611873442575647497758179 : Nat.Prime 29047611873442575647497758179 :=
  prime_of_lucas 29047611873442575647497758179 2 95 1 [2, 293, 305873, 545358713, 297159362677]
    (by norm_num) (by norm_num) (by decide +kernel)
    (by
      intro q hq
      fin_cases hq
      · norm_num
      · norm_num
      · norm_num
      · exact prime_545358713
      · exact prime_297159362677)
    (by decide +kernel) (by decide +kernel)

theorem prime_341948486974166000522343609283189 : Nat.Prime 341948486974166000522343609283189 :=
  prime_of_lucas 341948486974166000522343609283189 2 109 3 [2, 3, 109, 29047611873442575647497758179]
    (by norm_num) (by norm_num) (by decide +kernel)
    (by
      intro q hq
      fin_cases hq
      · norm_num
      · norm_num
      · norm_num
      · exact prime_29047611873442575647497758179)
    (by decide +kernel) (by decide +kernel)

theorem groupN_prime_nat : Nat.Prime 115792089237316195423570985008687907852837564279074904382605163141518161494337 :=
  prime_of_lucas 115792089237316195423570985008687907852837564279074904382605163141518161494337 7 256 6 [2, 3, 149, 631, 107361793816595537, 174723607534414371449, 341948486974166000522343609283189]
    (by norm_num) (by norm_num) (by decide +kernel)
    (by
      intro q hq
      fin_cases hq
      · norm_num
      · norm_num
      · norm_num
      · norm_num
      · exact prime_107361793816595537
      · exact prime_174723607534414371449
      · exact prime_341948486974166000522343609283189)
    (by decide +kernel) (by decide +kernel)

/-- The curve prime is prime. -/
theorem curveP_prime : Nat.Prime curveP.toNat := curveP_prime_nat

end Sys2Proof.Machine
end

