-- ==== Sys2Proof/Laws/Group.lean ====
section
/-! SUPPORT. The chord and tangent rules on points of the curve are the group law of Mathlib's Weierstrass curves (42_point_curve.md R100, R106,
R107, R110). -/

namespace Sys2Proof.Machine

open WeierstrassCurve.Affine

theorem secpP_eq : secpP = curveP.toNat := by decide +kernel

theorem secpP_prime : Nat.Prime secpP := secpP_eq ▸ curveP_prime

theorem secpN_prime : Nat.Prime secpN := groupN_prime_nat

/-! ## Residues as elements of the field -/

theorem cast_mod (n : Nat) : ((n % curveP.toNat : Nat) : ZMod secpP) = n := by
  rw [← secpP_eq]; exact ZMod.natCast_mod n secpP

theorem addP_cast (a b : Word) : ((addP a b).toNat : ZMod secpP) = a.toNat + b.toNat := by
  rw [addP, toNat_ofNat_mod curveP_ne_zero, cast_mod, Nat.cast_add]

theorem subP_cast (a b : Word) : ((subP a b).toNat : ZMod secpP) = a.toNat - b.toNat := by
  have hb : b.toNat % curveP.toNat ≤ curveP.toNat := (Nat.mod_lt _ (toNat_pos_of_ne_zero curveP_ne_zero)).le
  have h0 : ((curveP.toNat : Nat) : ZMod secpP) = 0 := by rw [← secpP_eq]; exact ZMod.natCast_self secpP
  rw [subP, toNat_ofNat_mod curveP_ne_zero, cast_mod, Nat.cast_add, Nat.cast_sub hb, cast_mod, h0]
  ring

theorem mulP_cast (a b : Word) : ((mulP a b).toNat : ZMod secpP) = a.toNat * b.toNat := by
  rw [mulP, toNat_ofNat_mod curveP_ne_zero, cast_mod, Nat.cast_mul]

theorem divP_cast_pow (a b : Word) : ((divP a b).toNat : ZMod secpP) = a.toNat * (b.toNat : ZMod secpP) ^ (secpP - 2) := by
  rw [divP, toNat_ofNat_mod curveP_ne_zero, cast_mod, Nat.cast_mul, powMod_eq _ _ _ _ (by decide), cast_mod, Nat.cast_pow,
    secpP_eq]

theorem toNat_addP_lt (a b : Word) : (addP a b).toNat < secpP := by
  rw [addP, toNat_ofNat_mod curveP_ne_zero, secpP_eq]; exact Nat.mod_lt _ (toNat_pos_of_ne_zero curveP_ne_zero)

theorem toNat_subP_lt (a b : Word) : (subP a b).toNat < secpP := by
  rw [subP, toNat_ofNat_mod curveP_ne_zero, secpP_eq]; exact Nat.mod_lt _ (toNat_pos_of_ne_zero curveP_ne_zero)

/-- A residue is zero in the field exactly when it is a multiple of the prime. -/
theorem cast_eq_zero_iff (n : Nat) : (n : ZMod secpP) = 0 ↔ n % curveP.toNat = 0 := by
  rw [ZMod.natCast_eq_zero_iff, secpP_eq, Nat.dvd_iff_mod_eq_zero]

/-- Reduced coordinates are equal in the field exactly when they are equal words. -/
theorem cast_inj {a b : Word} (ha : a.toNat < secpP) (hb : b.toNat < secpP) :
    (a.toNat : ZMod secpP) = b.toNat ↔ a = b := by
  constructor
  · intro h
    apply BitVec.eq_of_toNat_eq
    rwa [ZMod.natCast_eq_natCast_iff, Nat.ModEq, Nat.mod_eq_of_lt ha, Nat.mod_eq_of_lt hb] at h
  · rintro rfl; rfl

/-! ## The curve -/

theorem secp_equation_iff (x y : ZMod secpP) : secpCurve.Equation x y ↔ y ^ 2 = x ^ 3 + 7 := by
  rw [equation_iff]; simp [secpCurve]

theorem secp_negY (x y : ZMod secpP) : secpCurve.negY x y = -y := by simp [negY, secpCurve]

theorem secp_two_ne_zero : (2 : ZMod secpP) ≠ 0 := by
  have := (cast_eq_zero_iff 2).not.mpr (by decide); exact_mod_cast this

theorem secp_seven_ne_zero : (7 : ZMod secpP) ≠ 0 := by
  have := (cast_eq_zero_iff 7).not.mpr (by decide); exact_mod_cast this

theorem secp_three_ne_zero : (3 : ZMod secpP) ≠ 0 := by
  have := (cast_eq_zero_iff 3).not.mpr (by decide); exact_mod_cast this

theorem represents_zero : Represents sentinel 0 := .inl ⟨rfl, rfl⟩

theorem isZeroPoint_iff (pt : Point) : isZeroPoint pt = true ↔ pt = sentinel := by
  cases pt; simp [isZeroPoint, sentinel]

variable [Fact secpP.Prime]

omit [Fact secpP.Prime] in
theorem mul_eq_div_of_inverse {F : Type} [Field F] {a b c : F} (hb : b ≠ 0) (h : c * b = 1) : a * c = a / b := by
  rw [eq_div_iff hb, mul_assoc, h, mul_one]

theorem divP_cast (a b : Word) (hb : (b.toNat : ZMod secpP) ≠ 0) :
    ((divP a b).toNat : ZMod secpP) = a.toNat / b.toNat := by
  rw [divP_cast_pow]
  apply mul_eq_div_of_inverse hb
  have h1 : (b.toNat : ZMod secpP) ^ (secpP - 2) * b.toNat = 1 := by
    have h2 : 2 < secpP := secpP_eq ▸ two_lt_curveP
    rw [← pow_succ, show secpP - 2 + 1 = secpP - 1 by omega]
    exact ZMod.pow_card_sub_one_eq_one hb
  exact h1

/-- Every solution of the curve equation is a nonsingular point. -/
theorem secp_nonsingular {x y : ZMod secpP} (h : y ^ 2 = x ^ 3 + 7) : secpCurve.Nonsingular x y := by
  rw [nonsingular_iff, secp_equation_iff]
  refine ⟨h, ?_⟩
  by_cases hy : y = 0
  · left
    have hx : x ≠ 0 := by
      rintro rfl
      rw [hy] at h
      exact secp_seven_ne_zero (by linear_combination -h)
    simp only [secpCurve]
    intro h0
    have : 3 * x ^ 2 = 0 := by linear_combination -h0
    rcases mul_eq_zero.mp this with h3 | h3
    · exact secp_three_ne_zero h3
    · exact hx (by simpa using h3)
  · right
    simp only [secpCurve]
    intro h0
    have : 2 * y = 0 := by linear_combination h0
    rcases mul_eq_zero.mp this with h2 | h2
    · exact secp_two_ne_zero h2
    · exact hy h2

/-! ## Points and pairs -/

/-- A pair with reduced coordinates on the curve stands for its point. -/
theorem represents_some {pt : Point} {x y : ZMod secpP} (h : secpCurve.Nonsingular x y) (hx : pt.x.toNat < secpP)
    (hy : pt.y.toNat < secpP) (ex : (pt.x.toNat : ZMod secpP) = x) (ey : (pt.y.toNat : ZMod secpP) = y) :
    Represents pt (.some x y h) := .inr ⟨x, y, h, rfl, hx, hy, ex, ey⟩

/-- A pair of reduced coordinates that satisfies the curve equation modulo the curve prime stands for an affine point. -/
theorem represents_of_equation {pt : Point} (hx : pt.x.toNat < secpP) (hy : pt.y.toNat < secpP)
    (h : pt.y.toNat ^ 2 % curveP.toNat = (pt.x.toNat ^ 3 + 7) % curveP.toNat) :
    ∃ n : secpCurve.Nonsingular (pt.x.toNat : ZMod secpP) (pt.y.toNat : ZMod secpP), Represents pt (.some _ _ n) := by
  have h2 := congrArg (Nat.cast : Nat → ZMod secpP) h
  rw [cast_mod, cast_mod] at h2
  exact ⟨secp_nonsingular (by simpa using h2), represents_some _ hx hy rfl rfl⟩

/-- "(0,0) does not satisfy the curve equation": a pair that stands for an affine point is not the sentinel. -/
theorem Represents.ne_sentinel {pt : Point} {x y : ZMod secpP} {h : secpCurve.Nonsingular x y}
    (hr : Represents pt (.some x y h)) : pt ≠ sentinel := by
  rcases hr with ⟨h0, _⟩ | ⟨x', y', h', he, _, _, ex, ey⟩
  · exact absurd h0 (Point.some_ne_zero h)
  · rintro rfl
    have he := (secp_equation_iff _ _).mp h'.1
    rw [← ex, ← ey] at he
    exact secp_seven_ne_zero (by simpa [sentinel] using he.symm)

theorem Represents.sentinel_iff {pt : Point} {g : secpCurve.Point} (hr : Represents pt g) : pt = sentinel ↔ g = 0 := by
  cases g with
  | zero =>
    rcases hr with ⟨_, h⟩ | ⟨x, y, h, he, _⟩
    · simp [h, ← Point.zero_def]
    · exact absurd he.symm (Point.some_ne_zero h)
  | some x y h => simp [hr.ne_sentinel, Point.some_ne_zero h]

theorem Represents.coords {pt : Point} {x y : ZMod secpP} {h : secpCurve.Nonsingular x y} (hr : Represents pt (.some x y h)) :
    pt.x.toNat < secpP ∧ pt.y.toNat < secpP ∧ (pt.x.toNat : ZMod secpP) = x ∧ (pt.y.toNat : ZMod secpP) = y := by
  rcases hr with ⟨h0, _⟩ | ⟨x', y', h', he, hx, hy, ex, ey⟩
  · exact absurd h0 (Point.some_ne_zero h)
  · obtain ⟨rfl, rfl⟩ := Point.some.inj he
    exact ⟨hx, hy, ex, ey⟩

/-- A pair stands for at most one point. -/
theorem Represents.unique {pt : Point} {g g' : secpCurve.Point} (h : Represents pt g) (h' : Represents pt g') : g = g' := by
  cases g' with
  | zero => exact h.sentinel_iff.mp (h'.sentinel_iff.mpr rfl)
  | some x' y' n' =>
    cases g with
    | zero => exact absurd (h.sentinel_iff.mpr rfl) h'.ne_sentinel
    | some x y n =>
      obtain ⟨_, _, ex, ey⟩ := h.coords
      obtain ⟨_, _, ex', ey'⟩ := h'.coords
      obtain rfl : x = x' := ex.symm.trans ex'
      obtain rfl : y = y' := ey.symm.trans ey'
      rfl

/-- The shared end of the two rules is the group law's third point, for the slope of the group law. -/
theorem lineP_represents {pt1 pt2 : Point} {x1 y1 x2 y2 : ZMod secpP} {h1 : secpCurve.Nonsingular x1 y1}
    {h2 : secpCurve.Nonsingular x2 y2} (hxy : ¬(x1 = x2 ∧ y1 = secpCurve.negY x2 y2)) (e1 : (pt1.x.toNat : ZMod secpP) = x1)
    (e2 : (pt1.y.toNat : ZMod secpP) = y1) (e3 : (pt2.x.toNat : ZMod secpP) = x2) {lam : Word}
    (hl : (lam.toNat : ZMod secpP) = secpCurve.slope x1 x2 y1 y2) :
    Represents (lineP lam pt1.x pt1.y pt2.x) (.some x1 y1 h1 + .some x2 y2 h2) := by
  rw [Point.add_some hxy]
  have hx : ((subP (subP (mulP lam lam) pt1.x) pt2.x).toNat : ZMod secpP) =
      secpCurve.addX x1 x2 (secpCurve.slope x1 x2 y1 y2) := by
    rw [subP_cast, subP_cast, mulP_cast, hl, e1, e3, addX]; simp [secpCurve]; ring
  refine represents_some _ (toNat_subP_lt _ _) (toNat_subP_lt _ _) hx ?_
  simp only [lineP]
  rw [subP_cast, mulP_cast, subP_cast, hx, hl, e1, e2, addY, negAddY, secp_negY]
  ring

/-- `AddPoints` of two points of the curve with different x and y is their group sum (R106). -/
theorem chordSum_represents {pt1 pt2 : Point} {x1 y1 x2 y2 : ZMod secpP} {h1 : secpCurve.Nonsingular x1 y1}
    {h2 : secpCurve.Nonsingular x2 y2} (r1 : Represents pt1 (.some x1 y1 h1)) (r2 : Represents pt2 (.some x2 y2 h2))
    (hy : pt1.y ≠ pt2.y) (hx : x1 ≠ x2) :
    ∃ pt, chordSum pt1 pt2 = .ok pt ∧ Represents pt (.some x1 y1 h1 + .some x2 y2 h2) := by
  obtain ⟨_, _, e1, e2⟩ := r1.coords
  obtain ⟨_, _, e3, e4⟩ := r2.coords
  have hden : ((subP pt1.x pt2.x).toNat : ZMod secpP) ≠ 0 := by
    rw [subP_cast, e1, e3]; exact sub_ne_zero.mpr hx
  refine ⟨_, ?_, lineP_represents (fun h => hx h.1) e1 e2 e3
    (lam := divP (subP pt1.y pt2.y) (subP pt1.x pt2.x)) ?_⟩
  · rw [chordSum, if_neg (by rw [isZeroPoint_iff]; exact r1.ne_sentinel),
      if_neg (by rw [isZeroPoint_iff]; exact r2.ne_sentinel), if_neg hy, if_neg ((cast_eq_zero_iff _).not.mp hden)]
  · rw [divP_cast _ _ hden, subP_cast, subP_cast, e1, e2, e3, e4, slope_of_X_ne hx]

/-- `DoublePoint` of a point of the curve is its group double, and never faults (R107). -/
theorem tangentDouble_represents {pt : Point} {g : secpCurve.Point} (r : Represents pt g) :
    ∃ pt', tangentDouble pt = .ok pt' ∧ Represents pt' (g + g) := by
  cases g with
  | zero =>
    refine ⟨sentinel, if_pos ((isZeroPoint_iff _).mpr (r.sentinel_iff.mpr rfl)), ?_⟩
    rw [← Point.zero_def, add_zero]; exact represents_zero
  | some x y h =>
    obtain ⟨_, hy, ex, ey⟩ := r.coords
    rw [tangentDouble, if_neg (by rw [isZeroPoint_iff]; exact r.ne_sentinel)]
    by_cases h0 : pt.y = 0
    · refine ⟨sentinel, if_pos h0, ?_⟩
      have hy0 : y = 0 := by rw [← ey, h0]; simp
      rw [Point.add_self_of_Y_eq (by rw [secp_negY, hy0, neg_zero])]
      exact represents_zero
    · have hyne : y ≠ 0 := by
        rw [← ey, Ne, cast_eq_zero_iff, Nat.mod_eq_of_lt (secpP_eq ▸ hy)]
        exact fun h => h0 (BitVec.eq_of_toNat_eq (by simpa using h))
      have h2y : y + y ≠ 0 := by
        rw [← two_mul]; exact mul_ne_zero secp_two_ne_zero hyne
      have hden : ((addP pt.y pt.y).toNat : ZMod secpP) ≠ 0 := by rwa [addP_cast, ey]
      have hneg : y ≠ secpCurve.negY x y := by
        rw [secp_negY]; intro h; exact h2y (by linear_combination h)
      rw [if_neg h0, if_neg ((cast_eq_zero_iff _).not.mp hden)]
      refine ⟨_, rfl, lineP_represents (fun h => hneg h.2) ex ey ex ?_⟩
      rw [divP_cast _ _ hden, mulP_cast, mulP_cast, addP_cast, ex, ey, slope_of_Y_ne rfl hneg, secp_negY]
      have h3 : ((3 : Word).toNat : ZMod secpP) = 3 := by simp
      rw [h3]
      congr 1
      · simp only [secpCurve]; ring
      · ring

end Sys2Proof.Machine
end

