-- ==== Sys2Proof/Laws/Memory.lean ====
section
/-! SUPPORT. BUF: reads after writes, the canonical form that every operation keeps, and what `MemRead` and `MemWrite` give. -/

namespace Sys2Proof.Machine

/-! ## One byte -/

@[simp] theorem readByte_nil (a : Nat) : readByte [] a = Config.bufFill := rfl

/-- A byte below every listed address reads as an unlisted one. -/
theorem readByte_of_lt {m : List Host.Cell} {a : Nat} (h : ∀ c ∈ m, a < c.1) : readByte m a = Config.bufFill := by
  induction m with
  | nil => rfl
  | cons c m ih =>
    have hc : c.1 ≠ a := by have := h c (by simp); omega
    simp only [readByte, hc, if_false]
    exact ih fun d hd => h d (by simp [hd])

theorem readByte_consByte_same {c : Host.Cell} {m : List Host.Cell} (h : ∀ d ∈ m, c.1 < d.1) :
    readByte (consByte c m) c.1 = c.2 := by
  unfold consByte
  split
  · rename_i hf; rw [hf]; exact readByte_of_lt h
  · simp [readByte]

theorem readByte_consByte_other {c : Host.Cell} {m : List Host.Cell} {a : Nat} (h : a ≠ c.1) :
    readByte (consByte c m) a = readByte m a := by
  unfold consByte
  split
  · rfl
  · simp [readByte, Ne.symm h]

/-- A read of the byte just written gives the value written. -/
theorem readByte_writeByte_same {m : List Host.Cell} {a : Nat} {b : Byte}
    (hm : m.Pairwise fun c d => c.1 < d.1) : readByte (writeByte m a b) a = b := by
  induction m with
  | nil => exact readByte_consByte_same (by simp)
  | cons c m ih =>
    obtain ⟨hc, hm⟩ := List.pairwise_cons.mp hm
    simp only [writeByte]
    split
    · rename_i hlt
      refine readByte_consByte_same (c := (a, b)) fun d hd => ?_
      rcases List.mem_cons.mp hd with rfl | hd
      · exact hlt
      · exact Nat.lt_trans hlt (hc d hd)
    · split
      · rename_i _ heq
        exact readByte_consByte_same (c := (a, b)) fun d hd => heq ▸ hc d hd
      · rename_i hne
        simp only [readByte, Ne.symm hne, if_false]
        exact ih hm

/-- A write leaves every other byte alone. -/
theorem readByte_writeByte_other {m : List Host.Cell} {a a' : Nat} {b : Byte} (h : a' ≠ a) :
    readByte (writeByte m a b) a' = readByte m a' := by
  induction m with
  | nil => exact readByte_consByte_other h
  | cons c m ih =>
    simp only [writeByte]
    split
    · exact readByte_consByte_other h
    · split
      · rename_i _ heq
        rw [readByte_consByte_other h]
        simp [readByte, ← heq, Ne.symm h]
      · simp only [readByte, ih]

/-! ## The canonical form -/

theorem Memory.wf_nil : Memory.wf [] := by simp [Memory.wf]

theorem consByte_wf {c : Host.Cell} {m : List Host.Cell} (hm : Memory.wf m) (hc : c.1 < Config.bufLen)
    (h : ∀ d ∈ m, c.1 < d.1) : Memory.wf (consByte c m) := by
  unfold consByte
  split
  · exact hm
  · rename_i hf
    refine ⟨List.pairwise_cons.mpr ⟨h, hm.1⟩, fun d hd => ?_⟩
    rcases List.mem_cons.mp hd with rfl | hd
    · exact ⟨hc, hf⟩
    · exact hm.2 d hd

theorem Memory.wf_tail {c : Host.Cell} {m : List Host.Cell} (h : Memory.wf (c :: m)) : Memory.wf m :=
  ⟨(List.pairwise_cons.mp h.1).2, fun d hd => h.2 d (by simp [hd])⟩

/-- Every address a write leaves listed was listed before, or is the one written. -/
theorem mem_writeByte {m : List Host.Cell} {a : Nat} {b : Byte} {d : Host.Cell} (h : d ∈ writeByte m a b) :
    d ∈ m ∨ d = (a, b) := by
  have cons_mem : ∀ {c d : Host.Cell} {m : List Host.Cell}, d ∈ consByte c m → d = c ∨ d ∈ m := by
    intro c d m h
    unfold consByte at h
    split at h
    · exact .inr h
    · simpa using h
  induction m with
  | nil => simpa using cons_mem h
  | cons c m ih =>
    simp only [writeByte] at h
    split at h
    · exact (cons_mem h).symm
    · split at h
      · exact (cons_mem h).elim .inr fun h => .inl (by simp [h])
      · rcases List.mem_cons.mp h with rfl | h
        · simp
        · exact (ih h).imp (fun h => by simp [h]) id

/-- A write keeps the canonical form. -/
theorem writeByte_wf {m : List Host.Cell} {a : Nat} {b : Byte} (hm : Memory.wf m) (ha : a < Config.bufLen) :
    Memory.wf (writeByte m a b) := by
  induction m with
  | nil => exact consByte_wf hm ha (by simp)
  | cons c m ih =>
    obtain ⟨hc, _⟩ := List.pairwise_cons.mp hm.1
    simp only [writeByte]
    split
    · rename_i hlt
      refine consByte_wf hm ha fun d hd => ?_
      rcases List.mem_cons.mp hd with rfl | hd
      · exact hlt
      · exact Nat.lt_trans hlt (hc d hd)
    · split
      · rename_i _ heq
        exact consByte_wf (Memory.wf_tail hm) ha fun d hd => heq ▸ hc d hd
      · have hlt : c.1 < a := by omega
        have hrest := ih (Memory.wf_tail hm)
        refine ⟨List.pairwise_cons.mpr ⟨fun d hd => ?_, hrest.1⟩, fun d hd => ?_⟩
        · rcases mem_writeByte hd with hd | rfl
          · exact hc d hd
          · exact hlt
        · rcases List.mem_cons.mp hd with rfl | hd
          · exact hm.2 d (by simp)
          · exact hrest.2 d hd

/-- Equal memories are equal data: two canonical memories that read the same everywhere are the same list. -/
theorem Memory.ext {m n : List Host.Cell} (hm : Memory.wf m) (hn : Memory.wf n)
    (h : ∀ a, readByte m a = readByte n a) : m = n := by
  have first : ∀ {c : Host.Cell} {m : List Host.Cell}, Memory.wf (c :: m) → readByte (c :: m) c.1 ≠ Config.bufFill :=
    fun h => by simpa [readByte] using (h.2 _ (by simp)).2
  have below : ∀ {c : Host.Cell} {m : List Host.Cell} {a : Nat}, Memory.wf (c :: m) → a < c.1 →
      readByte (c :: m) a = Config.bufFill := fun h ha => readByte_of_lt fun d hd => by
    rcases List.mem_cons.mp hd with rfl | hd
    · exact ha
    · exact Nat.lt_trans ha ((List.pairwise_cons.mp h.1).1 d hd)
  induction m generalizing n with
  | nil =>
    cases n with
    | nil => rfl
    | cons d n => exact absurd (h d.1).symm (first hn)
  | cons c m ih =>
    cases n with
    | nil => exact absurd (h c.1) (first hm)
    | cons d n =>
      have hk : c.1 = d.1 := by
        rcases Nat.lt_trichotomy c.1 d.1 with hlt | heq | hgt
        · exact absurd ((h c.1).trans (below hn hlt)) (first hm)
        · exact heq
        · exact absurd ((h d.1).symm.trans (below hm hgt)) (first hn)
      have hv : c.2 = d.2 := by
        have := h c.1
        simpa [readByte, hk] using this
      have hcd : c = d := Prod.ext hk hv
      refine congrArg₂ List.cons hcd (ih (Memory.wf_tail hm) (Memory.wf_tail hn) fun a => ?_)
      by_cases ha : c.1 = a
      · rw [readByte_of_lt (a := a) fun e he => ha ▸ (List.pairwise_cons.mp hm.1).1 e he,
          readByte_of_lt (a := a) fun e he => ha ▸ hk ▸ (List.pairwise_cons.mp hn.1).1 e he]
      · have := h a
        simpa [readByte, ha, hk ▸ ha] using this

/-! ## `MemWrite` and `MemRead` -/

/-- `MemWrite` inside BUF keeps the canonical form. -/
theorem memWrite_wf {m : List Host.Cell} {a n v : Nat} (hm : Memory.wf m) (h : a + n ≤ Config.bufLen) :
    Memory.wf (memWrite m a n v) := by
  induction n generalizing v with
  | zero => exact hm
  | succ n ih => exact writeByte_wf (ih (by omega)) (by omega)

theorem memWrite_sorted {m : List Host.Cell} {a n v : Nat} (hm : Memory.wf m) (h : a + n ≤ Config.bufLen) :
    (memWrite m a n v).Pairwise fun c d => c.1 < d.1 := (memWrite_wf hm h).1

/-- `MemWrite` leaves every byte outside its range alone. -/
theorem readByte_memWrite_other {m : List Host.Cell} {a n v a' : Nat} (h : a' < a ∨ a + n ≤ a') :
    readByte (memWrite m a n v) a' = readByte m a' := by
  induction n generalizing v with
  | zero => rfl
  | succ n ih =>
    rw [memWrite, readByte_writeByte_other (by omega)]
    exact ih (by omega)

/-- The byte `i` of the range that `MemWrite` writes: `(v div 256^(n-1-i)) mod 256` (R6). -/
theorem readByte_memWrite {m : List Host.Cell} {a n v i : Nat} (hm : Memory.wf m) (h : a + n ≤ Config.bufLen)
    (hi : i < n) : readByte (memWrite m a n v) (a + i) = BitVec.ofNat 8 (v / 256 ^ (n - 1 - i)) := by
  induction n generalizing v with
  | zero => omega
  | succ n ih =>
    rw [memWrite]
    by_cases hin : i = n
    · subst hin
      rw [readByte_writeByte_same (memWrite_sorted hm (by omega))]
      simp
    · rw [readByte_writeByte_other (by omega), ih (by omega) (by omega), Nat.div_div_eq_div_mul,
        ← Nat.pow_succ']
      congr 3
      omega

theorem memRead_lt (m : List Host.Cell) (a n : Nat) : memRead m a n < 256 ^ n := by
  induction n with
  | zero => simp [memRead]
  | succ n ih =>
    have := (readByte m (a + n)).isLt
    rw [memRead, Nat.pow_succ]
    omega

theorem memRead_congr {m m' : List Host.Cell} {a n : Nat} (h : ∀ i, i < n → readByte m (a + i) = readByte m' (a + i)) :
    memRead m a n = memRead m' a n := by
  induction n with
  | zero => rfl
  | succ n ih => rw [memRead, memRead, ih fun i hi => h i (by omega), h n (by omega)]

/-- Reading back what `MemWrite` wrote gives its low-order bytes. -/
theorem memRead_memWrite {m : List Host.Cell} {a n v : Nat} (hm : Memory.wf m) (h : a + n ≤ Config.bufLen) :
    memRead (memWrite m a n v) a n = v % 256 ^ n := by
  induction n generalizing v with
  | zero => simp [memRead, Nat.mod_one]
  | succ n ih =>
    have hlow : memRead (memWrite m a (n + 1) v) a n = memRead (memWrite m a n (v / 256)) a n :=
      memRead_congr fun i hi => by rw [memWrite, readByte_writeByte_other (by omega)]
    rw [memRead, hlow, ih (by omega), memWrite, readByte_writeByte_same (memWrite_sorted hm (by omega)),
      BitVec.toNat_ofNat]
    change v / 256 % 256 ^ n * 256 + v % 256 = _
    rw [show 256 ^ (n + 1) = 256 * 256 ^ n from Nat.pow_succ', Nat.mod_mul, Nat.mul_comm, Nat.add_comm]

/-- The byte `i` of BUF is the big-endian digit `i` of what `MemRead` reads. -/
theorem readByte_eq_memRead {m : List Host.Cell} {a n i : Nat} (hi : i < n) :
    readByte m (a + i) = BitVec.ofNat 8 (memRead m a n / 256 ^ (n - 1 - i)) := by
  induction n with
  | zero => omega
  | succ n ih =>
    have hb := (readByte m (a + n)).isLt
    rw [memRead]
    by_cases hin : i = n
    · subst hin
      apply BitVec.eq_of_toNat_eq
      simp only [BitVec.toNat_ofNat]
      norm_num
      omega
    · rw [ih (by omega)]
      congr 1
      have : n + 1 - 1 - i = (n - 1 - i) + 1 := by omega
      rw [this, Nat.pow_succ', ← Nat.div_div_eq_div_mul]
      congr 1
      omega

/-- Writing back what was read leaves BUF as it was (R78, second half). -/
theorem memWrite_memRead {m : List Host.Cell} {n : Nat} (hm : Memory.wf m) (h : n ≤ Config.bufLen) :
    memWrite m 0 n (memRead m 0 n) = m := by
  refine Memory.ext (memWrite_wf hm (by omega)) hm fun a => ?_
  by_cases ha : a < n
  · have h1 := readByte_memWrite (a := 0) (v := memRead m 0 n) hm (by omega) ha
    have h2 := readByte_eq_memRead (m := m) (a := 0) ha
    rw [Nat.zero_add] at h1 h2
    rw [h1, h2]
  · exact readByte_memWrite_other (by omega)

end Sys2Proof.Machine
end

