-- ==== Sys2Proof/Laws/PerInstr.lean ====
section
/-! SUPPORT. Per-instruction lemmas about the encoding: the word of a well-formed command is selected by the command's own row of the opcode
table, and the row builds the command back from it (30_encoding.md R52 to R54). -/

namespace Sys2Proof.Laws.EncodeSelects

/-- The place of a command's row in `rows`. -/
def rowIndex : Instr → Fin 15
  | .ldc _ _ => 0
  | .fromb _ _ => 1
  | .tob _ => 2
  | .bitseq => 3
  | .addm _ _ _ _ => 4
  | .subm _ _ _ _ => 5
  | .mulm _ _ _ _ => 6
  | .expm _ _ _ _ => 7
  | .divm _ _ _ _ => 8
  | .ldzp _ => 9
  | .iszp _ => 10
  | .padd _ _ _ => 11
  | .pdbl _ _ => 12
  | .smul _ _ => 13
  | .clrerr => 14

/-- The row of a command. -/
def rowOf (i : Instr) : Row := rows[rowIndex i]

theorem rowOf_mem (i : Instr) : rowOf i ∈ rows := List.getElem_mem _

/-- The command's row selects its word and builds the command from it. -/
def Statement (i : Instr) : Prop :=
  i.wellFormed = true → (rowOf i).selects (encode i) = true ∧ (rowOf i).build (encode i) = i

/-- A packed word under a packed mask. -/
theorem selects_packed {r : Row} {op : BitVec 8} {d s1 s2 m : BitVec 4} {imm : BitVec 8} (mop : BitVec 8)
    (md ms1 ms2 mm : BitVec 4) (mimm : BitVec 8) (hmask : r.mask = packFields mop md ms1 ms2 mm mimm)
    (hpat : r.pattern = packFields (op &&& mop) (d &&& md) (s1 &&& ms1) (s2 &&& ms2) (m &&& mm) (imm &&& mimm))
    (hc : ∀ k, r.immMax = some k → imm.toNat ≤ k) : r.selects (packFields op d s1 s2 m imm) = true := by
  rw [Row.selects, hmask, packFields_and, hpat, Bool.and_eq_true]
  refine ⟨by simp, ?_⟩
  rw [Row.constraint]
  cases h : r.immMax with
  | none => rfl
  | some k => simpa [immField_packFields] using hc k h

/-- A row without an extra constraint. -/
theorem noConstraint {r : Row} {imm : BitVec 8} (h : r.immMax = none) : ∀ k, r.immMax = some k → imm.toNat ≤ k := by
  simp [h]

theorem ldc (rd : RegId) (c : BitVec 8) : Statement (.ldc rd c) := by
  intro hwf
  have hc : c.toNat ≤ Config.maxConst := by simpa [Instr.wellFormed] using hwf
  refine ⟨selects_packed 0xFF 0x0 0xF 0xF 0xF 0xF8 rfl (by simp only [imm_and_mask c hc, field_and_zero]; rfl)
    (fun k hk => by
      obtain rfl : Config.maxConst = k := by simpa [rowOf, rowIndex, rows] using hk
      exact hc), ?_⟩
  simp [rowOf, rowIndex, rows, encode, dField_packFields, immField_packFields, regOf_regBits]

theorem fromb (rd : RegId) (len : BitVec 8) : Statement (.fromb rd len) := by
  intro _
  refine ⟨selects_packed 0xFF 0x0 0xF 0xF 0xF 0x00 rfl (by simp only [field_and_zero, immField_and_zero]; rfl) (noConstraint rfl), ?_⟩
  simp [rowOf, rowIndex, rows, encode, dField_packFields, immField_packFields, regOf_regBits]

theorem tob (rs : RegId) : Statement (.tob rs) := by
  intro _
  refine ⟨selects_packed 0xFF 0xF 0x0 0xF 0xF 0xFF rfl (by simp only [field_and_zero]; rfl) (noConstraint rfl), ?_⟩
  simp [rowOf, rowIndex, rows, encode, s1Field_packFields, regOf_regBits]

theorem bitseq : Statement (.bitseq) := by
  intro _
  refine ⟨selects_packed 0xFF 0xF 0xF 0xF 0xF 0xFF rfl rfl (noConstraint rfl), ?_⟩
  rfl

theorem addm (rd : RegId) (rs1 : RegId) (rs2 : RegId) (rm : RegId) : Statement (.addm rd rs1 rs2 rm) := by
  intro _
  refine ⟨selects_packed 0xFF 0x0 0x0 0x0 0x0 0xFF rfl (by simp only [field_and_zero]; rfl) (noConstraint rfl), ?_⟩
  simp [rowOf, rowIndex, rows, encode, dField_packFields, s1Field_packFields, s2Field_packFields, mField_packFields, regOf_regBits]

theorem subm (rd : RegId) (rs1 : RegId) (rs2 : RegId) (rm : RegId) : Statement (.subm rd rs1 rs2 rm) := by
  intro _
  refine ⟨selects_packed 0xFF 0x0 0x0 0x0 0x0 0xFF rfl (by simp only [field_and_zero]; rfl) (noConstraint rfl), ?_⟩
  simp [rowOf, rowIndex, rows, encode, dField_packFields, s1Field_packFields, s2Field_packFields, mField_packFields, regOf_regBits]

theorem mulm (rd : RegId) (rs1 : RegId) (rs2 : RegId) (rm : RegId) : Statement (.mulm rd rs1 rs2 rm) := by
  intro _
  refine ⟨selects_packed 0xFF 0x0 0x0 0x0 0x0 0xFF rfl (by simp only [field_and_zero]; rfl) (noConstraint rfl), ?_⟩
  simp [rowOf, rowIndex, rows, encode, dField_packFields, s1Field_packFields, s2Field_packFields, mField_packFields, regOf_regBits]

theorem expm (rd : RegId) (rs1 : RegId) (rs2 : RegId) (rm : RegId) : Statement (.expm rd rs1 rs2 rm) := by
  intro _
  refine ⟨selects_packed 0xFF 0x0 0x0 0x0 0x0 0xFF rfl (by simp only [field_and_zero]; rfl) (noConstraint rfl), ?_⟩
  simp [rowOf, rowIndex, rows, encode, dField_packFields, s1Field_packFields, s2Field_packFields, mField_packFields, regOf_regBits]

theorem divm (rd : RegId) (rs1 : RegId) (rs2 : RegId) (rm : RegId) : Statement (.divm rd rs1 rs2 rm) := by
  intro _
  refine ⟨selects_packed 0xFF 0x0 0x0 0x0 0x0 0xFF rfl (by simp only [field_and_zero]; rfl) (noConstraint rfl), ?_⟩
  simp [rowOf, rowIndex, rows, encode, dField_packFields, s1Field_packFields, s2Field_packFields, mField_packFields, regOf_regBits]

theorem ldzp (qd : PointId) : Statement (.ldzp qd) := by
  intro _
  refine ⟨selects_packed 0xFF 0x8 0xF 0xF 0xF 0xFF rfl (by simp only [pointBits_top qd]; rfl) (noConstraint rfl), ?_⟩
  simp [rowOf, rowIndex, rows, encode, dField_packFields, pointOf_pointBits]

theorem iszp (qs : PointId) : Statement (.iszp qs) := by
  intro _
  refine ⟨selects_packed 0xFF 0xF 0x8 0xF 0xF 0xFF rfl (by simp only [pointBits_top qs]; rfl) (noConstraint rfl), ?_⟩
  simp [rowOf, rowIndex, rows, encode, s1Field_packFields, pointOf_pointBits]

theorem padd (qd : PointId) (qs1 : PointId) (qs2 : PointId) : Statement (.padd qd qs1 qs2) := by
  intro _
  refine ⟨selects_packed 0xFF 0x8 0x8 0x8 0xF 0xFF rfl (by simp only [pointBits_top qd, pointBits_top qs1, pointBits_top qs2]; rfl) (noConstraint rfl), ?_⟩
  simp [rowOf, rowIndex, rows, encode, dField_packFields, s1Field_packFields, s2Field_packFields, pointOf_pointBits]

theorem pdbl (qd : PointId) (qs : PointId) : Statement (.pdbl qd qs) := by
  intro _
  refine ⟨selects_packed 0xFF 0x8 0x8 0xF 0xF 0xFF rfl (by simp only [pointBits_top qd, pointBits_top qs]; rfl) (noConstraint rfl), ?_⟩
  simp [rowOf, rowIndex, rows, encode, dField_packFields, s1Field_packFields, pointOf_pointBits]

theorem smul (qd : PointId) (rs : RegId) : Statement (.smul qd rs) := by
  intro _
  refine ⟨selects_packed 0xFF 0x8 0x0 0xF 0xF 0xFF rfl (by simp only [pointBits_top qd, field_and_zero]; rfl) (noConstraint rfl), ?_⟩
  simp [rowOf, rowIndex, rows, encode, dField_packFields, s1Field_packFields, pointOf_pointBits, regOf_regBits]

theorem clrerr : Statement (.clrerr) := by
  intro _
  refine ⟨selects_packed 0xFF 0xF 0xF 0xF 0xF 0xFF rfl rfl (noConstraint rfl), ?_⟩
  rfl

end Sys2Proof.Laws.EncodeSelects
end

