-- ==== Sys2Proof/Laws/State.lean ====
section
/-! SUPPORT. What each update of the state leaves in each field: one lemma per field per update, so that no later proof unfolds a record update. -/

namespace Sys2Proof.Machine

/-! ## `writeReg` -/

@[simp] theorem writeReg_regs (s : State) (i : RegId) (v : Word) : (writeReg s i v).regs = s.regs.set i v := rfl
@[simp] theorem writeReg_busy (s : State) (i : RegId) (v : Word) : (writeReg s i v).busy = s.busy := rfl
@[simp] theorem writeReg_err (s : State) (i : RegId) (v : Word) : (writeReg s i v).err = s.err := rfl
@[simp] theorem writeReg_z (s : State) (i : RegId) (v : Word) : (writeReg s i v).z = s.z := rfl
@[simp] theorem writeReg_errcode (s : State) (i : RegId) (v : Word) : (writeReg s i v).errcode = s.errcode := rfl
@[simp] theorem writeReg_errcmd (s : State) (i : RegId) (v : Word) : (writeReg s i v).errcmd = s.errcmd := rfl
@[simp] theorem writeReg_cmdlatch (s : State) (i : RegId) (v : Word) : (writeReg s i v).cmdlatch = s.cmdlatch := rfl
@[simp] theorem writeReg_buf (s : State) (i : RegId) (v : Word) : (writeReg s i v).buf = s.buf := rfl
@[simp] theorem writeReg_seq (s : State) (i : RegId) (v : Word) : (writeReg s i v).seq = s.seq := rfl
@[simp] theorem writeReg_moves (s : State) (i : RegId) (v : Word) : (writeReg s i v).moves = s.moves := rfl
@[simp] theorem writeReg_replies (s : State) (i : RegId) (v : Word) : (writeReg s i v).replies = s.replies := rfl

/-! ## `writePoint` -/

@[simp] theorem writePoint_regs (s : State) (k : PointId) (p : Point) : (writePoint s k p).regs = (s.regs.set (evenReg k) p.x).set (oddReg k) p.y := rfl
@[simp] theorem writePoint_busy (s : State) (k : PointId) (p : Point) : (writePoint s k p).busy = s.busy := rfl
@[simp] theorem writePoint_err (s : State) (k : PointId) (p : Point) : (writePoint s k p).err = s.err := rfl
@[simp] theorem writePoint_z (s : State) (k : PointId) (p : Point) : (writePoint s k p).z = s.z := rfl
@[simp] theorem writePoint_errcode (s : State) (k : PointId) (p : Point) : (writePoint s k p).errcode = s.errcode := rfl
@[simp] theorem writePoint_errcmd (s : State) (k : PointId) (p : Point) : (writePoint s k p).errcmd = s.errcmd := rfl
@[simp] theorem writePoint_cmdlatch (s : State) (k : PointId) (p : Point) : (writePoint s k p).cmdlatch = s.cmdlatch := rfl
@[simp] theorem writePoint_buf (s : State) (k : PointId) (p : Point) : (writePoint s k p).buf = s.buf := rfl
@[simp] theorem writePoint_seq (s : State) (k : PointId) (p : Point) : (writePoint s k p).seq = s.seq := rfl
@[simp] theorem writePoint_moves (s : State) (k : PointId) (p : Point) : (writePoint s k p).moves = s.moves := rfl
@[simp] theorem writePoint_replies (s : State) (k : PointId) (p : Point) : (writePoint s k p).replies = s.replies := rfl

/-! ## `writeZ` -/

@[simp] theorem writeZ_regs (s : State) (b : Bool) : (writeZ s b).regs = s.regs := rfl
@[simp] theorem writeZ_busy (s : State) (b : Bool) : (writeZ s b).busy = s.busy := rfl
@[simp] theorem writeZ_err (s : State) (b : Bool) : (writeZ s b).err = s.err := rfl
@[simp] theorem writeZ_z (s : State) (b : Bool) : (writeZ s b).z = b := rfl
@[simp] theorem writeZ_errcode (s : State) (b : Bool) : (writeZ s b).errcode = s.errcode := rfl
@[simp] theorem writeZ_errcmd (s : State) (b : Bool) : (writeZ s b).errcmd = s.errcmd := rfl
@[simp] theorem writeZ_cmdlatch (s : State) (b : Bool) : (writeZ s b).cmdlatch = s.cmdlatch := rfl
@[simp] theorem writeZ_buf (s : State) (b : Bool) : (writeZ s b).buf = s.buf := rfl
@[simp] theorem writeZ_seq (s : State) (b : Bool) : (writeZ s b).seq = s.seq := rfl
@[simp] theorem writeZ_moves (s : State) (b : Bool) : (writeZ s b).moves = s.moves := rfl
@[simp] theorem writeZ_replies (s : State) (b : Bool) : (writeZ s b).replies = s.replies := rfl

/-! ## `takeFault` -/

@[simp] theorem takeFault_regs (e : CmdError) (s : State) : (takeFault e s).regs = s.regs := rfl
@[simp] theorem takeFault_busy (e : CmdError) (s : State) : (takeFault e s).busy = false := rfl
@[simp] theorem takeFault_err (e : CmdError) (s : State) : (takeFault e s).err = true := rfl
@[simp] theorem takeFault_z (e : CmdError) (s : State) : (takeFault e s).z = s.z := rfl
@[simp] theorem takeFault_errcode (e : CmdError) (s : State) : (takeFault e s).errcode = e.code := rfl
@[simp] theorem takeFault_errcmd (e : CmdError) (s : State) : (takeFault e s).errcmd = s.cmdlatch := rfl
@[simp] theorem takeFault_cmdlatch (e : CmdError) (s : State) : (takeFault e s).cmdlatch = s.cmdlatch := rfl
@[simp] theorem takeFault_buf (e : CmdError) (s : State) : (takeFault e s).buf = s.buf := rfl
@[simp] theorem takeFault_seq (e : CmdError) (s : State) : (takeFault e s).seq = s.seq := rfl
@[simp] theorem takeFault_moves (e : CmdError) (s : State) : (takeFault e s).moves = s.moves := rfl
@[simp] theorem takeFault_replies (e : CmdError) (s : State) : (takeFault e s).replies = s.replies := rfl

/-! ## `clearFault` -/

@[simp] theorem clearFault_regs (s : State) : (clearFault s).regs = s.regs := rfl
@[simp] theorem clearFault_busy (s : State) : (clearFault s).busy = s.busy := rfl
@[simp] theorem clearFault_err (s : State) : (clearFault s).err = false := rfl
@[simp] theorem clearFault_z (s : State) : (clearFault s).z = s.z := rfl
@[simp] theorem clearFault_errcode (s : State) : (clearFault s).errcode = 0 := rfl
@[simp] theorem clearFault_errcmd (s : State) : (clearFault s).errcmd = 0 := rfl
@[simp] theorem clearFault_cmdlatch (s : State) : (clearFault s).cmdlatch = s.cmdlatch := rfl
@[simp] theorem clearFault_buf (s : State) : (clearFault s).buf = s.buf := rfl
@[simp] theorem clearFault_seq (s : State) : (clearFault s).seq = s.seq := rfl
@[simp] theorem clearFault_moves (s : State) : (clearFault s).moves = s.moves := rfl
@[simp] theorem clearFault_replies (s : State) : (clearFault s).replies = s.replies := rfl

/-! ## `reply` -/

@[simp] theorem reply_regs (s : State) (r : Reply) : (reply s r).regs = s.regs := rfl
@[simp] theorem reply_busy (s : State) (r : Reply) : (reply s r).busy = s.busy := rfl
@[simp] theorem reply_err (s : State) (r : Reply) : (reply s r).err = s.err := rfl
@[simp] theorem reply_z (s : State) (r : Reply) : (reply s r).z = s.z := rfl
@[simp] theorem reply_errcode (s : State) (r : Reply) : (reply s r).errcode = s.errcode := rfl
@[simp] theorem reply_errcmd (s : State) (r : Reply) : (reply s r).errcmd = s.errcmd := rfl
@[simp] theorem reply_cmdlatch (s : State) (r : Reply) : (reply s r).cmdlatch = s.cmdlatch := rfl
@[simp] theorem reply_buf (s : State) (r : Reply) : (reply s r).buf = s.buf := rfl
@[simp] theorem reply_seq (s : State) (r : Reply) : (reply s r).seq = s.seq := rfl
@[simp] theorem reply_moves (s : State) (r : Reply) : (reply s r).moves = s.moves := rfl
@[simp] theorem reply_replies (s : State) (r : Reply) : (reply s r).replies = r :: s.replies := rfl

/-! ## `hostReset` -/

@[simp] theorem hostReset_regs (s : State) : (hostReset s).regs = State.reset.regs := rfl
@[simp] theorem hostReset_busy (s : State) : (hostReset s).busy = State.reset.busy := rfl
@[simp] theorem hostReset_err (s : State) : (hostReset s).err = State.reset.err := rfl
@[simp] theorem hostReset_z (s : State) : (hostReset s).z = State.reset.z := rfl
@[simp] theorem hostReset_errcode (s : State) : (hostReset s).errcode = State.reset.errcode := rfl
@[simp] theorem hostReset_errcmd (s : State) : (hostReset s).errcmd = State.reset.errcmd := rfl
@[simp] theorem hostReset_cmdlatch (s : State) : (hostReset s).cmdlatch = State.reset.cmdlatch := rfl
@[simp] theorem hostReset_buf (s : State) : (hostReset s).buf = State.reset.buf := rfl
@[simp] theorem hostReset_seq (s : State) : (hostReset s).seq = State.reset.seq := rfl
@[simp] theorem hostReset_moves (s : State) : (hostReset s).moves = s.moves := rfl
@[simp] theorem hostReset_replies (s : State) : (hostReset s).replies = s.replies := rfl

/-! ## `State.reset` -/

@[simp] theorem reset_busy : State.reset.busy = false := rfl
@[simp] theorem reset_err : State.reset.err = false := rfl
@[simp] theorem reset_z : State.reset.z = false := rfl
@[simp] theorem reset_errcode : State.reset.errcode = 0 := rfl
@[simp] theorem reset_errcmd : State.reset.errcmd = 0 := rfl
@[simp] theorem reset_cmdlatch : State.reset.cmdlatch = 0 := rfl
@[simp] theorem reset_buf : State.reset.buf = [] := rfl
@[simp] theorem reset_moves : State.reset.moves = [] := rfl
@[simp] theorem reset_replies : State.reset.replies = [] := rfl

/-! ## Reading registers and point views after a write (R10, R11) -/

@[simp] theorem readReg_writeReg_same (s : State) (i : RegId) (v : Word) : readReg (writeReg s i v) i = v := by
  simp [readReg, writeReg]

theorem readReg_writeReg_other (s : State) {i j : RegId} (v : Word) (h : j ≠ i) :
    readReg (writeReg s i v) j = readReg s j := by
  have hv : i.val ≠ j.val := fun e => h (Fin.ext e.symm)
  simp [readReg, writeReg, Vector.getElem_set_ne _ _ hv]

theorem readReg_congr {s t : State} (h : s.regs = t.regs) (i : RegId) : readReg s i = readReg t i := by
  simp [readReg, h]

@[simp] theorem readReg_reset (i : RegId) : readReg State.reset i = 0 := by
  simp [readReg, State.reset]

theorem evenReg_ne_oddReg (k l : PointId) : evenReg k ≠ oddReg l := by
  simp [evenReg, oddReg, Fin.ext_iff]; omega

theorem evenReg_injective {k l : PointId} (h : evenReg k = evenReg l) : k = l := by
  simp [evenReg, Fin.ext_iff] at h; exact Fin.ext h

theorem oddReg_injective {k l : PointId} (h : oddReg k = oddReg l) : k = l := by
  simp [oddReg, Fin.ext_iff] at h; exact Fin.ext h

/-- A point view reads back what was written to it. -/
@[simp] theorem readPoint_writePoint_same (s : State) (k : PointId) (p : Point) :
    readPoint (writePoint s k p) k = p := by
  simp [readPoint, writePoint, readReg_writeReg_other _ _ (evenReg_ne_oddReg k k)]

/-- A write of a point view leaves every register but its two alone. -/
theorem readReg_writePoint_other (s : State) {k : PointId} (p : Point) {j : RegId} (he : j ≠ evenReg k)
    (ho : j ≠ oddReg k) : readReg (writePoint s k p) j = readReg s j := by
  simp [writePoint, readReg_writeReg_other _ _ ho, readReg_writeReg_other _ _ he]

/-! ## The model's own outcomes -/

@[simp] theorem done_eq (s : State) : done s = .next { s with busy := false } := rfl

@[simp] theorem raise_eq (e : CmdError) (s : State) : raise e s = .next (takeFault e s) := rfl

/-- A command that computes a value ends with that value written and BUSY clear. -/
theorem finish_ok {α : Type} (s : State) (v : α) (write : State → α → State) :
    finish s (.ok v) write = .next { write s v with busy := false } := rfl

/-- A command that computes an error ends with the fault taken. -/
theorem finish_error {α : Type} (s : State) (e : CmdError) (write : State → α → State) :
    finish s (.error e) write = .next (takeFault e s) := rfl

/-- Everything the end of a command can do. -/
theorem finish_cases {α : Type} {s t : State} {r : Except CmdError α} {write : State → α → State}
    (h : finish s r write = .next t) :
    (∃ v, r = .ok v ∧ t = { write s v with busy := false }) ∨ (∃ e, r = .error e ∧ t = takeFault e s) := by
  cases r with
  | ok v => exact .inl ⟨v, rfl, by simpa [finish_ok, eq_comm] using h⟩
  | error e => exact .inr ⟨e, rfl, by simpa [finish_error, eq_comm] using h⟩

end Sys2Proof.Machine
end

