-- ==== Sys2Proof/Laws/Shell.lean ====
section
/-! SUPPORT. The shell around the commands: everything a command, a host transaction and a step can do (20_memory.md R34 to R38; 60_exceptions.md
R134), said once. -/

namespace Sys2Proof.Machine

/-- What a command that does not fault may write: registers, or BUF through `MemWrite`, or SEQ, or Z, or the three fault fields by `CLRERR`. Nothing
writes CMDLATCH, `moves` or `replies`. -/
inductive Wrote (s : State) : Instr → State → Prop where
  /-- A register result. -/
  | reg {i : Instr} (rd : RegId) (v : Word) (h : destRegs i = [rd]) : Wrote s i (writeReg s rd v)
  /-- A point result. -/
  | point {i : Instr} (qd : PointId) (p : Point) (h : destRegs i = [evenReg qd, oddReg qd]) : Wrote s i (writePoint s qd p)
  /-- `TOB`. -/
  | buf (rs : RegId) : Wrote s (.tob rs) { s with buf := memWrite s.buf 0 Config.bufLen (readReg s rs).toNat }
  /-- `BITSEQ`. -/
  | seq : Wrote s .bitseq { s with seq := bitSeq (bufBytes s.buf) }
  /-- `ISZP`. -/
  | zflag (qs : PointId) : Wrote s (.iszp qs) (writeZ s (isZeroPoint (readPoint s qs)))
  /-- `CLRERR`. -/
  | clear : Wrote s .clrerr (clearFault s)

/-- Everything a command can do: it takes a fault, or its writes are made and BUSY falls. It always answers a next state. -/
theorem exec_cases (i : Instr) (s : State) :
    (∃ e, exec i s = .next (takeFault e s)) ∨ ∃ t, Wrote s i t ∧ exec i s = .next { t with busy := false } := by
  have fin {α : Type} {write : State → α → State} (r : Except CmdError α) (hw : ∀ v, Wrote s i (write s v)) :
      (∃ e, finish s r write = .next (takeFault e s)) ∨
        ∃ t, Wrote s i t ∧ finish s r write = .next { t with busy := false } := by
    cases r with
    | ok v => exact .inr ⟨_, hw v, rfl⟩
    | error e => exact .inl ⟨e, rfl⟩
  cases i with
  | ldc rd c =>
    simp only [exec, execLdc]
    cases romAt c with
    | none => exact .inl ⟨_, rfl⟩
    | some v => exact .inr ⟨_, .reg rd v rfl, rfl⟩
  | fromb rd len => exact fin (write := fun s v => writeReg s rd v) _ fun v => .reg rd v rfl
  | tob rs => exact .inr ⟨_, .buf rs, rfl⟩
  | bitseq => exact .inr ⟨_, .seq, rfl⟩
  | addm rd rs1 rs2 rm => exact fin (write := fun s v => writeReg s rd v) _ fun v => .reg rd v rfl
  | subm rd rs1 rs2 rm => exact fin (write := fun s v => writeReg s rd v) _ fun v => .reg rd v rfl
  | mulm rd rs1 rs2 rm => exact fin (write := fun s v => writeReg s rd v) _ fun v => .reg rd v rfl
  | expm rd rs1 rs2 rm => exact fin (write := fun s v => writeReg s rd v) _ fun v => .reg rd v rfl
  | divm rd rs1 rs2 rm => exact fin (write := fun s v => writeReg s rd v) _ fun v => .reg rd v rfl
  | ldzp qd => exact .inr ⟨_, .point qd _ rfl, rfl⟩
  | iszp qs => exact .inr ⟨_, .zflag qs, rfl⟩
  | padd qd qs1 qs2 => exact fin (write := fun s p => writePoint s qd p) _ fun p => .point qd p rfl
  | pdbl qd qs => exact fin (write := fun s p => writePoint s qd p) _ fun p => .point qd p rfl
  | smul qd rs => exact fin (write := fun s p => writePoint s qd p) _ fun p => .point qd p rfl
  | clrerr => exact .inr ⟨_, .clear, rfl⟩

/-- `Complete` runs the decoded command. -/
theorem complete_of_decode {s : State} {i : Instr} (h : decode s.cmdlatch = .ok i) : complete s = exec i s := by
  rw [complete, h]

/-- `Complete` of an illegal word takes `IllegalCommand`. -/
theorem complete_of_illegal {s : State} {r : IllegalWord} (h : decode s.cmdlatch = .error r) :
    complete s = .next (takeFault .illegalCommand s) := by
  rw [complete, h]; rfl

/-- A step with a move in the list takes that move. -/
theorem step_cons (s : State) (m : Move) (ms : List Move) (h : s.moves = m :: ms) :
    step s = takeMove m { s with moves := ms } := by rw [step, h]

/-- A step without a move is the core's turn. -/
theorem step_nil (s : State) (h : s.moves = []) : step s = coreTurn s := by rw [step, h]

/-- An accepted issue or none: everything `HostIssue` can do (R34). -/
theorem hostIssue_cases (s : State) (w : CmdWord) :
    hostIssue s w = s ∨
      (s.busy = false ∧ (s.err = true → w = clrerrWord) ∧ hostIssue s w = { s with cmdlatch := w, busy := true }) := by
  unfold hostIssue
  cases hb : s.busy
  · by_cases he : s.err ∧ w ≠ clrerrWord
    · simp [he]
    · exact .inr ⟨rfl, fun h => by simpa [h] using he, by simp [he]⟩
  · simp

/-- The part of a command's frame that is the same for all commands: what `Wrote` leaves alone. -/
theorem Wrote.frame {i : Instr} {s t : State} (h : Wrote s i t) :
    t.cmdlatch = s.cmdlatch ∧ t.moves = s.moves ∧ t.replies = s.replies ∧ ((∀ qs, i ≠ .iszp qs) → t.z = s.z) ∧
      (i ≠ .clrerr → t.err = s.err ∧ t.errcode = s.errcode ∧ t.errcmd = s.errcmd) ∧
      (i = .clrerr → t.err = false ∧ t.errcode = 0 ∧ t.errcmd = 0) := by
  cases h <;> simp_all [writeReg, writePoint, writeZ, clearFault] <;> (rintro rfl; simp [destRegs] at *)

/-- The ways a `Complete` ends (R38). -/
inductive Ended (s : State) : State → Prop where
  /-- The command takes a fault; `CLRERR` never does. -/
  | fault (i : Instr) (e : CmdError) (hd : decode s.cmdlatch = .ok i) (hi : i ≠ .clrerr) : Ended s (takeFault e s)
  /-- The command's writes are made. -/
  | wrote (i : Instr) (u : State) (hd : decode s.cmdlatch = .ok i) (hw : Wrote s i u) : Ended s { u with busy := false }
  /-- The word is illegal. -/
  | illegal (r : IllegalWord) (hd : decode s.cmdlatch = .error r) : Ended s (takeFault .illegalCommand s)

theorem complete_cases {s t : State} (h : complete s = .next t) : Ended s t := by
  cases hd : decode s.cmdlatch with
  | error r => rw [complete_of_illegal hd] at h; cases h; exact .illegal r hd
  | ok i =>
    rw [complete_of_decode hd] at h
    rcases exec_cases i s with ⟨e, he⟩ | ⟨u, hw, he⟩
    · rw [he] at h; cases h
      refine .fault i e hd ?_
      rintro rfl
      simp [exec, execClrerr, done, clearFault, takeFault] at he
    · rw [he] at h; cases h; exact .wrote i u hd hw

/-- Everything a step can do: a host transaction, a `Complete`, or nothing in an idle block. -/
theorem step_cases {s t : State} (h : step s = .next t) :
    (∃ x ms, s.moves = .host x :: ms ∧ t = hostTxn x { s with moves := ms }) ∨
    (s.busy = true ∧ (s.moves = [] ∨ s.moves.head? = some .complete) ∧ Ended { s with moves := s.moves.tail } t) ∨
    (s.busy = false ∧ (s.moves = [] ∨ s.moves.head? = some .complete) ∧ t = { s with moves := s.moves.tail }) := by
  have turn (ms : List Move) (h : coreTurn { s with moves := ms } = .next t) :
      (s.busy = true ∧ Ended { s with moves := ms } t) ∨ (s.busy = false ∧ t = { s with moves := ms }) := by
    unfold coreTurn at h
    split at h
    · rename_i hb; exact .inl ⟨hb, complete_cases h⟩
    · rename_i hb; cases h; exact .inr ⟨by simpa using hb, rfl⟩
  cases hm : s.moves with
  | nil =>
    rw [step_nil s hm] at h
    rcases turn [] (by rw [← hm]; exact h) with ⟨hb, he⟩ | ⟨hb, ht⟩
    · exact .inr (.inl ⟨hb, .inl rfl, he⟩)
    · exact .inr (.inr ⟨hb, .inl rfl, ht⟩)
  | cons m ms =>
    rw [step_cons s m ms hm] at h
    cases m with
    | host x => cases h; exact .inl ⟨x, ms, rfl, rfl⟩
    | complete =>
      rcases turn ms h with ⟨hb, he⟩ | ⟨hb, ht⟩
      · exact .inr (.inl ⟨hb, .inr rfl, he⟩)
      · exact .inr (.inr ⟨hb, .inr rfl, ht⟩)

end Sys2Proof.Machine
end

