-- ==== Sys2Proof/Tests/Slice0.lean ====
section
/-! SUPPORT. Tests and witnesses. Every expected value of a test is taken from 95_test_vectors.md or from an example of the cited rule, none from the
model. A witness shows states and operands that meet the hypotheses of an obligation. -/

namespace Sys2Proof.Tests

set_option synthInstance.maxSize 2000
set_option synthInstance.maxHeartbeats 200000
set_option Elab.async false

open Sys2Proof.Machine Sys2Proof.Machine.Expect

/-! ## Helpers -/

/-- The reset state with some registers written. -/
def regsAt (rs : List (RegId × Word)) : State := rs.foldl (fun s p => writeReg s p.1 p.2) State.reset

/-- The reset state with some bytes of BUF written. -/
def bufAt (bs : List (Nat × Byte)) : State := { State.reset with buf := bs.foldl (fun m p => writeByte m p.1 p.2) [] }

/-- The reset state with moves to come. -/
def movesAt (ms : List Move) : State := { State.reset with moves := ms }

/-- A register and the STATUS word after a command. -/
def regAfter (i : Instr) (s : State) (r : RegId) : Option (Word × CmdWord) :=
  match exec i s with
  | .next t => some (t.regs[r], statusWord t)
  | .fault _ => none
  | .refused _ => none

/-- A point view and the STATUS word after a command. -/
def pointAfter (i : Instr) (s : State) (k : PointId) : Option (Point × CmdWord) :=
  match exec i s with
  | .next t => some (readPoint t k, statusWord t)
  | .fault _ => none
  | .refused _ => none

/-- The state after a run. -/
def after (n : Nat) (s : State) : Option State :=
  match Sys2Proof.core.run n s with
  | .next t => some t
  | .fault _ => none
  | .refused _ => none

/-! ## WellFormed: an ill-formed term for each check -/

theorem test_wf_ldc_index_five : (Instr.ldc 15 5).wellFormed = true := by decide

theorem test_wf_ldc_index_six_refused : (Instr.ldc 0 6).wellFormed = false := by decide

theorem test_wf_ldc_index_255_refused : (Instr.ldc 0 255).wellFormed = false := by decide

theorem test_wf_invm_scratch_is_operand_refused : (Pseudo.invm 3 1 2 1).wellFormed = false := by decide

theorem test_wf_invm_scratch_is_modulus_refused : (Pseudo.invm 3 1 2 2).wellFormed = false := by decide

theorem test_wf_invm_scratch_is_destination : (Pseudo.invm 3 1 2 3).wellFormed = true := by decide

/-! ## Decode: words written out in binary, field by field (R51): op, d, s1, s2, m, imm -/

/-- `LDC r5, GX` and the highest index, `LDC r5, GY` (95, section 2.1). -/
theorem test_decode_ldc :
    decode 0b00000001_0101_0000_0000_0000_00000100 = .ok (.ldc 5 4) ∧ decode 0x01500005 = .ok (.ldc 5 5) := by decide

/-- `FROMB r15, 32`; `FROMB r0, 255` decodes (95, section 2.1). -/
theorem test_decode_fromb :
    decode 0b00000010_1111_0000_0000_0000_00100000 = .ok (.fromb 15 32) ∧ decode 0x020000FF = .ok (.fromb 0 255) := by decide

/-- `TOB r4`. -/
theorem test_decode_tob : decode 0b00000011_0000_0100_0000_0000_00000000 = .ok (.tob 4) := by decide

/-- `BITSEQ`. -/
theorem test_decode_bitseq : decode 0b00000100_0000_0000_0000_0000_00000000 = .ok .bitseq := by decide

/-- `ADDM r3, r0, r1, r2`. -/
theorem test_decode_addm : decode 0b00010000_0011_0000_0001_0010_00000000 = .ok (.addm 3 0 1 2) := by decide

/-- `SUBM r4, r1, r0, r2` (95, program P1). -/
theorem test_decode_subm : decode 0b00010001_0100_0001_0000_0010_00000000 = .ok (.subm 4 1 0 2) := by decide

/-- `MULM r5, r0, r1, r2` (95, program P1). -/
theorem test_decode_mulm : decode 0b00010010_0101_0000_0001_0010_00000000 = .ok (.mulm 5 0 1 2) := by decide

/-- `EXPM r6, r0, r1, r2` (95, program P1). -/
theorem test_decode_expm : decode 0b00010011_0110_0000_0001_0010_00000000 = .ok (.expm 6 0 1 2) := by decide

/-- `DIVM r15, r15, r15, r15` (95, section 2.1). -/
theorem test_decode_divm : decode 0b00010100_1111_1111_1111_1111_00000000 = .ok (.divm 15 15 15 15) := by decide

/-- `LDZP q7`. -/
theorem test_decode_ldzp : decode 0b00100000_0111_0000_0000_0000_00000000 = .ok (.ldzp 7) := by decide

/-- `ISZP q7`. -/
theorem test_decode_iszp : decode 0b00100001_0000_0111_0000_0000_00000000 = .ok (.iszp 7) := by decide

/-- `PADD q2, q0, q1`. -/
theorem test_decode_padd : decode 0b00100010_0010_0000_0001_0000_00000000 = .ok (.padd 2 0 1) := by decide

/-- `PDBL q7, q7`. -/
theorem test_decode_pdbl : decode 0b00100011_0111_0111_0000_0000_00000000 = .ok (.pdbl 7 7) := by decide

/-- `SMUL q3, r15`: `s1` is a full register field. -/
theorem test_decode_smul : decode 0b00100100_0011_1111_0000_0000_00000000 = .ok (.smul 3 15) := by decide

/-- `CLRERR`. -/
theorem test_decode_clrerr : decode 0b00111111_0000_0000_0000_0000_00000000 = .ok .clrerr := by decide

/-- The illegal words of 95, section 2.1, with the case of R56 each falls under. -/
theorem test_decode_illegal :
    ([0x00000000, 0xFFFFFFFF, 0x05000000, 0x15000000, 0x25000000].all fun w => decode w == .error .unknownOpcode) ∧
    ([0x10301201, 0x01510004, 0x03140000, 0x04000001, 0x22201100, 0x3F000001, 0x3F100000].all
      fun w => decode w == .error .unusedField) ∧
    ([0x20800000, 0x21080000, 0x22A01000, 0x22281000, 0x22209000, 0x23870000, 0x23780000, 0x24B80000].all
      fun w => decode w == .error .pointFieldTopBit) ∧
    ([0x01500006, 0x01500007, 0x01500008].all fun w => decode w == .error .constantIndex) := by decide +kernel

/-! ## One step of each command -/

/-- `LDC r2, P` (95, section 2.2). -/
theorem test_ldc_p :
    regAfter (.ldc 2 2) State.reset 2 = some (0xFFFFFFFFFFFFFFFFFFFFFFFFFFFFFFFFFFFFFFFFFFFFFFFFFFFFFFFEFFFFFC2F, 0) := by
  decide +kernel

/-- `FROMB r0, 2` of the bytes 01 02; the word's last byte is the least significant (R72). -/
theorem test_fromb_two_bytes : regAfter (.fromb 0 2) (bufAt [(0, 1), (1, 2)]) 0 = some (0x0102, 0) := by decide +kernel

/-- `FROMB r0, 33` faults, STATUS 0x22, and the register is unchanged (95, section 2.2). -/
theorem test_fromb_33_faults : regAfter (.fromb 0 33) (regsAt [(0, 9)]) 0 = some (9, 0x22) := by decide +kernel

/-- `TOB r4` of A5..05, then `BITSEQ`: SEQ is 1 exactly at 0, 2, 5, 7, 253, 255 (95, section 2.2). -/
theorem test_tob_bytes :
    (match exec (.tob 4) (regsAt [(4, 0xA500000000000000000000000000000000000000000000000000000000000005)]) with
      | .next t => some ((List.range 32).map (readByte t.buf), t.buf)
      | _ => none) = some (0xA5 :: List.replicate 30 0 ++ [0x05], [(0, 0xA5), (31, 0x05)]) := by decide +kernel

theorem test_bitseq_bits :
    (match exec .bitseq (bufAt [(0, 0xA5), (31, 0x05)]) with
      | .next t => some ((List.range 256).filter fun k => t.seq[k]?.getD false)
      | _ => none) = some [0, 2, 5, 7, 253, 255] := by decide +kernel

/-- Source scenario 1 (95, section 1.1). -/
theorem test_addm_scenario_1 : regAfter (.addm 3 0 1 2) (regsAt [(0, 0xBD), (1, 0x2B), (2, 0xB)]) 3 = some (1, 0) := by
  decide +kernel

/-- The carry case 2^255 + 2^255 modulo 2^255 + 1 (95, section 2.3), the destination being a source. -/
theorem test_addm_carry :
    regAfter (.addm 0 0 0 2) (regsAt [(0, BitVec.ofNat 256 (2 ^ 255)), (2, BitVec.ofNat 256 (2 ^ 255 + 1))]) 0 =
      some (BitVec.ofNat 256 (2 ^ 255 - 1), 0) := by decide +kernel

/-- 2 - 5 modulo 11 (95, section 2.4). -/
theorem test_subm_below_zero : regAfter (.subm 3 0 1 2) (regsAt [(0, 2), (1, 5), (2, 11)]) 3 = some (8, 0) := by decide +kernel

/-- A zero modulus faults, STATUS 0x32 (95, section 2.4). -/
theorem test_subm_zero_modulus : regAfter (.subm 3 0 1 2) (regsAt [(0, 1), (1, 2), (3, 7)]) 3 = some (7, 0x32) := by
  decide +kernel

/-- Source scenario 2 (95, section 1.1). -/
theorem test_mulm_scenario_2 :
    regAfter (.mulm 3 0 1 2) (regsAt [(0, 0xa167f055ff75c), (1, 0xacc457752e4ed), (2, 0xf9cd)]) 3 = some (0xe116, 0) := by
  decide +kernel

/-- MAX - 1 squared modulo MAX (95, section 2.5). -/
theorem test_mulm_full_modulus :
    regAfter (.mulm 3 0 0 2) (regsAt [(0, BitVec.ofNat 256 (2 ^ 256 - 2)), (2, BitVec.ofNat 256 (2 ^ 256 - 1))]) 3 =
      some (1, 0) := by decide +kernel

/-- Source scenario 3: the exponent is above the modulus and is not reduced (95, section 1.1). -/
theorem test_expm_scenario_3 :
    regAfter (.expm 3 0 1 2) (regsAt [(0, 0x1ce606), (1, 0xacc12484), (2, 0xf3fa3)]) 3 = some (0x2a0fd, 0) := by
  decide +kernel

/-- 5^0 modulo 1 is 0 (95, section 2.6, decision D17). -/
theorem test_expm_modulus_one : regAfter (.expm 3 0 1 2) (regsAt [(0, 5), (2, 1), (3, 9)]) 3 = some (0, 0) := by decide +kernel

/-- Source scenario 4 (95, section 1.1). -/
theorem test_divm_scenario_4 :
    regAfter (.divm 3 0 1 2) (regsAt [(0, 0x1ce606), (1, 0xacc12484), (2, 0xf3fa3)]) 3 = some (0x61f57, 0) := by
  decide +kernel

/-- A divisor that is a multiple of the modulus faults (95, section 2.7). -/
theorem test_divm_multiple_faults : regAfter (.divm 3 0 1 2) (regsAt [(0, 5), (1, 14), (2, 7), (3, 9)]) 3 = some (9, 0x32) := by
  decide +kernel

/-- `LDZP q3` (R102). -/
theorem test_ldzp : pointAfter (.ldzp 3) (regsAt [(6, 1), (7, 2)]) 3 = some (⟨0, 0⟩, 0) := by decide +kernel

/-- `ISZP`: (0, 0) sets Z; (P, P) clears it (95, section 2.8). -/
theorem test_iszp :
    pointAfter (.iszp 5) State.reset 5 = some (⟨0, 0⟩, 0x4) ∧
    pointAfter (.iszp 5) { regsAt [(10, constP), (11, constP)] with z := true } 5 = some (⟨constP, constP⟩, 0) := by decide +kernel

/-- G in `q0` and 2G in `q1`. -/
def gAnd2g : State := regsAt [(0, constGX), (1, constGY),
  (2, 0xC6047F9441ED7D6D3045406E95C07CD85C778E4B8CEF3CA7ABAC09B95C709EE5),
  (3, 0x1AE168FEA63DC339A3C58419466CEAEEF7F632653266D0E1236431A950CFE52A)]

/-- Source scenario 5: G + 2G = 3G (95, section 1.1). -/
theorem test_padd_scenario_5 :
    pointAfter (.padd 2 0 1) gAnd2g 2 = some (⟨0xF9308A019258C31049344F85F89D5229B531C845836F99B08601F113BCE036F9,
      0x388F7B0F632DE8140FE337E62A37F3566500A99934C2231B6CB9FD7584B8E672⟩, 0) := by
  have h0 : exec (.padd 2 0 1) gAnd2g =
      finish gAnd2g (addPoints (readPoint gAnd2g 0) (readPoint gAnd2g 1)) fun s p => writePoint s 2 p := rfl
  have h1 : readPoint gAnd2g 0 = ⟨constGX, constGY⟩ := by decide +kernel
  have h2 : readPoint gAnd2g 1 = ⟨0xC6047F9441ED7D6D3045406E95C07CD85C778E4B8CEF3CA7ABAC09B95C709EE5,
      0x1AE168FEA63DC339A3C58419466CEAEEF7F632653266D0E1236431A950CFE52A⟩ := by decide +kernel
  have h : chordSum ⟨constGX, constGY⟩ ⟨0xC6047F9441ED7D6D3045406E95C07CD85C778E4B8CEF3CA7ABAC09B95C709EE5,
        0x1AE168FEA63DC339A3C58419466CEAEEF7F632653266D0E1236431A950CFE52A⟩ =
      .ok ⟨0xF9308A019258C31049344F85F89D5229B531C845836F99B08601F113BCE036F9,
        0x388F7B0F632DE8140FE337E62A37F3566500A99934C2231B6CB9FD7584B8E672⟩ := by decide +kernel
  rw [pointAfter, h0, h1, h2, addPoints_eq, h]
  decide +kernel

/-- `PADD q1, q0, q0` faults with code 4, STATUS 0x42 (95, trace T3). -/
theorem test_padd_same_view_faults :
    pointAfter (.padd 1 0 0) (regsAt [(0, constGX), (1, constGY)]) 1 = some (⟨0, 0⟩, 0x42) := by
  simp only [pointAfter, exec, execPadd, addPoints_eq]; decide +kernel

/-- Source scenario 6, second step: the double of 2G is 4G, in place (95, section 1.1). -/
theorem test_pdbl_scenario_6 :
    pointAfter (.pdbl 1 1) gAnd2g 1 = some (⟨0xE493DBF1C10D80F3581E4904930B1404CC6C13900EE0758474FA94ABE8C4CD13,
      0x51ED993EA0D455B75642E2098EA51448D967AE33BFBDFE40CFE97BDC47739922⟩, 0) := by
  have h0 : exec (.pdbl 1 1) gAnd2g = finish gAnd2g (doublePoint (readPoint gAnd2g 1)) fun s p => writePoint s 1 p := rfl
  have h1 : readPoint gAnd2g 1 = ⟨0xC6047F9441ED7D6D3045406E95C07CD85C778E4B8CEF3CA7ABAC09B95C709EE5,
      0x1AE168FEA63DC339A3C58419466CEAEEF7F632653266D0E1236431A950CFE52A⟩ := by decide +kernel
  have h : tangentDouble ⟨0xC6047F9441ED7D6D3045406E95C07CD85C778E4B8CEF3CA7ABAC09B95C709EE5,
        0x1AE168FEA63DC339A3C58419466CEAEEF7F632653266D0E1236431A950CFE52A⟩ =
      .ok ⟨0xE493DBF1C10D80F3581E4904930B1404CC6C13900EE0758474FA94ABE8C4CD13,
        0x51ED993EA0D455B75642E2098EA51448D967AE33BFBDFE40CFE97BDC47739922⟩ := by decide +kernel
  rw [pointAfter, h0, h1, doublePoint_eq, h]
  decide +kernel

/-- (7, P) faults with code 3 (95, section 2.8). -/
theorem test_pdbl_y_is_p_faults : pointAfter (.pdbl 1 0) (regsAt [(0, 7), (1, constP)]) 0 = some (⟨7, constP⟩, 0x32) := by
  simp only [pointAfter, exec, execPdbl, doublePoint_eq]; decide +kernel

/-- The scalar 7, held in a register of the destination (95, section 2.9). -/
theorem test_smul_seven :
    pointAfter (.smul 3 6) (regsAt [(6, 7)]) 3 =
    some (⟨0x5CBDF0646E5DB4EAA398F365F2EA7A0E3D419B7E0330E39CE92BDDEDCAC4F9BC,
      0x6AEBCA40BA255960A3178D6D861A54DBA813D0B813FDE7B5A5082628087264DA⟩, 0) := by
  have h : prToPub 7 = .ok ⟨0x5CBDF0646E5DB4EAA398F365F2EA7A0E3D419B7E0330E39CE92BDDEDCAC4F9BC,
      0x6AEBCA40BA255960A3178D6D861A54DBA813D0B813FDE7B5A5082628087264DA⟩ := by rw [prToPub_eq]; decide +kernel
  have h0 : ∀ s : State, exec (.smul 3 6) s = finish s (prToPub (readReg s 6)) fun s p => writePoint s 3 p := fun _ => rfl
  rw [pointAfter, h0, show readReg (regsAt [(6, 7)]) 6 = 7 by decide +kernel, h]
  decide +kernel

/-- The scalar 0 gives the sentinel over what the view held (95, section 2.9). -/
theorem test_smul_zero : pointAfter (.smul 3 8) (regsAt [(6, 1), (7, 2)]) 3 = some (⟨0, 0⟩, 0) := by decide +kernel

/-- `CLRERR` after a fault: STATUS 0x46 becomes 0x04, ERRCMD becomes 0 (R120). -/
theorem test_clrerr :
    (match exec .clrerr { State.reset with err := true, z := true, errcode := 4, errcmd := 0x22100000 } with
      | .next t => some (statusWord t, t.errcmd)
      | _ => none) = some (0x4, 0) := by decide +kernel

/-! ## The traces of 95, section 2.10 -/

/-- T1: what the host reads while `SMUL q3, r8` is in flight: its write, its write of BUF and its second issue are dropped. -/
theorem test_trace_t1_busy :
    ((after 8 (movesAt [.host (.writeReg 8 5), .host (.issue 0x24380000), .host (.writeReg 8 7), .host (.writeBuf 0 0xFF),
      .host (.issue 0x20300000), .host (.readReg 6), .host (.readReg 8), .host .readStatus])).map
        fun t => (t.replies, t.cmdlatch, t.buf)) = some ([.status 0x1, .reg 5, .reg 0], 0x24380000, []) := by decide +kernel

/-- T2: reset in flight; no `Complete` follows. -/
theorem test_trace_t2_reset :
    ((after 4 (movesAt [.host (.writeReg 8 5), .host (.issue 0x24380000), .host .reset, .complete])).map
      fun t => (t.regs[8], t.regs[6], statusWord t, t.cmdlatch)) = some (0, 0, 0, 0) := by decide +kernel

/-- T3, first line: `PADD q1, q0, q0` of G issued and completed. -/
theorem test_trace_t3_fault :
    ((after 2 { regsAt [(0, constGX), (1, constGY)] with moves := [.host (.issue 0x22100000), .complete] }).map
      fun t => (statusWord t, t.errcmd, t.regs[2])) = some (0x42, 0x22100000, 0) := by decide +kernel

/-- T3, the other lines, from the state its first line leaves. -/
theorem test_trace_t3_gating :
    let s := { State.reset with
      err := true, errcode := 4, errcmd := 0x22100000, cmdlatch := 0x22100000,
      moves := [.host (.issue 0x23100000), .host (.issue 0x3F000001), .host (.issue 0), .host (.writeReg 15 0x77), .host .readStatus,
        .host (.issue 0x3F000000), .host .readStatus, .complete, .host .readStatus, .host .readErrCmd] }
    ((after 10 s).map fun t => (t.replies, t.regs[15])) =
      some ([.errCmd 0, .status 0, .status 0x43, .status 0x42], 0x77) := by decide +kernel

/-- An illegal word is accepted and completes with STATUS 0x52 and ERRCMD the word (95, section 2.1). -/
theorem test_illegal_word_completes :
    ((after 2 (movesAt [.host (.issue 0x05000000), .complete])).map fun t => (statusWord t, t.errcmd)) =
      some (0x52, 0x05000000) := by decide +kernel

/-- The pseudo-commands' expansions (R60) and R59's assembler examples. -/
theorem test_pseudo_expansions :
    (Pseudo.zero 4).expand = [.ldc 4 0] ∧ (Pseudo.one 4).expand = [.ldc 4 1] ∧ (Pseudo.ldg 3).expand = [.ldc 6 4, .ldc 7 5] ∧
    (Pseudo.invm 3 1 2 9).expand = [.ldc 9 1, .divm 3 9 1 2] := by decide

theorem test_asm_text :
    asmText (.addm 3 0 1 2) = "ADDM r3, r0, r1, r2" ∧ asmText (.padd 2 0 1) = "PADD q2, q0, q1" ∧
    asmText (.smul 3 8) = "SMUL q3, r8" ∧ asmText (.ldc 5 4) = "LDC r5, GX" ∧ asmText (.fromb 0 32) = "FROMB r0, 32" := by
  decide +kernel

/-! ## Witnesses: states and operands that meet an obligation's hypotheses, one theorem per obligation that has any -/

/-- A block with the word in flight. -/
def inFlight (w : CmdWord) (ms : List Move) : State := { State.reset with busy := true, cmdlatch := w, moves := ms }

/-- A block with an unacknowledged fault of code 3. -/
def faulty (ms : List Move) : State := { State.reset with err := true, errcode := 3, errcmd := 0x10000000, moves := ms }

theorem witness_DecodeOfEncode : (Instr.ldc 15 5).wellFormed = true := by decide

theorem witness_EncodeOfDecode : decode 0x01500005 = .ok (.ldc 5 5) := by decide

/-- A word a row selects, one at the boundary of the extra constraint, and one no row selects. -/
theorem witness_DecodeSearchesTheTable :
    (∃ r ∈ rows, (0x01500005 : CmdWord) &&& r.mask = r.pattern ∧ ∀ k, r.immMax = some k → imm 0x01500005 ≤ k) ∧
    (∀ r ∈ rows, (0x01500006 : CmdWord) &&& r.mask = r.pattern → ∃ k, r.immMax = some k ∧ k < imm 0x01500006) := by
  refine ⟨⟨_, List.mem_of_getElem (i := 0) (h := by decide) rfl, by decide, ?_⟩, ?_⟩
  · rintro k ⟨⟩; decide
  · intro r hr hs
    have h : ∀ r ∈ rows, (0x01500006 : CmdWord) &&& r.mask = r.pattern → r.immMax = some 5 := by decide
    exact ⟨5, h r hr hs, by decide⟩

/-- One word for each of the four cases of R56, and the boundary words that are legal. -/
theorem witness_IllegalWordsFault :
    unlistedOp 0x05000000 ∧ unusedNonzero 0x10301201 ∧ pointTopBit 0x20800000 ∧ badConstIndex 0x01000006 ∧
    illegal (inFlight 0x05000000 []).cmdlatch ∧ ¬illegal 0x01000005 ∧ ¬illegal 0x20700000 := by decide +kernel

/-- Also while busy, with a completion to follow, and with an issue to follow. -/
theorem witness_HostResetInAnyState :
    (inFlight 0x24380000 [.host .reset, .complete]).moves = .host .reset :: [.complete] ∧
    (movesAt [.host .reset, .host (.issue 0)]).moves = .host .reset :: [.host (.issue 0)] := by decide

/-- One state for each of the three cases, and the boundary of the second and third: the `CLRERR` word while ERR is 1. -/
theorem witness_IssueRule :
    ((inFlight 0 [.host (.issue 1)]).moves = .host (.issue 1) :: [] ∧ (inFlight 0 [.host (.issue 1)]).busy = true) ∧
    ((faulty [.host (.issue 1)]).busy = false ∧ (faulty [.host (.issue 1)]).err = true ∧ (1 : CmdWord) ≠ 0x3F000000) ∧
    ((movesAt [.host (.issue 1)]).busy = false ∧ (movesAt [.host (.issue 1)]).err = false) ∧
    ((faulty [.host (.issue 0x3F000000)]).moves = .host (.issue 0x3F000000) :: [] ∧
      (faulty [.host (.issue 0x3F000000)]).busy = false) := by decide

/-- Reads at the highest index of each space, and an issue followed by a read, a write and a second issue. -/
theorem witness_HostReadsReturnTheState :
    answer State.reset (.readReg 15) = some (.reg 0) ∧ answer State.reset (.readBuf 31) = some (.buf 0) ∧
    answer State.reset (.readSeq 255) = some (.seq false) ∧ answer State.reset .readErrCmd = some (.errCmd 0) ∧
    answer State.reset .readStatus = some (.status 0) ∧
    (movesAt [.host (.issue 0x24380000), .host (.readReg 6), .host (.writeReg 8 7), .host (.issue 0)]).moves =
      .host (.issue 0x24380000) :: ([HostTxn.readReg 6, .writeReg 8 7, .issue 0].map Move.host ++ []) ∧
    HostTxn.reset ∉ [HostTxn.readReg 6, .writeReg 8 7, .issue 0] := by decide +kernel

/-- Both cases of both writes; the last byte of BUF. -/
theorem witness_HostWritesRule :
    (faulty [.host (.writeReg 15 7)]).moves = .host (.writeReg 15 7) :: [] ∧ (faulty [.host (.writeReg 15 7)]).busy = false ∧
    (inFlight 0 [.host (.writeReg 0 7)]).busy = true ∧
    (movesAt [.host (.writeBuf 31 0xFF)]).moves = .host (.writeBuf 31 0xFF) :: [] ∧ (movesAt [.host (.writeBuf 31 0xFF)]).busy = false ∧
    Memory.wf (movesAt [.host (.writeBuf 31 0xFF)]).buf ∧ (inFlight 0 [.host (.writeBuf 0 1)]).busy = true := by decide

/-- A word that decodes and an illegal one, each with a `complete` move and with no moves. -/
theorem witness_StepRunsTheDecodedCommand :
    (inFlight 0x10301200 [.complete]).busy = true ∧ decode (inFlight 0x10301200 [.complete]).cmdlatch = .ok (.addm 3 0 1 2) ∧
    (inFlight 0x10301200 [.complete]).moves = .complete :: [] ∧ (inFlight 0x10301200 []).moves = [] ∧
    (inFlight 0x10301201 [.complete]).busy = true ∧ illegal (inFlight 0x10301201 [.complete]).cmdlatch ∧
    (inFlight 0x10301201 [.complete]).moves = .complete :: [] ∧ (inFlight 0x10301201 []).moves = [] := by decide +kernel

theorem witness_IssuedCommandRuns :
    (let s := movesAt [.host (.issue 0x10301200), .complete]
     s.busy = false ∧ s.err = false ∧ decode 0x10301200 = .ok (.addm 3 0 1 2) ∧
       s.moves = .host (.issue 0x10301200) :: .complete :: []) ∧
    (let s := movesAt [.host (.issue 0x01000006), .complete]
     s.busy = false ∧ s.err = false ∧ illegal 0x01000006 ∧ s.moves = .host (.issue 0x01000006) :: .complete :: []) := by
  decide +kernel

theorem witness_PlacedWordRunsNext : decodeTableWord 32 0x3F000000 = some .clrerr := by decide

theorem witness_IdleBlockHoldsItsState :
    (movesAt [.complete]).busy = false ∧ (movesAt [.complete]).moves = .complete :: [] ∧ State.reset.busy = false ∧
    State.reset.moves = [] := by decide

/-- A step that takes a fault, and the step that then acknowledges it. -/
theorem witness_InvKeptByStep :
    (∃ t, State.Inv (inFlight 0x10301200 [.complete]) ∧ step (inFlight 0x10301200 [.complete]) = .next t) ∧
    ∃ t, State.Inv { faulty [.complete] with busy := true, cmdlatch := clrerrWord } ∧
      step { faulty [.complete] with busy := true, cmdlatch := clrerrWord } = .next t :=
  ⟨⟨_, by decide, rfl⟩, ⟨_, by decide, rfl⟩⟩

/-- A command other than `ISZP` that completes, and a step that changes Z. -/
theorem witness_OnlyIszpWritesZ :
    (∃ t, (∀ qs, Instr.bitseq ≠ .iszp qs) ∧ exec .bitseq State.reset = .next t) ∧
    ∃ t, step (inFlight 0x21000000 []) = .next t ∧ t.z ≠ (inFlight 0x21000000 []).z :=
  ⟨⟨_, by simp, rfl⟩, ⟨_, rfl, by decide +kernel⟩⟩

/-- For each clause of the third part a step that meets its premises: an accepted issue, a completion, the three kinds of fault (an illegal word, a row of
R132, a failing walk), an acknowledgement, a reset, a change of Z; and a run from reset that ends with a fault. -/
theorem witness_StatusRegister :
    (∃ t, step (movesAt [.host (.issue 0)]) = .next t ∧ (movesAt [.host (.issue 0)]).busy = false ∧ t.busy = true) ∧
    (∃ t, step (inFlight 0 [.complete]) = .next t ∧ completing (inFlight 0 [.complete]) ∧ illegal (inFlight 0 [.complete]).cmdlatch ∧
      t.busy = false ∧ (inFlight 0 [.complete]).err = false ∧ t.err = true ∧ t.errcode ≠ (inFlight 0 [.complete]).errcode) ∧
    (∃ t, step (inFlight 0x10301200 []) = .next t ∧ completing (inFlight 0x10301200 []) ∧
      decode (inFlight 0x10301200 []).cmdlatch = .ok (.addm 3 0 1 2) ∧ isSmul (.addm 3 0 1 2) = false ∧
      faultCode (inFlight 0x10301200 []) (.addm 3 0 1 2) ≠ 0) ∧
    (∃ t, step { faulty [] with busy := true, cmdlatch := clrerrWord } = .next t ∧
      completing { faulty [] with busy := true, cmdlatch := clrerrWord } ∧ decode clrerrWord = .ok .clrerr ∧ t.err = false) ∧
    (∃ t, step (movesAt [.host .reset]) = .next t ∧ hostDoes (movesAt [.host .reset]) .reset) ∧
    (hostDoes (movesAt [.host (.issue 0)]) (.issue 0) ∧ (movesAt [.host (.issue 0)]).err = false) ∧
    (movesAt [.host .readStatus]).moves = .host .readStatus :: [] ∧
    (∃ t, step (inFlight 0x21000000 []) = .next t ∧ t.z ≠ (inFlight 0x21000000 []).z) ∧
    ∃ t, Sys2Proof.core.run 2 (movesAt [.host (.issue 0)]) = .next t ∧ t.errcode ≠ 0 :=
  ⟨⟨_, rfl, by decide, by decide⟩, ⟨_, rfl, by decide, by decide +kernel, by decide, by decide, by decide, by decide⟩,
    ⟨_, rfl, by decide, by decide, by decide, by decide⟩, ⟨_, rfl, by decide, by decide, by decide⟩, ⟨_, rfl, by decide⟩, by decide, rfl,
    ⟨_, rfl, by decide +kernel⟩, ⟨_, rfl, by decide⟩⟩

/-- The failing walk: `SMUL q3, r8` in flight with N in r8 (R109). -/
theorem witness_StatusRegister_smul :
    let s := { regsAt [(8, constN)] with busy := true, cmdlatch := 0x24380000 }
    completing s ∧ decode s.cmdlatch = .ok (.smul 3 8) ∧ prToPub s.regs[8] = .error .divisionUndefined ∧ ∃ t, step s = .next t := by
  have h8 : (regsAt [(8, constN)]).regs[8] = constN := by decide +kernel
  have hN : prToPub constN = .error .divisionUndefined := by rw [prToPub_eq]; decide +kernel
  have hd : decode 0x24380000 = .ok (.smul 3 8) := by decide
  refine ⟨by simp [completing, regsAt, State.reset, writeReg], hd, (congrArg prToPub h8).trans hN, ?_⟩
  rw [step_nil _ rfl, coreTurn, if_pos rfl, complete_of_decode hd]
  rcases exec_cases (.smul 3 8) { regsAt [(8, constN)] with busy := true, cmdlatch := 0x24380000 } with ⟨e, he⟩ | ⟨t, _, he⟩
  · exact ⟨_, he⟩
  · exact ⟨_, he⟩

theorem witness_ErrcmdRegister :
    (∃ t, State.Inv (inFlight 0x10301200 [.complete]) ∧ completing (inFlight 0x10301200 [.complete]) ∧
      step (inFlight 0x10301200 [.complete]) = .next t ∧ t.err = true) ∧
    (∃ t, completing { faulty [] with busy := true, cmdlatch := clrerrWord } ∧ decode clrerrWord = .ok .clrerr ∧
      step { faulty [] with busy := true, cmdlatch := clrerrWord } = .next t) ∧
    (∃ t, hostDoes (faulty [.host .reset]) .reset ∧ step (faulty [.host .reset]) = .next t) ∧
    (movesAt [.host .readErrCmd]).moves = .host .readErrCmd :: [] ∧
    ∃ t, Sys2Proof.core.run 4 (movesAt [.host (.issue 0), .complete, .host (.issue 0x3F000000), .complete]) = .next t ∧ t.err = false :=
  ⟨⟨_, by decide, by decide, rfl, by decide⟩, ⟨_, by decide, by decide, rfl⟩, ⟨_, by decide, rfl⟩, rfl, ⟨_, rfl, by decide⟩⟩

/-- A fault with a dropped issue, a register write, a BUF write or a read to follow. -/
theorem witness_FaultsArePrecise (m : Move) :
    State.Inv (inFlight 0 [.complete, m]) ∧ completing (inFlight 0 [.complete, m]) ∧
    ∃ t, step (inFlight 0 [.complete, m]) = .next t ∧ t.err = true ∧ t.moves = m :: [] :=
  ⟨by simp [State.Inv, inFlight, State.reset, errcodeLegal, Memory.wf], by simp [completing, inFlight],
    takeFault .illegalCommand { inFlight 0 [.complete, m] with moves := [m] }, by
      rw [step_cons _ .complete [m] rfl]
      exact complete_of_illegal (r := .unknownOpcode) (show decode 0 = _ by decide), rfl, rfl⟩

/-- A step that keeps the record, `CLRERR`'s completion with and without moves left, and a reset. -/
theorem witness_FaultRecordIsSticky :
    (∃ t, State.Inv (faulty [.host (.issue 1)]) ∧ (faulty [.host (.issue 1)]).err = true ∧ step (faulty [.host (.issue 1)]) = .next t ∧
      ¬(completing (faulty [.host (.issue 1)]) ∨ hostDoes (faulty [.host (.issue 1)]) .reset)) ∧
    (∀ ms ∈ [[], [Move.complete]], ∃ t, State.Inv { faulty ms with busy := true, cmdlatch := clrerrWord } ∧
      completing { faulty ms with busy := true, cmdlatch := clrerrWord } ∧
      step { faulty ms with busy := true, cmdlatch := clrerrWord } = .next t) ∧
    ∃ t, State.Inv (faulty [.host .reset]) ∧ hostDoes (faulty [.host .reset]) .reset ∧ step (faulty [.host .reset]) = .next t := by
  refine ⟨⟨_, by decide, by decide, rfl, by decide⟩, ?_, ⟨_, by decide, by decide, rfl⟩⟩
  intro ms hms
  simp only [List.mem_cons, List.not_mem_nil, or_false] at hms
  rcases hms with rfl | rfl
  · exact ⟨_, by decide, by decide, rfl⟩
  · exact ⟨_, by decide, by decide, rfl⟩

theorem witness_ReturnFromFault :
    let s := faulty [.host (.issue 0x3F000000), .complete]
    s.busy = false ∧ s.err = true ∧ s.moves = .host (.issue 0x3F000000) :: .complete :: [] := by decide

theorem witness_FaultTable :
    ∃ t, (Instr.divm 3 0 1 2).wellFormed = true ∧ isSmul (.divm 3 0 1 2) = false ∧ State.reset.err = false ∧
      State.reset.errcode = 0 ∧ exec (.divm 3 0 1 2) State.reset = .next t :=
  ⟨_, by decide, by decide, by decide, by decide, rfl⟩

theorem witness_CommandEnds : Instr.ldc 0 0 ≠ .clrerr := by decide

/-- A register that is no destination; a step that changes a register by a command, by a host write, and by reset. -/
theorem witness_RegisterWriters :
    (∃ t, exec (.ldzp 3) State.reset = .next t ∧ (5 : RegId) ∉ destRegs (.ldzp 3)) ∧
    (∃ t, step (inFlight 0x01200002 []) = .next t ∧ t.regs[2] ≠ (inFlight 0x01200002 []).regs[2]) ∧
    (∃ t, step (movesAt [.host (.writeReg 2 7)]) = .next t ∧ t.regs[2] ≠ (movesAt [.host (.writeReg 2 7)]).regs[2]) ∧
    ∃ t, step { regsAt [(2, 7)] with moves := [.host .reset] } = .next t ∧ t.regs[2] ≠ (regsAt [(2, 7)]).regs[2] :=
  ⟨⟨_, rfl, by decide⟩, ⟨_, rfl, by decide +kernel⟩, ⟨_, rfl, by decide +kernel⟩, ⟨_, rfl, by decide +kernel⟩⟩

/-- A command that is not `TOB`; an address at the boundary; steps that change BUF and SEQ. -/
theorem witness_MemoryWriters :
    (∃ t, exec .bitseq State.reset = .next t ∧ ∀ rs, Instr.bitseq ≠ .tob rs) ∧
    (∃ t, exec (.tob 0) State.reset = .next t ∧ 32 ≤ 32 ∧ Instr.tob 0 ≠ .bitseq) ∧
    (∃ t, step (movesAt [.host (.writeBuf 31 7)]) = .next t ∧ readByte t.buf 31 ≠ readByte (movesAt [.host (.writeBuf 31 7)]).buf 31) ∧
    ∃ t, step { bufAt [(0, 0x80)] with busy := true, cmdlatch := 0x04000000 } = .next t ∧ t.seq ≠ (bufAt [(0, 0x80)]).seq :=
  ⟨⟨_, rfl, by simp⟩, ⟨_, rfl, by decide, by decide⟩, ⟨_, rfl, by decide +kernel⟩, ⟨_, rfl, by decide +kernel⟩⟩

theorem witness_StatusFrame :
    ∃ t, exec (.ldzp 3) State.reset = .next t ∧ (∀ qs, Instr.ldzp 3 ≠ .iszp qs) ∧ Instr.ldzp 3 ≠ .clrerr :=
  ⟨_, rfl, by simp, by decide⟩

/-- Two states that differ outside the sources of `ADDM r3, r0, r1, r2`. -/
theorem witness_SourcesDetermineTheResult :
    ∃ t t', (∀ r ∈ srcRegs (.addm 3 0 1 2), (regsAt [(2, 7), (9, 1)]).regs[r] = (regsAt [(2, 7), (9, 4)]).regs[r]) ∧
      readsBuf (.addm 3 0 1 2) = false ∧ readsBuf (.fromb 0 1) = true ∧ Memory.wf (regsAt [(2, 7)]).buf ∧
      (regsAt [(2, 7), (9, 1)]).err = false ∧ (regsAt [(2, 7), (9, 1)]).errcode = 0 ∧
      exec (.addm 3 0 1 2) (regsAt [(2, 7), (9, 1)]) = .next t ∧ exec (.addm 3 0 1 2) (regsAt [(2, 7), (9, 4)]) = .next t' ∧
      t.err = false :=
  ⟨_, _, by decide +kernel, rfl, rfl, by decide, by decide, by decide, rfl, rfl, by decide +kernel⟩

theorem witness_PointViewsAreAliases :
    (movesAt [.host (.writeReg 14 7)]).busy = false ∧
    (movesAt [.host (.writeReg 14 7)]).moves = .host (.writeReg ⟨2 * (7 : PointId).val, by decide⟩ 7) :: [] ∧
    (movesAt [.host (.writeReg 15 7)]).moves = .host (.writeReg ⟨2 * (7 : PointId).val + 1, by decide⟩ 7) :: [] := by decide

theorem witness_LdcLoadsAConstant :
    (5 : BitVec 8).toNat ≤ 5 ∧ op 0x01000006 = 0x01 ∧ illegal 0x01000006 ∧ illegal 0x01010000 := by decide +kernel

theorem witness_LdcValueAboveFiveFaults : 5 < (6 : BitVec 8).toNat ∧ 5 < (255 : BitVec 8).toNat := by decide

/-- The lengths on both sides of the boundary. -/
theorem witness_FrombReadsTheBuffer :
    (0 : BitVec 8).toNat ≤ 32 ∧ (32 : BitVec 8).toNat ≤ 32 ∧ 32 < (33 : BitVec 8).toNat ∧ op 0x02000100 = 0x02 ∧ illegal 0x02000100 := by
  decide +kernel

theorem witness_TobWritesTheBuffer : Memory.wf State.reset.buf ∧ 31 < 32 ∧ 32 ≤ 32 ∧ op 0x03140000 = 0x03 ∧ illegal 0x03140000 := by
  decide +kernel

theorem witness_BitseqExpandsTheBuffer : op 0x04000001 = 0x04 ∧ illegal 0x04000001 := by decide +kernel

theorem witness_ByteRoundTrips : Memory.wf (bufAt [(0, 0xA5), (31, 0x05)]).buf := by decide +kernel

/-- Both modulus clauses of `ADDM`, `SUBM`, `MULM` and `EXPM`, at the smallest modulus, and an illegal word of each opcode. -/
theorem witness_AddmAddsModulo : (regsAt [(2, 1)]).regs[2] ≠ 0 ∧ (regsAt []).regs[2] = 0 ∧ op 0x10301201 = 0x10 ∧ illegal 0x10301201 := by
  decide +kernel

theorem witness_SubmSubtractsModulo : (regsAt [(2, 1)]).regs[2] ≠ 0 ∧ (regsAt []).regs[2] = 0 ∧ op 0x11301201 = 0x11 ∧ illegal 0x11301201 := by
  decide +kernel

theorem witness_MulmMultipliesModulo : (regsAt [(2, 1)]).regs[2] ≠ 0 ∧ (regsAt []).regs[2] = 0 ∧ op 0x12301201 = 0x12 ∧ illegal 0x12301201 := by
  decide +kernel

theorem witness_ExpmExponentiates : (regsAt [(2, 1)]).regs[2] ≠ 0 ∧ (regsAt []).regs[2] = 0 ∧ op 0x13301201 = 0x13 ∧ illegal 0x13301201 := by
  decide +kernel

/-- The smallest accepted modulus 3; the refused modulus 2; a divisor that is a multiple of the modulus. -/
theorem witness_DivmDividesByFermat :
    (2 < (regsAt [(1, 4), (2, 3)]).regs[2].toNat ∧ (regsAt [(1, 4), (2, 3)]).regs[1].toNat % (regsAt [(1, 4), (2, 3)]).regs[2].toNat ≠ 0) ∧
    (regsAt [(1, 1), (2, 2)]).regs[2].toNat ≤ 2 ∧
    (regsAt [(1, 14), (2, 7)]).regs[1].toNat % (regsAt [(1, 14), (2, 7)]).regs[2].toNat = 0 ∧ op 0x14301201 = 0x14 ∧ illegal 0x14301201 := by
  decide +kernel

theorem witness_ModularLaws :
    (∃ c, (7 : Word) ≠ 0 ∧ addMod 5 9 7 = .ok c) ∧ 1 < (2 : Word).toNat ∧ Nat.Prime (3 : Word).toNat ∧ 2 < (3 : Word).toNat ∧
    (4 : Word).toNat % (3 : Word).toNat ≠ 0 :=
  ⟨⟨0, by decide, by decide +kernel⟩, by decide, by show Nat.Prime 3; norm_num, by decide, by decide⟩

theorem witness_InvmInverts :
    let s := { regsAt [(1, 5), (2, 3)] with moves := (Pseudo.invm 3 1 2 9).moves }
    (Pseudo.invm 3 1 2 9).wellFormed = true ∧ s.busy = false ∧ s.err = false ∧ s.moves = (Pseudo.invm 3 1 2 9).moves ∧
    Nat.Prime s.regs[2].toNat ∧ 2 < s.regs[2].toNat ∧ s.regs[1].toNat % s.regs[2].toNat ≠ 0 := by
  refine ⟨by decide, rfl, rfl, rfl, ?_, by decide +kernel, by decide +kernel⟩
  show Nat.Prime 3
  norm_num

theorem witness_WalkCountsItsOperations : (1 : Word) ≠ 0 := by decide

theorem witness_LdzpLoadsTheSentinel : op 0x20800000 = 0x20 ∧ illegal 0x20800000 := by decide +kernel

/-- Both clauses; (0, 1) and (P, P) are not the sentinel. -/
theorem witness_IszpTestsTheSentinel :
    isSentinel State.reset 0 ∧ ¬isSentinel (regsAt [(1, 1)]) 0 ∧ ¬isSentinel (regsAt [(0, constP), (1, constP)]) 0 ∧
    op 0x21080000 = 0x21 ∧ illegal 0x21080000 := by decide +kernel

/-- One state for each of the five cases, with the raw boundary cases of 95, section 2.8: (5, 0), (P, P), 1 + P. -/
theorem witness_PaddAddsByTheChord :
    (isSentinel State.reset 0) ∧
    (let s := regsAt [(0, 5)]; ¬isSentinel s 0 ∧ isSentinel s 1) ∧
    (let s := regsAt [(0, 5), (2, 6)]; ¬isSentinel s 0 ∧ ¬isSentinel s 1 ∧ yOf s 0 = yOf s 1) ∧
    (let s := regsAt [(0, 1), (1, 2), (2, 1 + constP), (3, 5)];
      ¬isSentinel s 0 ∧ ¬isSentinel s 1 ∧ yOf s 0 ≠ yOf s 1 ∧ (xOf s 0).toNat % secpP = (xOf s 1).toNat % secpP) ∧
    (let s := regsAt [(0, 1), (1, 5), (2, 3), (3, 5 + constP)];
      ¬isSentinel s 0 ∧ ¬isSentinel s 1 ∧ yOf s 0 ≠ yOf s 1 ∧ (xOf s 0).toNat % secpP ≠ (xOf s 1).toNat % secpP) ∧
    op 0x22201100 = 0x22 ∧ illegal 0x22201100 := by decide +kernel

/-- y = 0, y = P, and the values beside P. -/
theorem witness_PdblDoublesByTheTangent :
    yOf (regsAt [(0, 5)]) 0 = 0 ∧ yOf (regsAt [(1, constP)]) 0 = constP ∧
    (yOf (regsAt [(1, constP + 1)]) 0 ≠ 0 ∧ yOf (regsAt [(1, constP + 1)]) 0 ≠ constP) ∧
    op 0x23870000 = 0x23 ∧ illegal 0x23870000 := by decide +kernel

theorem witness_SmulWalksTheScalar : op 0x24B80000 = 0x24 ∧ illegal 0x24B80000 := by decide +kernel

theorem witness_SmulSmallScalars :
    (regsAt []).regs[8] = 0 ∧ (regsAt [(8, 1)]).regs[8] = 1 ∧ (regsAt [(8, 2)]).regs[8] = 2 ∧ (regsAt [(8, 3)]).regs[8] = 3 ∧
    (regsAt [(8, 4)]).regs[8] = 4 := by decide +kernel

/-- The six scalars, and their neighbours that do not fault. -/
theorem witness_SmulFaultsForExactlySixScalars :
    ([constN].all fun k => faultCode (regsAt [(8, k)]) (.smul 3 8) == 3) ∧
    ([constN + 2, 0xAC9C52B33FA3CF1F5AD9E3FD77ED9BA4A880B9FC8EC739C2E0CFC810B51283CF,
      0x5363AD4CC05C30E0A5261C028812645A122E22EA20816678DF02967C1B23BD73,
      0xA6C75A9980B861C14A4C38051024C8B4245C45D44102CCF1BE052CF836477AE6,
      0xA6C75A9980B861C14A4C38051024C8B4245C45D44102CCF1BE052CF836477AE7].all
        fun k => faultCode (regsAt [(8, k)]) (.smul 3 8) == 4) ∧
    ([0, 1, constN - 1, constN + 1, constN + 3].all fun k => faultCode (regsAt [(8, k)]) (.smul 3 8) == 0) := by decide +kernel

/-- The field's characteristic is prime, so that the group of the curve exists. -/
theorem witness_secpP_prime : Nat.Prime secpP := secpP_prime

/-- The generator stands for a point of the curve. -/
theorem generator_represents [Fact (Nat.Prime secpP)] : ∃ g : secpCurve.Point, Represents ⟨constGX, constGY⟩ g :=
  have ⟨_, h⟩ := represents_of_equation (pt := ⟨constGX, constGY⟩) (by decide +kernel) (by decide +kernel) (by decide +kernel)
  ⟨_, h⟩

theorem witness_SmulIsScalarMultiplication :
    haveI : Fact (Nat.Prime secpP) := ⟨secpP_prime⟩
    ∃ g : secpCurve.Point, Represents ⟨constGX, constGY⟩ g ∧ faultCode (regsAt [(8, 5)]) (.smul 3 8) = 0 := by
  have : Fact (Nat.Prime secpP) := ⟨secpP_prime⟩
  obtain ⟨g, hg⟩ := generator_represents
  exact ⟨g, hg, by decide +kernel⟩

/-- A shortcut: the sentinel and G. -/
theorem witness_PaddIsGroupAddition :
    haveI : Fact (Nat.Prime secpP) := ⟨secpP_prime⟩
    ∃ g h : secpCurve.Point, Represents ⟨xOf (regsAt [(2, constGX), (3, constGY)]) 0, yOf (regsAt [(2, constGX), (3, constGY)]) 0⟩ g ∧
      Represents ⟨xOf (regsAt [(2, constGX), (3, constGY)]) 1, yOf (regsAt [(2, constGX), (3, constGY)]) 1⟩ h ∧ g = 0 := by
  have : Fact (Nat.Prime secpP) := ⟨secpP_prime⟩
  obtain ⟨g, hg⟩ := generator_represents
  have h0 : (⟨xOf (regsAt [(2, constGX), (3, constGY)]) 0, yOf (regsAt [(2, constGX), (3, constGY)]) 0⟩ : Point) = sentinel := by
    decide +kernel
  have h1 : (⟨xOf (regsAt [(2, constGX), (3, constGY)]) 1, yOf (regsAt [(2, constGX), (3, constGY)]) 1⟩ : Point) =
      ⟨constGX, constGY⟩ := by decide +kernel
  exact ⟨0, g, by rw [h0]; exact represents_zero, by rw [h1]; exact hg, rfl⟩

/-- The chord: G and 2G, whose y coordinates differ and whose sum is not the identity. -/
theorem witness_PaddIsGroupAddition_chord :
    haveI : Fact (Nat.Prime secpP) := ⟨secpP_prime⟩
    ∃ g h : secpCurve.Point, Represents ⟨xOf gAnd2g 0, yOf gAnd2g 0⟩ g ∧ Represents ⟨xOf gAnd2g 1, yOf gAnd2g 1⟩ h ∧
      g ≠ 0 ∧ h ≠ 0 ∧ yOf gAnd2g 0 ≠ yOf gAnd2g 1 ∧ g + h ≠ 0 := by
  have : Fact (Nat.Prime secpP) := ⟨secpP_prime⟩
  obtain ⟨n1, h1⟩ := represents_of_equation (pt := ⟨xOf gAnd2g 0, yOf gAnd2g 0⟩) (by decide +kernel) (by decide +kernel) (by decide +kernel)
  obtain ⟨n2, h2⟩ := represents_of_equation (pt := ⟨xOf gAnd2g 1, yOf gAnd2g 1⟩) (by decide +kernel) (by decide +kernel) (by decide +kernel)
  have hx : ((xOf gAnd2g 0).toNat : ZMod secpP) ≠ ((xOf gAnd2g 1).toNat : ZMod secpP) :=
    (cast_inj (by decide +kernel) (by decide +kernel)).not.mpr (by decide +kernel)
  refine ⟨_, _, h1, h2, WeierstrassCurve.Affine.Point.some_ne_zero n1, WeierstrassCurve.Affine.Point.some_ne_zero n2, by decide +kernel, ?_⟩
  rw [WeierstrassCurve.Affine.Point.add_some fun h => hx h.1]
  exact WeierstrassCurve.Affine.Point.some_ne_zero _

/-- G in `q0` and its negation, the reduced `(GX, P - GY)`, in `q1`. -/
def gAndNegG : State := regsAt [(0, constGX), (1, constGY), (2, constGX), (3, constP - constGY)]

/-- A point and its negation, neither the identity. -/
theorem witness_PaddIsGroupAddition_negation :
    haveI : Fact (Nat.Prime secpP) := ⟨secpP_prime⟩
    ∃ g h : secpCurve.Point, Represents ⟨xOf gAndNegG 0, yOf gAndNegG 0⟩ g ∧ Represents ⟨xOf gAndNegG 1, yOf gAndNegG 1⟩ h ∧
      g ≠ 0 ∧ h ≠ 0 ∧ g + h = 0 := by
  have : Fact (Nat.Prime secpP) := ⟨secpP_prime⟩
  obtain ⟨n1, h1⟩ := represents_of_equation (pt := ⟨xOf gAndNegG 0, yOf gAndNegG 0⟩) (by decide +kernel) (by decide +kernel) (by decide +kernel)
  obtain ⟨n2, h2⟩ := represents_of_equation (pt := ⟨xOf gAndNegG 1, yOf gAndNegG 1⟩) (by decide +kernel) (by decide +kernel) (by decide +kernel)
  have hx : xOf gAndNegG 0 = xOf gAndNegG 1 := by decide +kernel
  have hy : (((yOf gAndNegG 0).toNat + (yOf gAndNegG 1).toNat : Nat) : ZMod secpP) = 0 := by
    rw [cast_eq_zero_iff]; decide +kernel
  refine ⟨_, _, h1, h2, WeierstrassCurve.Affine.Point.some_ne_zero n1, WeierstrassCurve.Affine.Point.some_ne_zero n2, ?_⟩
  refine WeierstrassCurve.Affine.Point.add_of_Y_eq (congrArg (fun v : Word => (v.toNat : ZMod secpP)) hx) ?_
  rw [secp_negY]
  push_cast at hy
  exact eq_neg_of_add_eq_zero_left hy

/-- The sentinel, and G, which is not. -/
theorem witness_PdblIsGroupDoubling :
    haveI : Fact (Nat.Prime secpP) := ⟨secpP_prime⟩
    (∃ g : secpCurve.Point, Represents ⟨xOf State.reset 0, yOf State.reset 0⟩ g) ∧
    ∃ g : secpCurve.Point, Represents ⟨xOf gAnd2g 0, yOf gAnd2g 0⟩ g ∧ g ≠ 0 := by
  have : Fact (Nat.Prime secpP) := ⟨secpP_prime⟩
  obtain ⟨n, h⟩ := represents_of_equation (pt := ⟨xOf gAnd2g 0, yOf gAnd2g 0⟩) (by decide +kernel) (by decide +kernel) (by decide +kernel)
  have h0 : (⟨xOf State.reset 0, yOf State.reset 0⟩ : Point) = sentinel := by decide +kernel
  exact ⟨⟨0, by rw [h0]; exact represents_zero⟩, ⟨_, h, WeierstrassCurve.Affine.Point.some_ne_zero n⟩⟩

/-- The generator's coordinates solve the curve equation, and two views with its y and different x are distinct and no sentinel. -/
theorem witness_PointsWithEqualY :
    (fe constGY) ^ 2 = fe constGX ^ 3 + 7 ∧
    (let s := regsAt [(0, constGX), (1, constGY), (2, 0xBCACE2E99DA01887AB0102B696902325872844067F15E98DA7BBA04400B88FCB), (3, constGY)];
      ¬isSentinel s 0 ∧ ¬isSentinel s 1 ∧ yOf s 0 = yOf s 1) := by
  refine ⟨?_, by decide +kernel⟩
  have h1 : constGY.toNat ^ 2 % curveP.toNat = (constGX.toNat ^ 3 + 7) % curveP.toNat := by decide +kernel
  have h2 := congrArg (Nat.cast : Nat → ZMod secpP) h1
  rw [cast_mod, cast_mod] at h2
  simpa [fe] using h2

/-- Each clause of `CLRERR`'s statement: the premises of the invariant, of the gating, and of a word with the opcode and another bit. -/
theorem witness_ClrerrAcknowledgesAFault :
    (State.reset.Inv ∧ State.reset.err = false) ∧
    ((faulty [.host (.issue 1)]).busy = false ∧ (faulty [.host (.issue 1)]).err = true) ∧
    (op 0x3F000001 = 0x3F ∧ (0x3F000001 : CmdWord) ≠ 0x3F000000 ∧
      (movesAt [.host (.issue 0x3F000001), .complete]).moves = .host (.issue 0x3F000001) :: .complete :: []) := by decide +kernel

end Sys2Proof.Tests
end

section
/-! What one step of the total order does, in the words of the statements (`completing`, `hostDoes`): the forms of `step_cases` that the frames and the
invariant go through (20_memory.md R33 to R40). -/

namespace Sys2Proof.Machine

open Expect

/-! ## The state after its next move is taken off the list -/

/-- The state with its next move taken off the list (log 1); the block itself is as before. -/
def State.popMove (s : State) : State := { s with moves := s.moves.tail }

@[simp] theorem popMove_regs (s : State) : s.popMove.regs = s.regs := rfl
@[simp] theorem popMove_busy (s : State) : s.popMove.busy = s.busy := rfl
@[simp] theorem popMove_err (s : State) : s.popMove.err = s.err := rfl
@[simp] theorem popMove_z (s : State) : s.popMove.z = s.z := rfl
@[simp] theorem popMove_errcode (s : State) : s.popMove.errcode = s.errcode := rfl
@[simp] theorem popMove_errcmd (s : State) : s.popMove.errcmd = s.errcmd := rfl
@[simp] theorem popMove_cmdlatch (s : State) : s.popMove.cmdlatch = s.cmdlatch := rfl
@[simp] theorem popMove_buf (s : State) : s.popMove.buf = s.buf := rfl
@[simp] theorem popMove_seq (s : State) : s.popMove.seq = s.seq := rfl

/-! ## The step by the kind of its move -/

theorem popMove_of_moves {s : State} {m : Move} {ms : List Move} (h : s.moves = m :: ms) :
    s.popMove = { s with moves := ms } := by
  rw [State.popMove, h, List.tail_cons]

/-- A step of a host transaction is the transaction. -/
theorem step_of_hostDoes {s : State} {x : HostTxn} (h : hostDoes s x) : step s = .next (hostTxn x s.popMove) := by
  obtain ⟨ms, hm⟩ := List.head?_eq_some_iff.mp h
  rw [step_cons s _ ms hm, popMove_of_moves hm]
  rfl

/-- A completing step is `Complete`. -/
theorem step_of_completing {s : State} (h : completing s) : step s = complete s.popMove := by
  obtain ⟨hb, hm | hm⟩ := h
  · have hs : s.popMove = s := by rw [State.popMove, hm, List.tail_nil, ← hm]
    rw [step_nil s hm, hs, coreTurn, if_pos hb]
  · obtain ⟨ms, hm⟩ := List.head?_eq_some_iff.mp hm
    rw [step_cons s _ ms hm, popMove_of_moves hm]
    exact if_pos hb

/-- A completing step ends a command as `Complete` does. -/
theorem ended_of_completing {s t : State} (hc : completing s) (h : step s = .next t) : Ended s.popMove t :=
  complete_cases (step_of_completing hc ▸ h)

/-- A completing step of a word that decodes is `exec` of its command. -/
theorem step_of_decode {s : State} {i : Instr} (hc : completing s) (hd : decode s.cmdlatch = .ok i) :
    step s = exec i s.popMove := by
  rw [step_of_completing hc, complete_of_decode (s := s.popMove) hd]

/-! ## Everything a step can do -/

/-- The ways a step ends: a reset, a host read, a move without effect, an accepted write or issue, a faulting completion, a completion whose writes are
made. -/
inductive Stepped (s : State) : State → Prop where
  /-- `HostReset`. -/
  | reset (h : hostDoes s .reset) : Stepped s (hostReset s.popMove)
  /-- A host read. -/
  | replied (r : Reply) : Stepped s (reply s.popMove r)
  /-- A dropped transaction, or the core's turn in an idle block. -/
  | null : Stepped s s.popMove
  /-- An accepted write of a register. -/
  | wroteReg (i : RegId) (v : Word) (h : hostDoes s (.writeReg i v)) (hb : s.busy = false) : Stepped s (writeReg s.popMove i v)
  /-- An accepted write of a byte. -/
  | wroteBuf (a : BufIdx) (b : Byte) (h : hostDoes s (.writeBuf a b)) (hb : s.busy = false) :
      Stepped s { s.popMove with buf := writeByte s.buf a.val b }
  /-- An accepted issue. -/
  | issued (w : CmdWord) (h : hostDoes s (.issue w)) (hb : s.busy = false) (he : s.err = true → w = clrerrWord) :
      Stepped s { s.popMove with cmdlatch := w, busy := true }
  /-- A completion with a fault; `CLRERR` never has one. -/
  | faulted (e : CmdError) (hc : completing s) (hd : decode s.cmdlatch ≠ .ok .clrerr) : Stepped s (takeFault e s.popMove)
  /-- A completion without a fault. -/
  | completed (i : Instr) (u : State) (hc : completing s) (hd : decode s.cmdlatch = .ok i) (hw : Wrote s.popMove i u) :
      Stepped s { u with busy := false }

/-- A host transaction's step ends in one of the first six ways. -/
theorem stepped_hostTxn {s : State} {x : HostTxn} (h : hostDoes s x) : Stepped s (hostTxn x s.popMove) := by
  cases x with
  | reset => exact .reset h
  | readStatus => exact .replied _
  | readErrCmd => exact .replied _
  | readReg i => exact .replied _
  | readBuf a => exact .replied _
  | readSeq k => exact .replied _
  | writeReg i v =>
    by_cases hb : s.busy = true
    · rw [hostTxn, hostWriteReg, popMove_busy, if_pos hb]; exact .null
    · rw [hostTxn, hostWriteReg, popMove_busy, if_neg hb]; exact .wroteReg i v h (by simpa using hb)
  | writeBuf a b =>
    by_cases hb : s.busy = true
    · rw [hostTxn, hostWriteBuf, popMove_busy, if_pos hb]; exact .null
    · rw [hostTxn, hostWriteBuf, popMove_busy, if_neg hb]; exact .wroteBuf a b h (by simpa using hb)
  | issue w =>
    simp only [hostTxn]
    rcases hostIssue_cases s.popMove w with he | ⟨hb, herr, he⟩
    · rw [he]; exact .null
    · rw [he]; exact .issued w h hb herr

/-- Everything a step can do, in the words of the statements. -/
theorem stepped_of_step {s t : State} (h : step s = .next t) : Stepped s t := by
  rcases step_cases h with ⟨x, ms, hm, rfl⟩ | ⟨hb, hm, he⟩ | ⟨_, _, rfl⟩
  · rw [← popMove_of_moves hm]
    exact stepped_hostTxn (by rw [hostDoes, hm]; rfl)
  · cases he with
    | fault i e hd hi => exact .faulted e ⟨hb, hm⟩ fun h => hi (Except.ok.inj (hd.symm.trans h))
    | wrote i u hd hw => exact .completed i u ⟨hb, hm⟩ hd hw
    | illegal r hd => exact .faulted _ ⟨hb, hm⟩ fun h => by cases hd.symm.trans h
  · exact .null

/-! ## Runs -/

/-- What every step keeps, every run keeps. -/
theorem run_keeps (M : Host.Core) {P : M.State → Prop} (hstep : ∀ s t, P s → M.step s = .next t → P t) {n : Nat}
    {s t : M.State} (hs : P s) (h : M.run n s = .next t) : P t := by
  induction n generalizing s with
  | zero => cases h; exact hs
  | succ n ih =>
    rw [Host.Core.run] at h
    split at h
    · rename_i u hu; exact ih (hstep s u hs hu) h
    · cases h
    · cases h

end Sys2Proof.Machine
end

section
/-! The machine's invariant: reset meets it, every step keeps it, so every run from reset has it (10_state.md R15, R16, R22; 20_memory.md R34;
60_exceptions.md R130, R134). -/

namespace Sys2Proof.Machine

theorem CmdError.code_ne_zero (e : CmdError) : e.code ≠ 0 := by cases e <;> decide

theorem CmdError.code_legal (e : CmdError) : errcodeLegal e.code := by cases e <;> decide

/-- A fault records a code with ERR, and leaves nothing in flight. -/
theorem takeFault_inv (e : CmdError) {s : State} (hwf : Memory.wf s.buf) : (takeFault e s).Inv :=
  ⟨by simpa using e.code_ne_zero, e.code_legal, by simp, by simp, hwf⟩

/-- The invariant does not depend on what BUF holds, only on its form. -/
theorem State.Inv.setBuf {s : State} (hs : s.Inv) {m : List Host.Cell} (hm : Memory.wf m) : State.Inv { s with buf := m } := by
  obtain ⟨hiff, hlegal, hcmd, hlatch, -⟩ := hs
  exact ⟨hiff, hlegal, hcmd, hlatch, hm⟩

/-- A block that falls idle keeps the invariant. -/
theorem State.Inv.idle {s : State} (hs : s.Inv) : State.Inv { s with busy := false } := by
  obtain ⟨hiff, hlegal, hcmd, -, hwf⟩ := hs
  exact ⟨hiff, hlegal, hcmd, nofun, hwf⟩

/-- The return from a fault meets the invariant: the three fault fields are clear. -/
theorem State.Inv.clearFault {s : State} (hs : s.Inv) : (clearFault s).Inv := by
  obtain ⟨-, -, -, -, hwf⟩ := hs
  exact ⟨by simp, .inl rfl, by simp, nofun, hwf⟩

/-- A command's writes keep the invariant: the fault fields are as before or, by `CLRERR`, all clear, and BUF is as before or, by `TOB`, written inside
its 32 bytes. -/
theorem Wrote.inv {s u : State} {i : Instr} (hw : Wrote s i u) (hs : s.Inv) : u.Inv := by
  cases hw with
  | reg rd v h => exact hs
  | point qd p h => exact hs
  | buf rs =>
    obtain ⟨-, -, -, -, hwf⟩ := id hs
    exact hs.setBuf (memWrite_wf hwf (by simp))
  | seq => exact hs
  | zflag qs => exact hs
  | clear => exact hs.clearFault

theorem reset_inv (ms : List Move) : State.Inv { State.reset with moves := ms } :=
  ⟨by simp, .inl rfl, by simp, by simp, Memory.wf_nil⟩

/-- Every step keeps the invariant. -/
theorem Stepped.inv {s t : State} (h : Stepped s t) (hs : s.Inv) : t.Inv := by
  obtain ⟨hiff, hlegal, hcmd, -, hwf⟩ := id hs
  cases h with
  | reset _ => exact reset_inv s.moves.tail
  | replied r => exact hs
  | null => exact hs
  | wroteReg i v _ _ => exact hs
  | wroteBuf a b _ _ => exact hs.setBuf (writeByte_wf hwf a.isLt)
  | issued w _ _ he => exact ⟨hiff, hlegal, hcmd, fun _ => he, hwf⟩
  | faulted e _ _ => exact takeFault_inv e hwf
  | completed i u _ _ hw => exact State.Inv.idle (hw.inv hs)

theorem step_inv (s t : State) (hs : s.Inv) (h : step s = .next t) : t.Inv := (stepped_of_step h).inv hs

/-- Every state that a run from reset reaches has the invariant, whatever the moves. -/
theorem run_from_reset_inv {n : Nat} {ms : List Move} {s : State}
    (h : Sys2Proof.core.run n ({ State.reset with moves := ms } : State) = .next s) : s.Inv :=
  run_keeps Sys2Proof.core step_inv (reset_inv ms) h

/-- Settles O20: by the ways a step can end, each of which keeps the invariant. -/
theorem invKeptByStep : Obligations.InvKeptByStep := step_inv

/-- Settles O19. -/
theorem invAtReset : Obligations.InvAtReset := reset_inv []

end Sys2Proof.Machine
end

section
/-! The frames of a command and of a step: who writes a register, BUF, SEQ, Z and the fault fields, and who does not (10_state.md R10 to R19;
20_memory.md R36, R38; 60_exceptions.md R134). -/

namespace Sys2Proof.Machine

open Expect

/-! ## What a command leaves alone -/

/-- A command that answers a next state takes a fault, or makes its writes. -/
theorem exec_next {i : Instr} {s t : State} (h : exec i s = .next t) :
    (∃ e, t = takeFault e s) ∨ ∃ u, Wrote s i u ∧ t = { u with busy := false } := by
  rcases exec_cases i s with ⟨e, he⟩ | ⟨u, hw, he⟩
  · exact .inl ⟨e, Host.Outcome.next.inj (h.symm.trans he)⟩
  · exact .inr ⟨u, hw, Host.Outcome.next.inj (h.symm.trans he)⟩

/-- A command writes no register but its destinations. -/
theorem Wrote.regs_other {s u : State} {i : Instr} (hw : Wrote s i u) {r : RegId} (hr : r ∉ destRegs i) :
    u.regs[r] = s.regs[r] := by
  cases hw with
  | reg rd v h =>
    rw [h, List.mem_singleton] at hr
    exact readReg_writeReg_other s v hr
  | point qd p h =>
    rw [h, List.mem_cons, List.mem_singleton, not_or] at hr
    exact readReg_writePoint_other s p hr.1 hr.2
  | _ => rfl

/-- A command writes BUF only as `TOB`. -/
theorem Wrote.buf_of_not_tob {s u : State} {i : Instr} (hw : Wrote s i u) (hi : ∀ rs, i ≠ .tob rs) : u.buf = s.buf := by
  cases hw with
  | buf rs => exact absurd rfl (hi rs)
  | _ => rfl

/-- A command writes no address from 32 on. -/
theorem Wrote.readByte_above {s u : State} {i : Instr} (hw : Wrote s i u) {a : Nat} (ha : 32 ≤ a) :
    readByte u.buf a = readByte s.buf a := by
  cases hw with
  | buf rs =>
    dsimp only
    exact readByte_memWrite_other (.inr (by simpa using ha))
  | _ => rfl

/-- A command writes SEQ only as `BITSEQ`. -/
theorem Wrote.seq_of_not_bitseq {s u : State} {i : Instr} (hw : Wrote s i u) (hi : i ≠ .bitseq) : u.seq = s.seq := by
  cases hw with
  | seq => exact absurd rfl hi
  | _ => rfl

/-- A command writes Z only as `ISZP`. -/
theorem Wrote.z_of_not_iszp {s u : State} {i : Instr} (hw : Wrote s i u) (hi : ∀ qs, i ≠ .iszp qs) : u.z = s.z := by
  obtain ⟨-, -, -, hz, -, -⟩ := hw.frame
  exact hz hi

/-- A command writes the fault fields, without a fault, only as `CLRERR`. -/
theorem Wrote.fault_fields {s u : State} {i : Instr} (hw : Wrote s i u) (hi : i ≠ .clrerr) :
    u.err = s.err ∧ u.errcode = s.errcode ∧ u.errcmd = s.errcmd := by
  obtain ⟨-, -, -, -, hf, -⟩ := hw.frame
  exact hf hi

/-- `CLRERR` clears the fault fields. -/
theorem Wrote.clear_fields {s u : State} (hw : Wrote s .clrerr u) : u.err = false ∧ u.errcode = 0 ∧ u.errcmd = 0 := by
  obtain ⟨-, -, -, -, -, hc⟩ := hw.frame
  exact hc rfl

theorem exec_regs_other {i : Instr} {s t : State} {r : RegId} (h : exec i s = .next t) (hr : r ∉ destRegs i) :
    t.regs[r] = s.regs[r] := by
  rcases exec_next h with ⟨e, rfl⟩ | ⟨u, hw, rfl⟩
  · rfl
  · exact hw.regs_other hr

theorem exec_buf_of_not_tob {i : Instr} {s t : State} (h : exec i s = .next t) (hi : ∀ rs, i ≠ .tob rs) : t.buf = s.buf := by
  rcases exec_next h with ⟨e, rfl⟩ | ⟨u, hw, rfl⟩
  · rfl
  · exact hw.buf_of_not_tob hi

theorem exec_seq_of_not_bitseq {i : Instr} {s t : State} (h : exec i s = .next t) (hi : i ≠ .bitseq) : t.seq = s.seq := by
  rcases exec_next h with ⟨e, rfl⟩ | ⟨u, hw, rfl⟩
  · rfl
  · exact hw.seq_of_not_bitseq hi

theorem exec_z_of_not_iszp {i : Instr} {s t : State} (h : exec i s = .next t) (hi : ∀ qs, i ≠ .iszp qs) : t.z = s.z := by
  rcases exec_next h with ⟨e, rfl⟩ | ⟨u, hw, rfl⟩
  · rfl
  · exact hw.z_of_not_iszp hi

theorem exec_readByte_above {i : Instr} {s t : State} (h : exec i s = .next t) {a : Nat} (ha : 32 ≤ a) :
    readByte t.buf a = readByte s.buf a := by
  rcases exec_next h with ⟨e, rfl⟩ | ⟨u, hw, rfl⟩
  · rfl
  · exact hw.readByte_above ha

/-! ## Who changes each field in a step -/

/-- A step changes a register only as a completing command with that destination, as the host's accepted write of it, or as reset. -/
theorem Stepped.regs_writer {s t : State} (h : Stepped s t) {r : RegId} (hne : t.regs[r] ≠ s.regs[r]) :
    (completing s ∧ ∃ i, decode s.cmdlatch = .ok i ∧ r ∈ destRegs i) ∨
      (s.busy = false ∧ ∃ v, hostDoes s (.writeReg r v)) ∨ hostDoes s .reset := by
  cases h with
  | reset h => exact .inr (.inr h)
  | wroteReg i v h hb =>
    by_cases hi : r = i
    · exact .inr (.inl ⟨hb, v, hi ▸ h⟩)
    · exact absurd (readReg_writeReg_other s.popMove v hi) hne
  | completed i u hc hd hw =>
    by_cases hr : r ∈ destRegs i
    · exact .inl ⟨hc, i, hd, hr⟩
    · exact absurd (hw.regs_other hr) hne
  | _ => exact absurd rfl hne

/-- A step changes a byte of BUF only as `TOB`, as the host's accepted write of it, or as reset. -/
theorem Stepped.byte_writer {s t : State} (h : Stepped s t) {a : Nat} (hne : readByte t.buf a ≠ readByte s.buf a) :
    (completing s ∧ ∃ rs, decode s.cmdlatch = .ok (.tob rs)) ∨
      (s.busy = false ∧ ∃ (k : BufIdx) (b : Byte), k.val = a ∧ hostDoes s (.writeBuf k b)) ∨ hostDoes s .reset := by
  cases h with
  | reset h => exact .inr (.inr h)
  | wroteBuf k b h hb =>
    by_cases ha : a = k.val
    · exact .inr (.inl ⟨hb, k, b, ha.symm, h⟩)
    · exact absurd (readByte_writeByte_other ha) hne
  | completed i u hc hd hw =>
    by_cases hi : ∃ rs, i = .tob rs
    · obtain ⟨rs, rfl⟩ := hi
      exact .inl ⟨hc, rs, hd⟩
    · exact absurd (congrArg (readByte · a) (hw.buf_of_not_tob (not_exists.mp hi))) hne
  | _ => exact absurd rfl hne

/-- A step changes SEQ only as `BITSEQ` or as reset. -/
theorem Stepped.seq_writer {s t : State} (h : Stepped s t) (hne : t.seq ≠ s.seq) :
    (completing s ∧ decode s.cmdlatch = .ok .bitseq) ∨ hostDoes s .reset := by
  cases h with
  | reset h => exact .inr h
  | completed i u hc hd hw =>
    by_cases hi : i = .bitseq
    · exact .inl ⟨hc, hi ▸ hd⟩
    · exact absurd (hw.seq_of_not_bitseq hi) hne
  | _ => exact absurd rfl hne

/-- A step changes Z only as `ISZP` or as reset. -/
theorem Stepped.z_writer {s t : State} (h : Stepped s t) (hne : t.z ≠ s.z) :
    (completing s ∧ ∃ qs, decode s.cmdlatch = .ok (.iszp qs)) ∨ hostDoes s .reset := by
  cases h with
  | reset h => exact .inr h
  | completed i u hc hd hw =>
    by_cases hi : ∃ qs, i = .iszp qs
    · obtain ⟨qs, rfl⟩ := hi
      exact .inl ⟨hc, qs, hd⟩
    · exact absurd (hw.z_of_not_iszp (not_exists.mp hi)) hne
  | _ => exact absurd rfl hne

/-! ## The statements -/

/-- Settles O29: a command by its destinations, a step by the ways it can end. -/
theorem registerWriters : Obligations.RegisterWriters :=
  ⟨fun _ _ _ _ h hr => exec_regs_other h hr, fun _ _ _ h hne => (stepped_of_step h).regs_writer hne⟩

/-- Settles O30: a command by what it writes, a step by the ways it can end. -/
theorem memoryWriters : Obligations.MemoryWriters :=
  ⟨fun _ _ _ h hi a => congrArg (readByte · a) (exec_buf_of_not_tob h hi),
    fun _ _ _ h _ ha => exec_readByte_above h ha,
    fun _ _ _ h hi => exec_seq_of_not_bitseq h hi,
    fun _ _ _ h hne => (stepped_of_step h).byte_writer hne,
    fun _ _ h hne => (stepped_of_step h).seq_writer hne⟩

/-- Settles O31: a fault records its code and leaves the rest; a command's writes leave what `Wrote.frame` lists. -/
theorem statusFrame : Obligations.StatusFrame := by
  intro i s t h
  rcases exec_next h with ⟨e, rfl⟩ | ⟨u, hw, rfl⟩
  · exact ⟨rfl, rfl, rfl, rfl, fun _ => rfl, fun _ => .inr ⟨rfl, e.code_ne_zero, rfl⟩⟩
  · obtain ⟨hlatch, hmoves, hreplies, hz, hf, -⟩ := hw.frame
    exact ⟨hlatch, hmoves, hreplies, rfl, hz, fun hi => .inl (hf hi)⟩

end Sys2Proof.Machine
end

section
/-! A word that decodes has the fields of its command (30_encoding.md R51 to R54), so it is none of the illegal words of R56. -/

namespace Sys2Proof.Machine

open Expect

/-- A word under a mask agrees with a pattern field by field. -/
theorem fields_of_and_eq {w mask pattern : CmdWord} (h : w &&& mask = pattern) :
    (opField w &&& opField mask = opField pattern ∧ dField w &&& dField mask = dField pattern ∧
      s1Field w &&& s1Field mask = s1Field pattern) ∧
    (s2Field w &&& s2Field mask = s2Field pattern ∧ mField w &&& mField mask = mField pattern ∧
      immField w &&& immField mask = immField pattern) := by
  subst h
  refine ⟨⟨?_, ?_, ?_⟩, ⟨?_, ?_, ?_⟩⟩
  · ext i hi; simp [opField]
  · ext i hi; simp [dField]
  · ext i hi; simp [s1Field]
  · ext i hi; simp [s2Field]
  · ext i hi; simp [mField]
  · ext i hi; simp [immField]

/-- A field that the mask covers whole is the pattern's. -/
theorem toNat_of_and_ones {n : Nat} {f v : BitVec n} (h : f &&& BitVec.allOnes n = v) : f.toNat = v.toNat := by
  rw [← h, BitVec.and_allOnes]

/-- A point field without its top bit is the point's number. -/
theorem toNat_eq_pointOf {f : BitVec 4} (h : f &&& 8 = 0) : f.toNat = (pointOf f).val := by revert f; decide

/-- A word that decodes has the fields of its command: row by row, the mask covers the opcode, the fields the row does not use and the top bits of its
point fields. -/
theorem fieldsAre_of_decode {w : CmdWord} {i : Instr} (h : decode w = .ok i) : fieldsAre w i := by
  obtain ⟨r, hr, hs, rfl⟩ := selects_of_decode h
  obtain ⟨hm, hc⟩ := Bool.and_eq_true_iff.mp hs
  obtain ⟨⟨hop, hd, h1⟩, ⟨h2, h3, himm⟩⟩ := fields_of_and_eq (eq_of_beq hm)
  simp only [rows, List.cons_append, List.nil_append, List.mem_cons, List.not_mem_nil, or_false] at hr
  have octet := @toNat_of_and_ones 8
  have nibble := @toNat_of_and_ones 4
  have point := @toNat_eq_pointOf
  rcases hr with rfl | rfl | rfl | rfl | rfl | rfl | rfl | rfl | rfl | rfl | rfl | rfl | rfl | rfl | rfl
  · exact ⟨octet hop, rfl, nibble h1, nibble h2, nibble h3, rfl, of_decide_eq_true hc⟩
  · exact ⟨octet hop, rfl, nibble h1, nibble h2, nibble h3, rfl⟩
  · exact ⟨octet hop, nibble hd, rfl, nibble h2, nibble h3, octet himm⟩
  · exact ⟨octet hop, nibble hd, nibble h1, nibble h2, nibble h3, octet himm⟩
  · exact ⟨octet hop, rfl, rfl, rfl, rfl, octet himm⟩
  · exact ⟨octet hop, rfl, rfl, rfl, rfl, octet himm⟩
  · exact ⟨octet hop, rfl, rfl, rfl, rfl, octet himm⟩
  · exact ⟨octet hop, rfl, rfl, rfl, rfl, octet himm⟩
  · exact ⟨octet hop, rfl, rfl, rfl, rfl, octet himm⟩
  · exact ⟨octet hop, point hd, nibble h1, nibble h2, nibble h3, octet himm⟩
  · exact ⟨octet hop, nibble hd, point h1, nibble h2, nibble h3, octet himm⟩
  · exact ⟨octet hop, point hd, point h1, point h2, nibble h3, octet himm⟩
  · exact ⟨octet hop, point hd, point h1, nibble h2, nibble h3, octet himm⟩
  · exact ⟨octet hop, point hd, rfl, nibble h2, nibble h3, octet himm⟩
  · exact ⟨octet hop, nibble hd, nibble h1, nibble h2, nibble h3, octet himm⟩

/-- A word with the fields of a command falls under none of R56's cases. -/
theorem not_illegal_of_fieldsAre {w : CmdWord} {i : Instr} (h : fieldsAre w i) : ¬illegal w := by
  cases i with
  | ldc rd c =>
    obtain ⟨hop, -, h1, h2, h3, -, hle⟩ := h
    simp [illegal, unlistedOp, unusedNonzero, pointTopBit, badConstIndex, hop, h1, h2, h3, hle]
  | _ =>
    simp only [fieldsAre] at h
    simp [illegal, unlistedOp, unusedNonzero, pointTopBit, badConstIndex, h]

/-- The decoder rejects every illegal word. -/
theorem decode_error_of_illegal {w : CmdWord} (h : illegal w) : ∃ r, decode w = .error r := by
  cases hd : decode w with
  | error r => exact ⟨r, rfl⟩
  | ok i => exact absurd h (not_illegal_of_fieldsAre (fieldsAre_of_decode hd))

theorem decode_clrerrWord : decode clrerrWord = .ok .clrerr := by decide

end Sys2Proof.Machine
end

section
/-! The faults of R132, row by row: where a command's row gives a code, the command takes that fault (40_conversion_bitseq.md R72; 41_field_arithmetic.md R80
to R84; 42_point_curve.md R106, R107). -/

namespace Sys2Proof.Machine

open Expect

/-! ## The errors of the functions -/

theorem fromBytes_error {m : List Host.Cell} {len : Nat} (h : 32 < len) : fromBytes m len = .error .valueTooLarge := if_pos h

theorem readPoint_eq (s : State) (k : PointId) : readPoint s k = ⟨xOf s k, yOf s k⟩ := rfl

theorem isZeroPoint_readPoint (s : State) (k : PointId) : isZeroPoint (readPoint s k) = decide (isSentinel s k) := by
  rw [Bool.eq_iff_iff, isZeroPoint_iff, decide_eq_true_iff, readPoint_eq, sentinel, Point.mk.injEq]

/-- Two points with equal y, none of them the sentinel (R106). -/
theorem addPoints_equal_y {p1 p2 : Point} (h1 : isZeroPoint p1 = false) (h2 : isZeroPoint p2 = false) (hy : p1.y = p2.y) :
    addPoints p1 p2 = .error .preconditionViolated := by
  rw [addPoints_eq, chordSum, h1, h2, if_neg Bool.false_ne_true, if_neg Bool.false_ne_true, if_pos hy]

/-- Two points with different y and congruent x, none of them the sentinel: the slope's divisor is zero (R106). -/
theorem addPoints_congruent_x {p1 p2 : Point} (h1 : isZeroPoint p1 = false) (h2 : isZeroPoint p2 = false) (hy : p1.y ≠ p2.y)
    (hx : p1.x.toNat % secpP = p2.x.toNat % secpP) : addPoints p1 p2 = .error .divisionUndefined := by
  rw [secpP_eq, ← subP_mod_eq_zero] at hx
  rw [addPoints_eq, chordSum, h1, h2, if_neg Bool.false_ne_true, if_neg Bool.false_ne_true, if_neg hy, if_pos hx]

/-- The double of a point whose y is the curve prime: not zero, but its double is zero modulo the prime (R107). -/
theorem doublePoint_prime_y {pt : Point} (hy : pt.y = constP) : doublePoint pt = .error .divisionUndefined := by
  have h1 : isZeroPoint pt ≠ true := by
    rw [Ne, isZeroPoint_iff]
    rintro rfl
    exact absurd hy (by decide)
  have h2 : pt.y ≠ 0 := by rw [hy]; decide
  have h3 : (addP pt.y pt.y).toNat % curveP.toNat = 0 := by rw [hy]; decide +kernel
  rw [doublePoint_eq, tangentDouble, if_neg h1, if_neg h2, if_pos h3]

/-! ## The commands -/

/-! What a command computes, from its source registers and BUF: `exec` unfolded once for each command. -/

theorem exec_ldc (rd : RegId) (c : BitVec 8) (s : State) :
    exec (.ldc rd c) s = finish s ((romAt c).elim (.error .illegalCommand) .ok) fun s v => writeReg s rd v := by
  simp only [exec, execLdc]
  cases romAt c <;> rfl

theorem exec_fromb (rd : RegId) (len : BitVec 8) (s : State) :
    exec (.fromb rd len) s = finish s (fromBytes s.buf len.toNat) fun s v => writeReg s rd v := rfl

theorem exec_tob (rs : RegId) (s : State) :
    exec (.tob rs) s = .next { s with buf := memWrite s.buf 0 Config.bufLen s.regs[rs].toNat, busy := false } := by
  simp only [exec, execTob, done_eq, readReg]

theorem exec_bitseq (s : State) : exec .bitseq s = .next { s with seq := bitSeq (bufBytes s.buf), busy := false } := rfl

theorem exec_addm (rd rs1 rs2 rm : RegId) (s : State) :
    exec (.addm rd rs1 rs2 rm) s = finish s (addMod s.regs[rs1] s.regs[rs2] s.regs[rm]) fun s v => writeReg s rd v := rfl

theorem exec_subm (rd rs1 rs2 rm : RegId) (s : State) :
    exec (.subm rd rs1 rs2 rm) s = finish s (subMod s.regs[rs1] s.regs[rs2] s.regs[rm]) fun s v => writeReg s rd v := rfl

theorem exec_mulm (rd rs1 rs2 rm : RegId) (s : State) :
    exec (.mulm rd rs1 rs2 rm) s = finish s (mulMod s.regs[rs1] s.regs[rs2] s.regs[rm]) fun s v => writeReg s rd v := rfl

theorem exec_expm (rd rs1 rs2 rm : RegId) (s : State) :
    exec (.expm rd rs1 rs2 rm) s = finish s (expMod s.regs[rs1] s.regs[rs2] s.regs[rm]) fun s v => writeReg s rd v := rfl

theorem exec_divm (rd rs1 rs2 rm : RegId) (s : State) :
    exec (.divm rd rs1 rs2 rm) s = finish s (divMod s.regs[rs1] s.regs[rs2] s.regs[rm]) fun s v => writeReg s rd v := rfl

theorem exec_ldzp (qd : PointId) (s : State) :
    exec (.ldzp qd) s = finish s (.ok sentinel) fun s p => writePoint s qd p := rfl

theorem exec_iszp (qs : PointId) (s : State) :
    exec (.iszp qs) s = .next { s with z := decide (isSentinel s qs), busy := false } := by
  rw [← isZeroPoint_readPoint]; rfl

theorem exec_padd (qd qs1 qs2 : PointId) (s : State) :
    exec (.padd qd qs1 qs2) s = finish s (addPoints (readPoint s qs1) (readPoint s qs2)) fun s p => writePoint s qd p := rfl

theorem exec_pdbl (qd qs : PointId) (s : State) :
    exec (.pdbl qd qs) s = finish s (doublePoint (readPoint s qs)) fun s p => writePoint s qd p := rfl

theorem exec_smul (qd : PointId) (rs : RegId) (s : State) :
    exec (.smul qd rs) s = finish s (prToPub s.regs[rs]) fun s p => writePoint s qd p := rfl

theorem exec_clrerr (s : State) : exec .clrerr s = .next { clearFault s with busy := false } := rfl

/-- A row with one cause: where its code shows, the cause holds, so the fault is taken. -/
theorem fault_of_cause {P : Prop} [Decidable P] {i : Instr} {s : State} {e : CmdError} (h : (if P then e.code else 0) ≠ 0)
    (hf : P → exec i s = .next (takeFault e s)) :
    ∃ e', exec i s = .next (takeFault e' s) ∧ e'.code = if P then e.code else 0 := by
  by_cases hp : P
  · exact ⟨e, hf hp, (if_pos hp).symm⟩
  · exact absurd (if_neg hp) h

/-- Every command but `SMUL` whose row of R132 gives a code takes the fault of that code. -/
theorem exec_of_faultCode {i : Instr} {s : State} (hi : isSmul i = false) (h : faultCode s i ≠ 0) :
    ∃ e, exec i s = .next (takeFault e s) ∧ e.code = faultCode s i := by
  cases i with
  | smul qd rs => cases hi
  | fromb rd len =>
    exact fault_of_cause (e := .valueTooLarge) h fun hlen => by rw [exec_fromb, fromBytes_error hlen, finish_error]
  | addm rd rs1 rs2 rm =>
    exact fault_of_cause (e := .divisionUndefined) h fun hm => by rw [exec_addm, hm, addMod_zero, finish_error]
  | subm rd rs1 rs2 rm =>
    exact fault_of_cause (e := .divisionUndefined) h fun hm => by rw [exec_subm, hm, subMod_zero, finish_error]
  | mulm rd rs1 rs2 rm =>
    exact fault_of_cause (e := .divisionUndefined) h fun hm => by rw [exec_mulm, hm, mulMod_zero, finish_error]
  | expm rd rs1 rs2 rm =>
    exact fault_of_cause (e := .divisionUndefined) h fun hm => by rw [exec_expm, hm, expMod_zero, finish_error]
  | divm rd rs1 rs2 rm =>
    exact fault_of_cause (e := .divisionUndefined) h fun hm => by rw [exec_divm, divMod_error hm, finish_error]
  | pdbl qd qs =>
    exact fault_of_cause (e := .divisionUndefined) h fun hy => by rw [exec_pdbl, doublePoint_prime_y hy, finish_error]
  | padd qd qs1 qs2 =>
    have hz (k : PointId) (hk : ¬isSentinel s k) : isZeroPoint (readPoint s k) = false := by
      rw [isZeroPoint_readPoint, decide_eq_false hk]
    simp only [faultCode] at h ⊢
    split_ifs at h ⊢ with hs hy hx
    · exact absurd rfl h
    · obtain ⟨h1, h2⟩ := not_or.mp hs
      exact ⟨_, by rw [exec_padd, addPoints_equal_y (hz _ h1) (hz _ h2) hy, finish_error], rfl⟩
    · obtain ⟨h1, h2⟩ := not_or.mp hs
      exact ⟨_, by rw [exec_padd, addPoints_congruent_x (hz _ h1) (hz _ h2) hy hx, finish_error], rfl⟩
    · exact absurd rfl h
  | _ => exact absurd rfl h

/-- `SMUL` whose walk fails takes the walk's fault. -/
theorem exec_smul_of_error {qd : PointId} {rs : RegId} {s : State} {e : CmdError} (h : prToPub s.regs[rs] = .error e) :
    exec (.smul qd rs) s = .next (takeFault e s) := by rw [exec_smul, h, finish_error]

end Sys2Proof.Machine
end

section
/-! STATUS and ERRCMD: the bits of the status word, and for each field what sets it, what clears it, and that nothing else changes it (10_state.md R14 to
R16; 60_exceptions.md R132, R134). -/

namespace Sys2Proof.Machine

open Expect

/-! ## The status word -/

theorem statusWord_busy (s : State) : (statusWord s).getLsbD 0 = s.busy := by
  simp only [statusWord, BitVec.getLsbD_append]; simp

theorem statusWord_err (s : State) : (statusWord s).getLsbD 1 = s.err := by
  simp only [statusWord, BitVec.getLsbD_append]; simp

theorem statusWord_z (s : State) : (statusWord s).getLsbD 2 = s.z := by
  simp only [statusWord, BitVec.getLsbD_append]; simp

theorem statusWord_bit_three (s : State) : (statusWord s).getLsbD 3 = false := by
  simp only [statusWord, BitVec.getLsbD_append]; simp

theorem statusWord_errcode (s : State) : (statusWord s).extractLsb' 4 3 = s.errcode := by
  ext i hi; simp [statusWord]; grind

theorem statusWord_reserved (s : State) : (statusWord s).extractLsb' 7 25 = 0 := by
  ext i hi; simp [statusWord]; grind

theorem statusWord_reset : statusWord State.reset = 0 := by decide

/-! ## The step's effect on the fault fields and on BUSY -/

/-- What a step does to the fault fields: it keeps them, records a fault in them as a completion, or clears them as `CLRERR` or reset. -/
theorem Stepped.fault_fields {s t : State} (h : Stepped s t) :
    (t.err = s.err ∧ t.errcode = s.errcode ∧ t.errcmd = s.errcmd) ∨
      (completing s ∧ t.err = true ∧ t.errcode ≠ 0 ∧ t.errcmd = s.cmdlatch) ∨
      (((completing s ∧ decode s.cmdlatch = .ok .clrerr) ∨ hostDoes s .reset) ∧ t.err = false ∧ t.errcode = 0 ∧ t.errcmd = 0) := by
  cases h with
  | reset h => exact .inr (.inr ⟨.inr h, rfl, rfl, rfl⟩)
  | faulted e hc _ => exact .inr (.inl ⟨hc, rfl, e.code_ne_zero, rfl⟩)
  | completed i u hc hd hw =>
    by_cases hi : i = .clrerr
    · subst hi; exact .inr (.inr ⟨.inl ⟨hc, hd⟩, hw.clear_fields⟩)
    · exact .inl (hw.fault_fields hi)
  | _ => exact .inl ⟨rfl, rfl, rfl⟩

/-- What a step does to BUSY: it keeps it, sets it as an accepted issue, or clears it as a completion or reset. -/
theorem Stepped.busy_cases {s t : State} (h : Stepped s t) :
    t.busy = s.busy ∨
      (t.busy = true ∧ ∃ w, hostDoes s (.issue w) ∧ (s.err = true → w = clrerrWord) ∧ t.cmdlatch = w) ∨
      (t.busy = false ∧ (completing s ∨ hostDoes s .reset)) := by
  cases h with
  | reset h => exact .inr (.inr ⟨rfl, .inr h⟩)
  | issued w h _ he => exact .inr (.inl ⟨rfl, w, h, he, rfl⟩)
  | faulted e hc _ => exact .inr (.inr ⟨rfl, .inl hc⟩)
  | completed i u hc _ _ => exact .inr (.inr ⟨rfl, .inl hc⟩)
  | _ => exact .inl rfl

/-- Only an accepted issue sets BUSY. -/
theorem Stepped.busy_set {s t : State} (h : Stepped s t) (hs : s.busy = false) (ht : t.busy = true) :
    ∃ w, hostDoes s (.issue w) ∧ (s.err = false ∨ w = clrerrWord) ∧ t.cmdlatch = w := by
  rcases h.busy_cases with he | ⟨-, w, hw, he, hl⟩ | ⟨he, -⟩
  · cases (he.trans hs).symm.trans ht
  · exact ⟨w, hw, s.err.eq_false_or_eq_true.symm.imp id he, hl⟩
  · cases he.symm.trans ht

/-- Only a completion or reset clears BUSY. -/
theorem Stepped.busy_cleared {s t : State} (h : Stepped s t) (hs : s.busy = true) (ht : t.busy = false) :
    completing s ∨ hostDoes s .reset := by
  rcases h.busy_cases with he | ⟨he, -⟩ | ⟨-, hc⟩
  · cases (he.trans hs).symm.trans ht
  · cases he.symm.trans ht
  · exact hc

/-- Only a completion sets ERR, and it records a code. -/
theorem Stepped.err_set {s t : State} (h : Stepped s t) (hs : s.err = false) (ht : t.err = true) :
    completing s ∧ t.errcode ≠ 0 := by
  rcases h.fault_fields with ⟨he, -, -⟩ | ⟨hc, -, hcode, -⟩ | ⟨-, he, -, -⟩
  · cases (he.trans hs).symm.trans ht
  · exact ⟨hc, hcode⟩
  · cases he.symm.trans ht

/-- Only `CLRERR` or reset clears ERR. -/
theorem Stepped.err_cleared {s t : State} (h : Stepped s t) (hs : s.err = true) (ht : t.err = false) :
    (completing s ∧ decode s.cmdlatch = .ok .clrerr) ∨ hostDoes s .reset := by
  rcases h.fault_fields with ⟨he, -, -⟩ | ⟨-, he, -, -⟩ | ⟨hc, -, -, -⟩
  · cases (he.trans hs).symm.trans ht
  · cases he.symm.trans ht
  · exact hc

/-- Only a faulting completion, `CLRERR` or reset changes ERRCODE. -/
theorem Stepped.errcode_writer {s t : State} (h : Stepped s t) (hne : t.errcode ≠ s.errcode) :
    (completing s ∧ (t.err = true ∨ decode s.cmdlatch = .ok .clrerr)) ∨ hostDoes s .reset := by
  rcases h.fault_fields with ⟨-, he, -⟩ | ⟨hc, he, -, -⟩ | ⟨⟨hc, hd⟩ | hr, -, -, -⟩
  · exact absurd he hne
  · exact .inl ⟨hc, .inl he⟩
  · exact .inl ⟨hc, .inr hd⟩
  · exact .inr hr

/-- A completing step leaves the block idle. -/
theorem completing_busy {s t : State} (hc : completing s) (h : step s = .next t) : t.busy = false := by
  cases ended_of_completing hc h <;> rfl

/-- A completing step of an illegal word takes `IllegalCommand`. -/
theorem step_of_illegal {s : State} (hc : completing s) (hw : illegal s.cmdlatch) :
    step s = .next (takeFault .illegalCommand s.popMove) := by
  obtain ⟨r, hr⟩ := decode_error_of_illegal hw
  rw [step_of_completing hc, complete_of_illegal (s := s.popMove) hr]

/-- A completing step of `CLRERR` clears the fault fields. -/
theorem step_of_clrerr {s : State} (hc : completing s) (hd : decode s.cmdlatch = .ok .clrerr) :
    step s = .next { clearFault s.popMove with busy := false } := by
  rw [step_of_decode hc hd, exec_clrerr]

/-- In a state with the invariant a completion after which ERR is 1 has taken a fault, since the one word in flight while ERR is 1 is `CLRERR`. -/
theorem errcmd_of_faulting {s t : State} (hs : s.Inv) (hc : completing s) (h : step s = .next t) (ht : t.err = true) :
    t.errcmd = s.cmdlatch := by
  rcases (stepped_of_step h).fault_fields with ⟨he, -, -⟩ | ⟨-, -, -, hcmd⟩ | ⟨-, he, -, -⟩
  · obtain ⟨-, -, -, hlatch, -⟩ := hs
    have hd : decode s.cmdlatch = .ok .clrerr := by rw [hlatch hc.1 (he ▸ ht), decode_clrerrWord]
    obtain rfl := Host.Outcome.next.inj (h.symm.trans (step_of_clrerr hc hd))
    cases ht
  · exact hcmd
  · cases he.symm.trans ht

/-! ## The statements -/

/-- Settles O21: Z by what a command writes and by the ways a step can end. -/
theorem onlyIszpWritesZ : Obligations.OnlyIszpWritesZ :=
  ⟨fun _ _ _ hi h => exec_z_of_not_iszp h hi, exec_iszp, fun _ _ h hne => (stepped_of_step h).z_writer hne, rfl, statusWord_z⟩

/-- Settles O22: the bits of the word, then field by field the ways a step can end, then the invariant along a run. -/
theorem statusRegister : Obligations.StatusRegister := by
  refine ⟨fun s => ⟨statusWord_busy s, statusWord_err s, statusWord_z s, statusWord_bit_three s, statusWord_errcode s,
    statusWord_reserved s⟩, statusWord_reset, fun s t h => ?_, fun s ms hm => step_cons s _ ms hm, fun n ms s h => ?_⟩
  · have hst := stepped_of_step h
    refine ⟨hst.busy_set, hst.busy_cleared, fun hc => completing_busy hc h, hst.err_set, fun hc hw => ?_, fun i hc hd hi hf => ?_,
      fun qd rs e hc hd he => ?_, hst.err_cleared, hst.z_writer, hst.errcode_writer, fun w hw hb he => ?_, fun hc hd => ?_,
      fun hr => ?_⟩
    · obtain rfl := Host.Outcome.next.inj (h.symm.trans (step_of_illegal hc hw))
      exact ⟨rfl, rfl⟩
    · obtain ⟨e, he, hcode⟩ := exec_of_faultCode (s := s.popMove) hi hf
      obtain rfl := Host.Outcome.next.inj (h.symm.trans ((step_of_decode hc hd).trans he))
      exact ⟨rfl, hcode⟩
    · obtain rfl := Host.Outcome.next.inj (h.symm.trans ((step_of_decode hc hd).trans (exec_smul_of_error (s := s.popMove) he)))
      exact ⟨rfl, rfl⟩
    · obtain rfl := Host.Outcome.next.inj (h.symm.trans (step_of_hostDoes hw))
      simp [hostTxn, hostIssue, hb, he]
    · obtain rfl := Host.Outcome.next.inj (h.symm.trans (step_of_clrerr hc hd))
      exact ⟨rfl, rfl⟩
    · obtain rfl := Host.Outcome.next.inj (h.symm.trans (step_of_hostDoes hr))
      exact statusWord_reset
  · obtain ⟨hiff, -⟩ := run_from_reset_inv h
    exact hiff

/-- Settles O23: the ways a step can end, and the invariant for the two clauses about states that a run reaches. -/
theorem errcmdRegister : Obligations.ErrcmdRegister := by
  refine ⟨fun s t h => ?_, fun s t hs hc h ht => errcmd_of_faulting hs hc h ht, fun s t hc hd h => ?_, fun s t hr h => ?_,
    fun s ms hm => step_cons s _ ms hm, fun n ms s h he => ?_⟩
  · rcases (stepped_of_step h).fault_fields with ⟨-, -, hcmd⟩ | ⟨hc, he, -, hcmd⟩ | ⟨hw, -, -, hcmd⟩
    · exact .inl hcmd
    · exact .inr (.inl ⟨hc, he, hcmd⟩)
    · exact .inr (.inr ⟨hcmd, hw⟩)
  · obtain rfl := Host.Outcome.next.inj (h.symm.trans (step_of_clrerr hc hd))
    rfl
  · obtain rfl := Host.Outcome.next.inj (h.symm.trans (step_of_hostDoes hr))
    rfl
  · obtain ⟨-, -, hcmd, -⟩ := run_from_reset_inv h
    exact hcmd he

end Sys2Proof.Machine
end

section
/-! What a command does depends on its sources alone: the registers of R12's "reads" column and, for `FROMB` and `BITSEQ`, BUF (10_state.md R12;
20_memory.md R38). -/

namespace Sys2Proof.Machine

open Expect

/-! ## The sources' values -/

theorem readPoint_congr {s s' : State} {k : PointId} (hx : s.regs[evenReg k] = s'.regs[evenReg k])
    (hy : s.regs[oddReg k] = s'.regs[oddReg k]) : readPoint s k = readPoint s' k :=
  congrArg₂ Point.mk hx hy

theorem fromBytes_congr {m m' : List Host.Cell} {len : Nat} (h : ∀ a : BufIdx, readByte m a.val = readByte m' a.val) :
    fromBytes m len = fromBytes m' len := by
  unfold fromBytes
  split
  · rfl
  · rename_i hlen
    rw [memRead_congr fun i hi => ?_]
    rw [Nat.zero_add]
    exact h ⟨i, lt_of_lt_of_le hi (not_lt.mp hlen)⟩

theorem bufBytes_congr {m m' : List Host.Cell} (h : ∀ a : BufIdx, readByte m a.val = readByte m' a.val) :
    bufBytes m = bufBytes m' := by
  ext i hi : 1
  rw [bufBytes_getElem m i hi, bufBytes_getElem m' i hi]
  exact h ⟨i, hi⟩

/-- Inside its range `MemWrite` leaves the same bytes whatever was there before. -/
theorem readByte_memWrite_congr {m m' : List Host.Cell} {n v a : Nat} (hm : Memory.wf m) (hm' : Memory.wf m')
    (hn : n ≤ Config.bufLen) (ha : a < n) : readByte (memWrite m 0 n v) a = readByte (memWrite m' 0 n v) a := by
  have h := readByte_memWrite (v := v) hm (by omega : 0 + n ≤ Config.bufLen) ha
  have h' := readByte_memWrite (v := v) hm' (by omega : 0 + n ≤ Config.bufLen) ha
  rw [Nat.zero_add] at h h'
  rw [h, h']

/-! ## Two runs of one command -/

/-- The two states that a command leaves agree: on the fault and, where there is none, on everything the command writes. -/
def Agree (i : Instr) (t t' : State) : Prop :=
  t.err = t'.err ∧ t.errcode = t'.errcode ∧
    (t.err = false →
      (∀ r ∈ destRegs i, t.regs[r] = t'.regs[r]) ∧
      (∀ qs, i = .iszp qs → t.z = t'.z) ∧
      (∀ rs, i = .tob rs → ∀ a : BufIdx, readByte t.buf a.val = readByte t'.buf a.val) ∧
      (i = .bitseq → t.seq = t'.seq))

/-- A command with destinations is none of those that write a flag, BUF or SEQ, so its destinations are all there is to agree on. -/
theorem agree_of_dest {i : Instr} {t t' : State} (hi : destRegs i ≠ []) (he : t.err = t'.err) (hc : t.errcode = t'.errcode)
    (hr : ∀ r ∈ destRegs i, t.regs[r] = t'.regs[r]) : Agree i t t' := by
  refine ⟨he, hc, fun _ => ⟨hr, ?_, ?_, ?_⟩⟩
  · rintro qs rfl; exact absurd rfl hi
  · rintro rs rfl; exact absurd rfl hi
  · rintro rfl; exact absurd rfl hi

theorem agree_of_takeFault (i : Instr) (e : CmdError) (s s' : State) : Agree i (takeFault e s) (takeFault e s') :=
  ⟨rfl, rfl, nofun⟩

section

variable {i : Instr} {s s' t t' : State} (he : s.err = s'.err) (hc : s.errcode = s'.errcode)

include he hc

/-- Two runs that compute the same register result agree. -/
theorem agree_of_finish_reg {rd : RegId} {r : Except CmdError Word} (hi : destRegs i = [rd])
    (h : finish s r (fun s v => writeReg s rd v) = .next t) (h' : finish s' r (fun s v => writeReg s rd v) = .next t') :
    Agree i t t' := by
  cases r with
  | error e =>
    cases h; cases h'
    exact agree_of_takeFault i e s s'
  | ok v =>
    cases h; cases h'
    refine agree_of_dest (by simp [hi]) he hc fun r hr => ?_
    rw [hi, List.mem_singleton] at hr
    subst hr
    exact (readReg_writeReg_same s r v).trans (readReg_writeReg_same s' r v).symm

/-- Two runs that compute the same point result agree. -/
theorem agree_of_finish_point {qd : PointId} {r : Except CmdError Point} (hi : destRegs i = [evenReg qd, oddReg qd])
    (h : finish s r (fun s p => writePoint s qd p) = .next t) (h' : finish s' r (fun s p => writePoint s qd p) = .next t') :
    Agree i t t' := by
  cases r with
  | error e =>
    cases h; cases h'
    exact agree_of_takeFault i e s s'
  | ok p =>
    cases h; cases h'
    have hp : readPoint (writePoint s qd p) qd = readPoint (writePoint s' qd p) qd := by
      rw [readPoint_writePoint_same, readPoint_writePoint_same]
    obtain ⟨hx, hy⟩ := Point.mk.inj hp
    refine agree_of_dest (by simp [hi]) he hc fun r hr => ?_
    rw [hi, List.mem_cons, List.mem_singleton] at hr
    rcases hr with rfl | rfl
    · exact hx
    · exact hy

/-- Two runs of a field command agree when its three source registers do. -/
theorem agree_of_field {f : Word → Word → Word → Except CmdError Word} {rd rs1 rs2 rm : RegId} (hi : destRegs i = [rd])
    (hsrc : ∀ r ∈ [rs1, rs2, rm], s.regs[r] = s'.regs[r])
    (h : finish s (f s.regs[rs1] s.regs[rs2] s.regs[rm]) (fun s v => writeReg s rd v) = .next t)
    (h' : finish s' (f s'.regs[rs1] s'.regs[rs2] s'.regs[rm]) (fun s v => writeReg s rd v) = .next t') : Agree i t t' := by
  rw [hsrc rs1 (by simp), hsrc rs2 (by simp), hsrc rm (by simp)] at h
  exact agree_of_finish_reg he hc hi h h'

end

/-- Two runs of a command agree where its sources do. -/
theorem exec_agree {i : Instr} {s s' t t' : State} (he : s.err = s'.err) (hc : s.errcode = s'.errcode)
    (hsrc : ∀ r ∈ srcRegs i, s.regs[r] = s'.regs[r])
    (hbuf : readsBuf i = true → ∀ a : BufIdx, readByte s.buf a.val = readByte s'.buf a.val) (hwf : Memory.wf s.buf)
    (hwf' : Memory.wf s'.buf) (h : exec i s = .next t) (h' : exec i s' = .next t') : Agree i t t' := by
  have hpoint {k : PointId} (hk : evenReg k ∈ srcRegs i ∧ oddReg k ∈ srcRegs i) : readPoint s k = readPoint s' k :=
    readPoint_congr (hsrc _ hk.1) (hsrc _ hk.2)
  cases i with
  | ldc rd c =>
    rw [exec_ldc] at h h'
    exact agree_of_finish_reg he hc rfl h h'
  | fromb rd len =>
    rw [exec_fromb] at h h'
    rw [fromBytes_congr (hbuf rfl)] at h
    exact agree_of_finish_reg he hc rfl h h'
  | tob rs =>
    rw [exec_tob] at h h'
    cases h; cases h'
    refine ⟨he, hc, fun _ => ⟨nofun, nofun, fun _ _ a => ?_, nofun⟩⟩
    dsimp only
    rw [hsrc rs (by simp [srcRegs])]
    exact readByte_memWrite_congr hwf hwf' le_rfl a.isLt
  | bitseq =>
    rw [exec_bitseq] at h h'
    cases h; cases h'
    exact ⟨he, hc, fun _ => ⟨nofun, nofun, nofun, fun _ => congrArg bitSeq (bufBytes_congr (hbuf rfl))⟩⟩
  | addm rd rs1 rs2 rm => exact agree_of_field (f := addMod) he hc rfl hsrc h h'
  | subm rd rs1 rs2 rm => exact agree_of_field (f := subMod) he hc rfl hsrc h h'
  | mulm rd rs1 rs2 rm => exact agree_of_field (f := mulMod) he hc rfl hsrc h h'
  | expm rd rs1 rs2 rm => exact agree_of_field (f := expMod) he hc rfl hsrc h h'
  | divm rd rs1 rs2 rm => exact agree_of_field (f := divMod) he hc rfl hsrc h h'
  | ldzp qd =>
    rw [exec_ldzp] at h h'
    exact agree_of_finish_point he hc rfl h h'
  | iszp qs =>
    rw [exec_iszp, ← isZeroPoint_readPoint] at h h'
    rw [hpoint (by simp [srcRegs])] at h
    cases h; cases h'
    exact ⟨he, hc, fun _ => ⟨nofun, fun _ _ => rfl, nofun, nofun⟩⟩
  | padd qd qs1 qs2 =>
    rw [exec_padd] at h h'
    rw [hpoint (k := qs1) (by simp [srcRegs]), hpoint (k := qs2) (by simp [srcRegs])] at h
    exact agree_of_finish_point he hc rfl h h'
  | pdbl qd qs =>
    rw [exec_pdbl] at h h'
    rw [hpoint (by simp [srcRegs])] at h
    exact agree_of_finish_point he hc rfl h h'
  | smul qd rs =>
    rw [exec_smul] at h h'
    rw [hsrc rs (by simp [srcRegs])] at h
    exact agree_of_finish_point he hc rfl h h'
  | clrerr =>
    rw [exec_clrerr] at h h'
    cases h; cases h'
    exact ⟨rfl, rfl, fun _ => ⟨nofun, nofun, nofun, nofun⟩⟩

/-- Settles O32: command by command, the computed value is the same function of the sources. -/
theorem sourcesDetermineTheResult : Obligations.SourcesDetermineTheResult :=
  fun _ _ _ _ _ hsrc hbuf hwf hwf' he he' hc hc' h h' =>
    exec_agree (he.trans he'.symm) (hc.trans hc'.symm) hsrc hbuf hwf hwf' h h'

end Sys2Proof.Machine
end

section
/-! The state after reset and the point views (10_state.md R11, R22). -/

namespace Sys2Proof.Machine

open Expect

/-- Settles O7. -/
theorem resetState : Obligations.ResetState := by
  refine ⟨readReg_reset, fun k => ?_, rfl, rfl, rfl, rfl, rfl, rfl, fun _ => rfl, fun k => ?_⟩
  · simp [readPoint, sentinel]
  · simp [State.reset]

/-- A step of the host's write of a register while the block is idle makes the write. -/
theorem step_writeReg {s : State} {i : RegId} {v : Word} {ms : List Move} (hb : s.busy = false)
    (hm : s.moves = .host (.writeReg i v) :: ms) : step s = .next (writeReg s.popMove i v) := by
  rw [step_of_hostDoes (x := .writeReg i v) (by rw [hostDoes, hm]; rfl), hostTxn, hostWriteReg, popMove_busy, hb,
    if_neg Bool.false_ne_true]

/-- A write of the even register writes the view's x alone. -/
theorem readPoint_writeReg_even (s : State) (k : PointId) (v : Word) : readPoint (writeReg s (evenReg k) v) k = ⟨v, yOf s k⟩ := by
  rw [readPoint, readReg_writeReg_same, readReg_writeReg_other s v (evenReg_ne_oddReg k k).symm]; rfl

/-- A write of the odd register writes the view's y alone. -/
theorem readPoint_writeReg_odd (s : State) (k : PointId) (v : Word) : readPoint (writeReg s (oddReg k) v) k = ⟨xOf s k, v⟩ := by
  rw [readPoint, readReg_writeReg_same, readReg_writeReg_other s v (evenReg_ne_oddReg k k)]; rfl

/-- Settles O33. -/
theorem pointViewsAreAliases : Obligations.PointViewsAreAliases := by
  refine ⟨readPoint_eq, fun s k v ms hb hm => ⟨_, step_writeReg hb hm, readPoint_writeReg_even _ k v⟩,
    fun s k v ms hb hm => ⟨_, step_writeReg hb hm, readPoint_writeReg_odd _ k v⟩, writePoint_regs, fun s k => ?_⟩
  rw [readPoint_eq, sentinel, Point.mk.injEq]; rfl

end Sys2Proof.Machine
end

section
/-! The ROM's constants are the curve's (10_state.md R20; 42_point_curve.md R100): the generator's order is found by running the model's own bit walk of
R108 on the scalar before it. -/

namespace Sys2Proof.Machine

open Expect

/-- What a walk that ends without an error computes: if `R m acc` says that `acc` stands for the number `m`, and doubling and adding keep `R` where they
do not fail, then the result stands for the number of the bits. -/
theorem walkBits_ok_spec {α : Type} {dbl add : α → Except CmdError α} {R : Nat → α → Prop}
    (hdbl : ∀ m acc acc', R m acc → dbl acc = .ok acc' → R (2 * m) acc')
    (hadd : ∀ m acc acc', R m acc → add acc = .ok acc' → R (m + 1) acc')
    (bs : List Bool) (started : Bool) (m : Nat) (acc acc' : α) (hm : started = false → m = 0) (hacc : R m acc)
    (h : walkBits dbl add bs started acc = .ok acc') : R (bs.foldl (fun n b => 2 * n + b.toNat) m) acc' := by
  induction bs generalizing started m acc with
  | nil => cases h; exact hacc
  | cons b bs ih =>
    rw [walkBits] at h
    cases h1 : (if started then dbl acc else Except.ok acc) with
    | error e => rw [h1] at h; cases h
    | ok acc1 =>
      rw [h1, except_ok_bind] at h
      have hR1 : R (2 * m) acc1 := by
        cases started with
        | true => exact hdbl m acc acc1 hacc h1
        | false => cases h1; simpa [hm rfl] using hacc
      cases h2 : (if b then add acc1 else Except.ok acc1) with
      | error e => rw [h2] at h; cases h
      | ok acc2 =>
        rw [h2, except_ok_bind] at h
        have hR2 : R (2 * m + b.toNat) acc2 := by
          cases b with
          | true => exact hadd _ acc1 acc2 hR1 h2
          | false => cases h2; exact hR1
        refine ih (started || b) _ acc2 (fun hsb => ?_) hR2 h
        obtain ⟨hs, rfl⟩ := Bool.or_eq_false_iff.mp hsb
        simp [hm hs]

section

variable [Fact secpP.Prime]

/-- `AddPoints` of points of the curve, where it does not fail, is their group sum (R106). -/
theorem addPoints_ok_represents {p1 p2 pt : Point} {g1 g2 : secpCurve.Point} (r1 : Represents p1 g1) (r2 : Represents p2 g2)
    (h : addPoints p1 p2 = .ok pt) : Represents pt (g1 + g2) := by
  rw [addPoints_eq] at h
  have h' := h
  rw [chordSum] at h
  split_ifs at h with h1 h2 hy hx
  · cases h
    rw [r1.sentinel_iff.mp ((isZeroPoint_iff _).mp h1), zero_add]
    exact r2
  · cases h
    rw [r2.sentinel_iff.mp ((isZeroPoint_iff _).mp h2), add_zero]
    exact r1
  · rw [isZeroPoint_iff] at h1 h2
    cases g1 with
    | zero => exact absurd (r1.sentinel_iff.mpr rfl) h1
    | some x1 y1 n1 =>
      cases g2 with
      | zero => exact absurd (r2.sentinel_iff.mpr rfl) h2
      | some x2 y2 n2 =>
        obtain ⟨_, _, e1, _⟩ := r1.coords
        obtain ⟨_, _, e2, _⟩ := r2.coords
        have hne : x1 ≠ x2 := by
          rw [← cast_eq_zero_iff, subP_cast, e1, e2] at hx
          exact sub_ne_zero.mp hx
        obtain ⟨pt', hpt, r⟩ := chordSum_represents r1 r2 hy hne
        cases hpt.symm.trans h'
        exact r

/-- `PrToPub`, where it does not fail, is scalar multiplication of the generator (R108). -/
theorem prToPub_ok_represents {k : Word} {pt : Point} {g : secpCurve.Point} (hg : Represents generator g)
    (h : prToPub k = .ok pt) : Represents pt (k.toNat • g) := by
  have hR := walkBits_ok_spec (R := fun m acc => Represents acc (m • g)) (fun m acc acc' hr hd => ?_) (fun m acc acc' hr ha => ?_)
    (bits k).toList false 0 sentinel pt (fun _ => rfl) (by rw [zero_nsmul]; exact represents_zero) h
  · rwa [← bitsValue, bitsValue_bits] at hR
  · obtain ⟨pt', hpt, r⟩ := tangentDouble_represents hr
    rw [doublePoint_eq] at hd
    cases hpt.symm.trans hd
    rwa [two_mul, add_nsmul]
  · rw [succ_nsmul]
    exact addPoints_ok_represents hr hg ha

/-- Two points of the curve with the same x and opposite y sum to the identity. -/
theorem Represents.add_eq_zero {p q : Point} {g h : secpCurve.Point} (rp : Represents p g) (rq : Represents q h)
    (hp : p ≠ sentinel) (hq : q ≠ sentinel) (hx : p.x = q.x) (hy : (p.y.toNat + q.y.toNat) % curveP.toNat = 0) : g + h = 0 := by
  cases g with
  | zero => exact absurd (rp.sentinel_iff.mpr rfl) hp
  | some x y n =>
    cases h with
    | zero => exact absurd (rq.sentinel_iff.mpr rfl) hq
    | some x' y' n' =>
      obtain ⟨_, _, ex, ey⟩ := rp.coords
      obtain ⟨_, _, ex', ey'⟩ := rq.coords
      rw [← cast_eq_zero_iff, Nat.cast_add, ey, ey'] at hy
      refine WeierstrassCurve.Affine.Point.add_of_Y_eq (by rw [← ex, ← ex', hx]) ?_
      rw [secp_negY]
      exact eq_neg_of_add_eq_zero_left hy

end

/-- The walk of the scalar `n - 1` ends at the negation of the generator. -/
theorem prToPub_constN_sub_one : prToPub (constN - 1) = .ok ⟨constGX, constP - constGY⟩ := by
  rw [prToPub_eq]; decide +kernel

/-- The generator's order is `C[3]`: `n - 1` times the generator is its negation, and `n` is prime. -/
theorem addOrderOf_generator [Fact secpP.Prime] {g : secpCurve.Point} (hg : Represents generator g) :
    addOrderOf g = constN.toNat := by
  have hne : generator ≠ sentinel := by decide
  have hsum : (constN - 1).toNat • g + g = 0 :=
    (prToPub_ok_represents hg prToPub_constN_sub_one).add_eq_zero hg (by decide) hne rfl (by decide +kernel)
  have hn : constN.toNat = (constN - 1).toNat + 1 := by decide
  have : Fact (Nat.Prime constN.toNat) := ⟨secpN_prime⟩
  refine addOrderOf_eq_prime (by rw [hn, succ_nsmul, hsum]) fun h0 => hne (hg.sentinel_iff.mpr h0)

/-- Settles O56: the values by computation, the primes by `curveP_prime` and `secpN_prime`, the order by the walk. -/
theorem romConstantsAreTheCurves : Obligations.RomConstantsAreTheCurves := by
  refine ⟨⟨rfl, rfl, rfl, rfl, rfl, rfl⟩, rfl, rfl, by decide, secpP_eq.symm, curveP_prime, secpN_prime, by decide +kernel, by decide,
    fun [_] => ?_⟩
  obtain ⟨_, hg⟩ := represents_of_equation (pt := generator) (by decide +kernel) (by decide +kernel) (by decide +kernel)
  exact ⟨_, hg, addOrderOf_generator hg⟩

end Sys2Proof.Machine
end

section
/-! The host port and the core's turn: what each transaction does while BUSY is 0 and while it is 1, what a step and a run of them leave, and that a run of
any moves is finished (20_memory.md R33 to R38, R40, R44). -/

namespace Sys2Proof.Machine

open Expect

/-! ## The transactions that BUSY and ERR gate (R34, R36) -/

section
variable {s : State} {i : RegId} {v : Word} {a : BufIdx} {b : Byte} {w : CmdWord}

theorem hostWriteReg_of_busy (hb : s.busy = true) : hostWriteReg s i v = s := if_pos hb

theorem hostWriteReg_of_idle (hb : s.busy = false) : hostWriteReg s i v = writeReg s i v :=
  if_neg (by simp [hb])

theorem hostWriteBuf_of_busy (hb : s.busy = true) : hostWriteBuf s a b = s := if_pos hb

theorem hostWriteBuf_of_idle (hb : s.busy = false) :
    hostWriteBuf s a b = { s with buf := writeByte s.buf a.val b } := if_neg (by simp [hb])

theorem hostIssue_of_busy (hb : s.busy = true) : hostIssue s w = s := if_pos hb

/-- While ERR is 1 every word but `CLRERR` is dropped. -/
theorem hostIssue_of_gated (hb : s.busy = false) (he : s.err = true) (hw : w ≠ clrerrWord) : hostIssue s w = s := by
  rw [hostIssue, hb, if_neg Bool.false_ne_true, if_pos ⟨he, hw⟩]

/-- Any word is latched while ERR is 0, and `CLRERR` also while it is 1. -/
theorem hostIssue_of_accepted (hb : s.busy = false) (ha : s.err = false ∨ w = clrerrWord) :
    hostIssue s w = { s with cmdlatch := w, busy := true } := by
  have hopen : ¬(s.err = true ∧ w ≠ clrerrWord) := by
    rintro ⟨he, hw⟩
    exact ha.elim (by simp [he]) hw
  rw [hostIssue, hb, if_neg Bool.false_ne_true, if_neg hopen]

end

/-! ## Every transaction (R33, R35) -/

/-- What a read returns does not depend on CMDLATCH, on the moves to come or on the replies given. -/
theorem answer_outside (s : State) (w : CmdWord) (ms : List Move) (rs : List Reply) :
    answer { s with cmdlatch := w, moves := ms, replies := rs } = answer s := by
  funext x
  cases x <;> rfl

/-- A transaction leaves the moves to come. -/
theorem hostTxn_moves (x : HostTxn) (s : State) : (hostTxn x s).moves = s.moves := by
  have kept {p : Prop} [Decidable p] {u t : State} (ht : t.moves = u.moves) : (if p then u else t).moves = u.moves := by
    split
    · rfl
    · exact ht
  cases x with
  | reset | readStatus | readErrCmd | readReg _ | readBuf _ | readSeq _ => rfl
  | writeReg _ _ | writeBuf _ _ => exact kept rfl
  | issue _ => exact kept (kept rfl)

/-! ## The core's turn (R38) -/

theorem coreTurn_of_idle {s : State} (hb : s.busy = false) : coreTurn s = .next s := if_neg (by simp [hb])

/-- `Complete` always answers, leaves the moves to come and ends with BUSY = 0. -/
theorem complete_next (s : State) : ∃ t, complete s = .next t ∧ t.moves = s.moves ∧ t.busy = false := by
  cases hd : decode s.cmdlatch with
  | error r => exact ⟨_, complete_of_illegal hd, rfl, rfl⟩
  | ok i =>
    rw [complete_of_decode hd]
    rcases exec_cases i s with ⟨e, he⟩ | ⟨u, hw, he⟩
    · exact ⟨_, he, rfl, rfl⟩
    · obtain ⟨-, hmoves, -⟩ := hw.frame
      exact ⟨_, he, hmoves, rfl⟩

/-- The core's turn leaves the block idle, whether a command was in flight or not. -/
theorem coreTurn_next (s : State) : ∃ t, coreTurn s = .next t ∧ t.moves = s.moves ∧ t.busy = false := by
  by_cases hb : s.busy = true
  · rw [coreTurn, if_pos hb]
    exact complete_next s
  · have hb : s.busy = false := by simpa using hb
    exact ⟨s, coreTurn_of_idle hb, rfl, hb⟩

theorem CmdError.code_cases (e : CmdError) : e.code = 2 ∨ e.code = 3 ∨ e.code = 4 ∨ e.code = 5 := by cases e <;> decide

/-! ## Steps and runs (R40) -/

theorem popMove_of_nil {s : State} (h : s.moves = []) : s.popMove = s := by rw [State.popMove, h, List.tail_nil, ← h]

/-- A step whose next move is a host transaction is the transaction. -/
theorem step_host {s t : State} {x : HostTxn} {ms : List Move} (hm : s.moves = .host x :: ms)
    (ht : hostTxn x { s with moves := ms } = t) : step s = .next t := by
  rw [step_cons s _ ms hm, ← ht]
  rfl

/-- A read returns the statement's answer and has no other effect. -/
theorem step_of_answer {s : State} {x : HostTxn} {r : Reply} {ms : List Move} (hm : s.moves = .host x :: ms)
    (ha : answer s x = some r) : step s = .next { s with moves := ms, replies := r :: s.replies } := by
  refine step_host hm ?_
  cases x with
  | reset | writeReg _ _ | writeBuf _ _ | issue _ => cases ha
  | readStatus | readErrCmd | readReg _ | readBuf _ | readSeq _ => cases ha; rfl

/-- While BUSY is 1 a transaction other than reset does no more than return its answer: writes and issues are dropped. -/
theorem step_host_of_busy {s : State} {x : HostTxn} {ms : List Move} (hb : s.busy = true) (hx : x ≠ .reset)
    (hm : s.moves = .host x :: ms) : step s = .next { s with moves := ms, replies := (answer s x).toList ++ s.replies } := by
  refine step_host hm ?_
  cases x with
  | reset => exact absurd rfl hx
  | readStatus | readErrCmd | readReg _ | readBuf _ | readSeq _ => rfl
  | writeReg _ _ => exact hostWriteReg_of_busy hb
  | writeBuf _ _ => exact hostWriteBuf_of_busy hb
  | issue _ => exact hostIssue_of_busy hb

/-- A step whose next move is an accepted issue latches the word, and BUSY rises. -/
theorem step_issue {s : State} {w : CmdWord} {ms : List Move} (hb : s.busy = false) (ha : s.err = false ∨ w = clrerrWord)
    (hm : s.moves = .host (.issue w) :: ms) : step s = .next { s with cmdlatch := w, busy := true, moves := ms } :=
  step_host hm (hostIssue_of_accepted hb ha)

/-- A step answers, and uses up one move where there is one. -/
theorem step_next (s : State) : ∃ t, step s = .next t ∧ t.moves = s.moves.tail := by
  cases hm : s.moves with
  | nil =>
    obtain ⟨t, ht, hmoves, -⟩ := coreTurn_next s
    exact ⟨t, (step_nil s hm).trans ht, hmoves.trans hm⟩
  | cons m ms =>
    rw [step_cons s m ms hm]
    cases m with
    | host x => exact ⟨_, rfl, hostTxn_moves x _⟩
    | complete =>
      obtain ⟨t, ht, hmoves, -⟩ := coreTurn_next { s with moves := ms }
      exact ⟨t, ht, hmoves⟩

/-- A run begins with its first step. -/
theorem run_succ_of_step {s t : State} (h : step s = .next t) (n : Nat) :
    Sys2Proof.core.run (n + 1) s = Sys2Proof.core.run n t := by
  have run_succ {M : Host.Core} {s t : M.State} (h : M.step s = .next t) : M.run (n + 1) s = M.run n t := by
    rw [Host.Core.run, h]
  exact run_succ (M := Sys2Proof.core) h

/-- Over transactions short of reset a block with a command in flight returns the answers of the state it is in, and does nothing else. -/
theorem run_hostTxns_of_busy {xs : List HostTxn} {ms : List Move} {s : State} (hb : s.busy = true) (hx : HostTxn.reset ∉ xs)
    (hm : s.moves = xs.map Move.host ++ ms) :
    Sys2Proof.core.run xs.length s =
      .next { s with moves := ms, replies := (xs.filterMap (answer s)).reverse ++ s.replies } := by
  induction xs generalizing s with
  | nil => exact congrArg (fun l => Host.Outcome.next { s with moves := l }) hm
  | cons x xs ih =>
    obtain ⟨hne, hxs⟩ := not_or.mp (mt List.mem_cons.mpr hx)
    have hstep := step_host_of_busy (ms := xs.map Move.host ++ ms) hb (Ne.symm hne) hm
    refine ((run_succ_of_step hstep xs.length).trans (ih hb hxs rfl)).trans ?_
    rw [answer_outside s s.cmdlatch (xs.map Move.host ++ ms) ((answer s x).toList ++ s.replies)]
    cases ha : answer s x <;> simp [ha]

/-! ## The statements -/

/-- Settles O11: a read by its answer; after an accepted issue, by induction on the transactions. -/
theorem hostReadsReturnTheState : Obligations.HostReadsReturnTheState := by
  refine ⟨fun s x r ms hm ha => step_of_answer hm ha, fun s w xs ms hb ha hx hm => ?_⟩
  refine ((run_succ_of_step (step_issue hb ha hm) xs.length).trans (run_hostTxns_of_busy rfl hx rfl)).trans ?_
  rw [← answer_outside { s with busy := true } w (xs.map Move.host ++ ms) s.replies]

/-- Settles O12: by the two cases of each write, and the reads of BUF after a write of a byte. -/
theorem hostWritesRule : Obligations.HostWritesRule := by
  refine ⟨fun s i v ms hm => ⟨fun hb => ?_, fun hb => ?_⟩, fun s a b ms hm => ⟨fun hb => ?_, fun hb => ?_⟩⟩
  · exact step_host hm (hostWriteReg_of_idle hb)
  · exact step_host hm (hostWriteReg_of_busy hb)
  · exact ⟨_, step_host hm (hostWriteBuf_of_idle hb), fun ⟨hsorted, _⟩ => readByte_writeByte_same hsorted,
      fun c hc => readByte_writeByte_other hc⟩
  · exact step_host hm (hostWriteBuf_of_busy hb)

/-- Settles O14: the issue leaves a block whose next step completes the word. -/
theorem issuedCommandRuns : Obligations.IssuedCommandRuns := by
  refine ⟨fun s w i ms hb ha hd hm => ⟨_, step_issue hb ha hm, step_of_decode ⟨rfl, .inr rfl⟩ hd⟩, fun s w ms hb he hw hm => ?_⟩
  have hissue := step_issue hb (.inl he) hm
  have hcomplete := step_of_illegal (s := { s with cmdlatch := w, busy := true, moves := .complete :: ms }) ⟨rfl, .inr rfl⟩ hw
  exact (run_succ_of_step hissue 1).trans (run_succ_of_step hcomplete 0)

/-- Settles O17: by induction on the moves, each step using up one, and the core's turn after the last. -/
theorem everyRunFinishes : Obligations.EveryRunFinishes := by
  intro s
  induction hm : s.moves generalizing s with
  | nil =>
    obtain ⟨t, ht, hmoves, hb⟩ := coreTurn_next s
    exact ⟨t, run_succ_of_step ((step_nil s hm).trans ht) 0, hmoves.trans hm, hb⟩
  | cons m ms ih =>
    obtain ⟨t, ht, hmoves⟩ := step_next s
    obtain ⟨u, hu, hfin⟩ := ih t (by rw [hmoves, hm, List.tail_cons])
    exact ⟨u, (run_succ_of_step ht (ms.length + 1)).trans hu, hfin⟩

/-- Settles O28: a fault by its code, a command's writes by their frame. -/
theorem commandEnds : Obligations.CommandEnds := by
  intro i s hi
  rcases exec_cases i s with ⟨e, he⟩ | ⟨u, hw, he⟩
  · exact ⟨_, he, rfl, .inr ⟨e.code, e.code_cases, rfl⟩⟩
  · exact ⟨_, he, rfl, .inl (hw.fault_fields hi)⟩

/-- Settles O10: by the three cases of an issue. -/
theorem issueRule : Obligations.IssueRule := by
  intro s w ms hm
  exact ⟨fun hb => step_host hm (hostIssue_of_busy hb), fun hb he hw => step_host hm (hostIssue_of_gated hb he hw),
    fun hb ha => step_issue hb ha hm⟩

/-- Settles O13: both steps complete the word, the first after its move is taken off the list. -/
theorem stepRunsTheDecodedCommand : Obligations.StepRunsTheDecodedCommand := by
  refine ⟨fun s i ms hb hd => ⟨fun hm => ?_, fun hm => ?_⟩, fun s ms hb hw => ⟨fun hm => ?_, fun hm => ?_⟩⟩
  · rw [step_of_decode ⟨hb, .inr (by rw [hm]; rfl)⟩ hd, popMove_of_moves hm]
  · rw [step_of_decode ⟨hb, .inl hm⟩ hd, popMove_of_nil hm]
  · rw [step_of_illegal ⟨hb, .inr (by rw [hm]; rfl)⟩ hw, popMove_of_moves hm]; rfl
  · rw [step_of_illegal ⟨hb, .inl hm⟩ hw, popMove_of_nil hm]; rfl

/-- Settles O15: the placed word is in flight and its `Complete` is the next move. -/
theorem placedWordRunsNext : Obligations.PlacedWordRunsNext := by
  intro s nbits w i h
  have hd : decode (tableWord nbits w) = .ok i := by
    rw [decodeTableWord] at h
    cases hd : decode (tableWord nbits w) with
    | ok j => rw [hd] at h; cases h; rfl
    | error r => rw [hd] at h; cases h
  exact step_of_decode (s := s.withFetchWord nbits w) ⟨rfl, .inr rfl⟩ hd

/-- Settles O18: the core's turn in an idle block is null. -/
theorem idleBlockHoldsItsState : Obligations.IdleBlockHoldsItsState := fun s ms hb =>
  ⟨fun hm => (step_cons s _ ms hm).trans (coreTurn_of_idle (s := { s with moves := ms }) hb),
    fun hm => (step_nil s hm).trans (coreTurn_of_idle hb)⟩

end Sys2Proof.Machine
end

section
/-! The encoding (30_encoding.md R51 to R56): a word stands for a command exactly when it is the word of that command and the command is
well formed, and the words that stand for none are those of R56. -/

namespace Sys2Proof.Machine

open Expect Laws.EncodeSelects

/-! ## A command's word (R51, R52) -/

/-- Every command's row selects its word, when the command is well formed, and builds the command back. -/
theorem rowOf_selects_encode (i : Instr) : Statement i := by
  cases i with
  | ldc rd c => exact ldc rd c
  | fromb rd len => exact fromb rd len
  | tob rs => exact tob rs
  | bitseq => exact bitseq
  | addm rd rs1 rs2 rm => exact addm rd rs1 rs2 rm
  | subm rd rs1 rs2 rm => exact subm rd rs1 rs2 rm
  | mulm rd rs1 rs2 rm => exact mulm rd rs1 rs2 rm
  | expm rd rs1 rs2 rm => exact expm rd rs1 rs2 rm
  | divm rd rs1 rs2 rm => exact divm rd rs1 rs2 rm
  | ldzp qd => exact ldzp qd
  | iszp qs => exact iszp qs
  | padd qd qs1 qs2 => exact padd qd qs1 qs2
  | pdbl qd qs => exact pdbl qd qs
  | smul qd rs => exact smul qd rs
  | clrerr => exact clrerr

/-- The decoder finds the command's row, which builds the command back from its word. -/
theorem decode_encode {i : Instr} (hwf : i.wellFormed = true) : decode (encode i) = .ok i := by
  obtain ⟨hsel, hbuild⟩ := rowOf_selects_encode i hwf
  rw [decode_of_selects (rowOf_mem i) hsel, hbuild]

@[simp] theorem regBits_toNat (r : RegId) : (regBits r).toNat = r.val := by
  rw [regBits, BitVec.toNat_ofNat, Nat.mod_eq_of_lt r.isLt]

@[simp] theorem pointBits_toNat (q : PointId) : (pointBits q).toNat = q.val := by
  rw [pointBits, BitVec.toNat_ofNat, Nat.mod_eq_of_lt (q.isLt.trans (by decide))]

/-- A word is a packed word exactly when it has its six fields. -/
theorem packFields_eq_iff {o : BitVec 8} {fd f1 f2 fm : BitVec 4} {c : BitVec 8} {w : CmdWord} :
    packFields o fd f1 f2 fm c = w ↔
      op w = o.toNat ∧ d w = fd.toNat ∧ s1 w = f1.toNat ∧ s2 w = f2.toNat ∧ m w = fm.toNat ∧ imm w = c.toNat := by
  constructor
  · rintro rfl
    exact ⟨congrArg _ (opField_packFields ..), congrArg _ (dField_packFields ..), congrArg _ (s1Field_packFields ..),
      congrArg _ (s2Field_packFields ..), congrArg _ (mField_packFields ..), congrArg _ (immField_packFields ..)⟩
  · rintro ⟨ho, hd, h1, h2, hm, hc⟩
    rw [← packFields_fields w, BitVec.eq_of_toNat_eq (x := opField w) ho, BitVec.eq_of_toNat_eq (x := dField w) hd,
      BitVec.eq_of_toNat_eq (x := s1Field w) h1, BitVec.eq_of_toNat_eq (x := s2Field w) h2,
      BitVec.eq_of_toNat_eq (x := mField w) hm, BitVec.eq_of_toNat_eq (x := immField w) hc]

/-- The fields of a command are those of its word, and for `LDC` the constraint on the index. -/
theorem fieldsAre_iff {w : CmdWord} {i : Instr} : fieldsAre w i ↔ encode i = w ∧ i.wellFormed = true := by
  cases i with
  | ldc rd c =>
    have hwf : (Instr.ldc rd c).wellFormed = true ↔ c.toNat ≤ 5 := decide_eq_true_iff
    rw [encode, packFields_eq_iff, hwf, regBits_toNat]
    constructor
    · rintro ⟨ho, hd, h1, h2, hm, hc, hle⟩
      exact ⟨⟨ho, hd, h1, h2, hm, hc⟩, hc ▸ hle⟩
    · rintro ⟨⟨ho, hd, h1, h2, hm, hc⟩, hle⟩
      exact ⟨ho, hd, h1, h2, hm, hc, hc ▸ hle⟩
  | _ => simp [fieldsAre, encode, packFields_eq_iff, Instr.wellFormed]

/-- R54: the decoder answers a command exactly for the word with its fields. -/
theorem decode_eq_ok_iff {w : CmdWord} {i : Instr} : decode w = .ok i ↔ fieldsAre w i := by
  refine ⟨fieldsAre_of_decode, fun h => ?_⟩
  obtain ⟨rfl, hwf⟩ := fieldsAre_iff.mp h
  exact decode_encode hwf

/-! ## The rows (R53, R55) -/

/-- A row selects a word by its mask and its extra constraint. -/
theorem selects_iff {r : Row} {w : CmdWord} :
    r.selects w = true ↔ w &&& r.mask = r.pattern ∧ ∀ k, r.immMax = some k → imm w ≤ k := by
  rw [Row.selects, Bool.and_eq_true, beq_iff_eq, Row.constraint]
  refine and_congr_right fun _ => ?_
  cases r.immMax with
  | none => simp
  | some k => exact decide_eq_true_iff.trans ⟨fun h _ hk => Option.some.inj hk ▸ h, fun h => h k rfl⟩

/-- Every mask covers the opcode, and the rows' opcodes differ: a word agrees with at most one row under its mask. -/
theorem row_unique {r r' : Row} (hr : r ∈ rows) (hr' : r' ∈ rows) {w : CmdWord} (h : w &&& r.mask = r.pattern)
    (h' : w &&& r'.mask = r'.pattern) : r = r' := by
  have opcode {q : Row} (hq : q ∈ rows) (hw : w &&& q.mask = q.pattern) : opField w = opField q.pattern := by
    obtain ⟨⟨hop, -, -⟩, -⟩ := fields_of_and_eq hw
    rw [← hop, rows_mask_opcode q hq]
    exact BitVec.and_allOnes.symm
  exact List.inj_on_of_nodup_map (List.pairwise_map.mpr rows_opcodes_differ) hr hr' ((opcode hr h).symm.trans (opcode hr' h'))

/-- A word that no row selects decodes to no command. -/
theorem decode_error_of_no_row {w : CmdWord} (h : ∀ r ∈ rows, r.selects w ≠ true) : ∃ e, decode w = .error e := by
  cases hd : decode w with
  | error e => exact ⟨e, rfl⟩
  | ok i =>
    obtain ⟨r, hr, hs, -⟩ := selects_of_decode hd
    exact absurd hs (h r hr)

/-! ## The illegal words (R56) -/

/-- A point field whose top bit is zero holds the number of the point view. -/
theorem toNat_eq_pointOf_of_lt {f : BitVec 4} (h : f.toNat < 8) : f.toNat = (pointOf f).val := (Nat.mod_eq_of_lt h).symm

/-- A word under none of R56's cases has the fields of the command of its opcode. -/
theorem fieldsAre_of_not_illegal {w : CmdWord} (h : ¬illegal w) : ∃ i, fieldsAre w i := by
  simp only [illegal, not_or] at h
  obtain ⟨hop, hu, hp, hc⟩ := h
  simp only [unlistedOp, not_not, List.mem_cons, List.not_mem_nil, or_false] at hop
  rcases hop with ho | ho | ho | ho | ho | ho | ho | ho | ho | ho | ho | ho | ho | ho | ho
  all_goals simp [badConstIndex, ho] at hu hp hc
  · obtain ⟨h1, h2, hm⟩ := hu
    exact ⟨.ldc (regOf (dField w)) (immField w), ho, rfl, h1, h2, hm, rfl, hc⟩
  · obtain ⟨h1, h2, hm⟩ := hu
    exact ⟨.fromb (regOf (dField w)) (immField w), ho, rfl, h1, h2, hm, rfl⟩
  · obtain ⟨hd, h2, hm, hi⟩ := hu
    exact ⟨.tob (regOf (s1Field w)), ho, hd, rfl, h2, hm, hi⟩
  · exact ⟨.bitseq, ho, hu⟩
  · exact ⟨.addm (regOf (dField w)) (regOf (s1Field w)) (regOf (s2Field w)) (regOf (mField w)), ho, rfl, rfl, rfl, rfl, hu⟩
  · exact ⟨.subm (regOf (dField w)) (regOf (s1Field w)) (regOf (s2Field w)) (regOf (mField w)), ho, rfl, rfl, rfl, rfl, hu⟩
  · exact ⟨.mulm (regOf (dField w)) (regOf (s1Field w)) (regOf (s2Field w)) (regOf (mField w)), ho, rfl, rfl, rfl, rfl, hu⟩
  · exact ⟨.expm (regOf (dField w)) (regOf (s1Field w)) (regOf (s2Field w)) (regOf (mField w)), ho, rfl, rfl, rfl, rfl, hu⟩
  · exact ⟨.divm (regOf (dField w)) (regOf (s1Field w)) (regOf (s2Field w)) (regOf (mField w)), ho, rfl, rfl, rfl, rfl, hu⟩
  · exact ⟨.ldzp (pointOf (dField w)), ho, toNat_eq_pointOf_of_lt hp, hu⟩
  · obtain ⟨hd, hrest⟩ := hu
    exact ⟨.iszp (pointOf (s1Field w)), ho, hd, toNat_eq_pointOf_of_lt hp, hrest⟩
  · obtain ⟨hd, h1, h2⟩ := hp
    exact ⟨.padd (pointOf (dField w)) (pointOf (s1Field w)) (pointOf (s2Field w)), ho, toNat_eq_pointOf_of_lt hd, toNat_eq_pointOf_of_lt h1,
      toNat_eq_pointOf_of_lt h2, hu⟩
  · obtain ⟨hd, h1⟩ := hp
    exact ⟨.pdbl (pointOf (dField w)) (pointOf (s1Field w)), ho, toNat_eq_pointOf_of_lt hd, toNat_eq_pointOf_of_lt h1, hu⟩
  · exact ⟨.smul (pointOf (dField w)) (regOf (s1Field w)), ho, toNat_eq_pointOf_of_lt hp, rfl, hu⟩
  · exact ⟨.clrerr, ho, hu⟩

/-! ## The statements -/

/-- Settles O2: command by command, its row selects its word and builds the command back. -/
theorem decodeOfEncode : Obligations.DecodeOfEncode := fun _ => decode_encode

/-- Settles O3: a word that decodes has its command's fields, and a word is its fields. -/
theorem encodeOfDecode : Obligations.EncodeOfDecode := fun _ _ h => fieldsAre_iff.mp (fieldsAre_of_decode h)

/-- Settles O4. -/
theorem decodeReadsTheFields : Obligations.DecodeReadsTheFields := fun _ _ => decode_eq_ok_iff

/-- Settles O5: the rows by their values, the search by the row that selects, the uniqueness by the opcodes. -/
theorem decodeSearchesTheTable : Obligations.DecodeSearchesTheTable := by
  refine ⟨by decide, fun w r hr hm hc => decode_of_selects hr (selects_iff.mpr ⟨hm, hc⟩), fun w h => ?_,
    fun w r hr r' hr' h h' => congrArg Row.mnemonic (row_unique hr hr' h h'), fun s i hd => complete_of_decode hd⟩
  refine decode_error_of_no_row fun r hr hs => ?_
  obtain ⟨hm, hc⟩ := selects_iff.mp hs
  obtain ⟨k, hk, hlt⟩ := h r hr hm
  exact absurd (hc k hk) (not_le.mpr hlt)

/-- Settles O6: a word under none of the cases has the fields of a command, so it decodes; a word under one of them has the fields of none. -/
theorem illegalWordsFault : Obligations.IllegalWordsFault := by
  refine ⟨fun w => ⟨?_, decode_error_of_illegal⟩, fun s h => ?_⟩
  · rintro ⟨e, he⟩
    by_contra h
    obtain ⟨i, hi⟩ := fieldsAre_of_not_illegal h
    cases he.symm.trans (decode_eq_ok_iff.mpr hi)
  · obtain ⟨r, hr⟩ := decode_error_of_illegal h
    exact complete_of_illegal hr

/-- Settles O1. -/
theorem decodesSpecWords : Obligations.DecodesSpecWords := by
  unfold Obligations.DecodesSpecWords
  decide

end Sys2Proof.Machine
end

section
/-! A command line of a program, `HostIssue` and `WAIT`, and the pseudo-command `INVM` made of two of them (30_encoding.md R59, R60;
41_field_arithmetic.md R90). -/

namespace Sys2Proof.Machine

/-! ## A command line -/

/-- A command line from an idle block without a fault: the command completes with its register result, and the read of STATUS ends the wait. -/
theorem run_issueAndWait {s : State} {i : Instr} {rd : RegId} {v : Word} {ms : List Move} (hwf : i.wellFormed = true)
    (hb : s.busy = false) (he : s.err = false) (hm : s.moves = issueAndWait i ++ ms)
    (hx : ∀ u : State, u.regs = s.regs → exec i u = .next { writeReg u rd v with busy := false }) (n : Nat) :
    ∃ t : State, Sys2Proof.core.run (n + 3) s = Sys2Proof.core.run n t ∧ t.busy = false ∧ t.err = false ∧ t.moves = ms ∧
      t.regs = s.regs.set rd v := by
  have hissue := step_issue hb (.inl he) hm
  have hcomplete := (step_of_decode (s := { s with
    cmdlatch := encode i, busy := true, moves := .complete :: .host .readStatus :: ms }) ⟨rfl, .inr rfl⟩ (decode_encode hwf)).trans (hx _ rfl)
  have hread {t : State} (ht : t.moves = .host .readStatus :: ms) := step_of_answer ht rfl
  exact ⟨_, (run_succ_of_step hissue _).trans ((run_succ_of_step hcomplete _).trans (run_succ_of_step (hread rfl) n)), rfl, he, rfl,
    rfl⟩

/-! ## The modular inverse (R84, R90) -/

/-- Fermat: `b^(p-2)` is the inverse of `b` modulo a prime `p`. -/
theorem pow_sub_two_mul_self_mod {p b : Nat} (hp : p.Prime) (h2 : 2 < p) (hb : b % p ≠ 0) : b ^ (p - 2) * b % p = 1 := by
  have hcop : b.Coprime p := ((Nat.Prime.coprime_iff_not_dvd hp).mpr fun h => hb (Nat.mod_eq_zero_of_dvd h)).symm
  have hfermat : b ^ (p - 1) % p = 1 % p := by
    rw [← Nat.totient_prime hp]
    exact Nat.ModEq.pow_totient hcop
  rw [← pow_succ, show p - 2 + 1 = p - 1 by omega, hfermat, Nat.mod_eq_of_lt hp.one_lt]

/-- `DivMod(1, b, p)` for a prime `p` above 2 is the inverse of `b`. -/
theorem divMod_one_inverts {b p : Word} (hp : Nat.Prime p.toNat) (h2 : 2 < p.toNat) (hb : b.toNat % p.toNat ≠ 0) :
    ∃ v, divMod 1 b p = .ok v ∧ v.toNat < p.toNat ∧ v.toNat * b.toNat % p.toNat = 1 := by
  have hp0 : p ≠ 0 := by rintro rfl; simp at h2
  refine ⟨_, divMod_eq h2 hb 1, ?_⟩
  rw [toNat_ofNat_mod hp0, show (1 : Word).toNat = 1 from rfl, one_mul]
  exact ⟨Nat.mod_lt _ hp.pos, by rw [Nat.mod_mul_mod, pow_sub_two_mul_self_mod hp h2 hb]⟩

/-- Settles O46: the first line puts 1 in the scratch register, the second divides it by the operand. -/
theorem invmInverts : Obligations.InvmInverts := by
  intro rd rs rm rt s hwf hb he hm hp h2 hrs
  obtain ⟨hts, htm⟩ : rt ≠ rs ∧ rt ≠ rm := by simpa [Pseudo.wellFormed] using hwf
  obtain ⟨v, hdiv, hlt, hinv⟩ := divMod_one_inverts hp h2 hrs
  obtain ⟨t, hrun, hbt, het, hmt, hregs⟩ :=
    run_issueAndWait (ms := issueAndWait (.divm rd rt rs rm)) rfl hb he hm (fun u _ => exec_ldc rt 1 u) 3
  have hdivm (u : State) (hu : u.regs = t.regs) :
      exec (.divm rd rt rs rm) u = .next { writeReg u rd v with busy := false } := by
    have hread := readReg_congr (t := writeReg s rt 1) (hu.trans hregs)
    have h1 : u.regs[rt] = 1 := (hread rt).trans (readReg_writeReg_same ..)
    have hs : u.regs[rs] = s.regs[rs] := (hread rs).trans (readReg_writeReg_other s 1 hts.symm)
    have hmod : u.regs[rm] = s.regs[rm] := (hread rm).trans (readReg_writeReg_other s 1 htm.symm)
    rw [exec_divm, h1, hs, hmod, hdiv, finish_ok]
  obtain ⟨t', hrun', hbt', het', -, hregs'⟩ := run_issueAndWait (ms := []) rfl hbt het hmt hdivm 0
  refine ⟨t', hrun.trans hrun', hbt', het', ?_⟩
  rw [show t'.regs[rd] = v from (readReg_congr hregs' rd).trans (readReg_writeReg_same t rd v)]
  exact ⟨hlt, hinv⟩

end Sys2Proof.Machine
end

section
/-! A command's word written as R51 prints it, and what a command's end leaves in the words of the statements: a register result, a fault, and the
illegal words of an opcode (30_encoding.md R51, R52, R56; 60_exceptions.md R134). -/

namespace Sys2Proof.Machine

open Expect

/-! ## A word from its fields (R51, R52) -/

/-- A register number moved to a place of a command word where its four bits fit. -/
theorem toNat_ofNat_shiftLeft_of_reg (f : Fin 16) {k : Nat} (hk : k ≤ 28) :
    (BitVec.ofNat 32 f.val <<< k).toNat = (regBits f).toNat <<< k := by
  have hf : f.val < 2 ^ 32 := f.isLt.trans (by decide)
  have hlt : f.val * 2 ^ k < 2 ^ 32 :=
    calc f.val * 2 ^ k < 2 ^ 4 * 2 ^ k := Nat.mul_lt_mul_of_pos_right f.isLt (Nat.two_pow_pos k)
      _ = 2 ^ (4 + k) := (pow_add 2 4 k).symm
      _ ≤ 2 ^ 32 := Nat.pow_le_pow_right (by decide) (by omega)
  rw [regBits_toNat, BitVec.toNat_shiftLeft, BitVec.toNat_ofNat, Nat.mod_eq_of_lt hf, Nat.shiftLeft_eq, Nat.mod_eq_of_lt hlt]

/-- The form of every `Encoding` line is the packing of the six fields. -/
theorem wordOf_eq_packFields (o : BitVec 8) (fd f1 f2 fm : Fin 16) (c : BitVec 8) :
    wordOf (o.setWidth 32 <<< 24) fd.val f1.val f2.val fm.val c.toNat =
      packFields o (regBits fd) (regBits f1) (regBits f2) (regBits fm) c := by
  have hop : (o.setWidth 32 <<< 24).toNat = o.toNat <<< 24 := by
    rw [BitVec.toNat_shiftLeft, BitVec.toNat_setWidth, Nat.shiftLeft_eq, Nat.shiftLeft_eq]
    omega
  have himm : (BitVec.ofNat 32 c.toNat).toNat = c.toNat := Nat.mod_eq_of_lt (c.isLt.trans (by decide))
  apply BitVec.eq_of_toNat_eq
  simp only [wordOf, packFields, BitVec.toNat_or, BitVec.toNat_append, Nat.shiftLeft_or_distrib, ← Nat.shiftLeft_add, hop, himm]
  simp only [toNat_ofNat_shiftLeft_of_reg, Nat.reduceLeDiff]

/-- A well-formed command is what the decoder reads from its `Encoding` line. -/
theorem decode_wordOf {i : Instr} (o : BitVec 8) (fd f1 f2 fm : Fin 16) (c : BitVec 8) (hwf : i.wellFormed = true)
    (h : encode i = packFields o (regBits fd) (regBits f1) (regBits f2) (regBits fm) c) :
    decode (wordOf (o.setWidth 32 <<< 24) fd.val f1.val f2.val fm.val c.toNat) = .ok i := by
  rw [wordOf_eq_packFields, ← h, decode_encode hwf]

/-! ## The end of a command (R38, R56, R134) -/

/-- A register command that computes a value leaves the register result. -/
theorem finish_reg_ok (s : State) (rd : RegId) (v : Word) :
    finish s (.ok v) (fun s v => writeReg s rd v) = .next (withReg s rd v) := rfl

@[simp] theorem withReg_buf (s : State) (rd : RegId) (v : Word) : (withReg s rd v).buf = s.buf := rfl

@[simp] theorem withReg_regs_same (s : State) (rd : RegId) (v : Word) : (withReg s rd v).regs[rd] = v :=
  readReg_writeReg_same s rd v

/-- A command that computes an error leaves the fault of the error's code. -/
theorem finish_error_withFault {α : Type} (s : State) (e : CmdError) (write : State → α → State) :
    finish s (.error e) write = .next (withFault s e.code) := rfl

/-- The illegal words of an opcode are illegal words. -/
theorem illegalFaults_opcode (o : Nat) : illegalFaults o := fun s _ h => illegalWordsFault.2 s h

end Sys2Proof.Machine
end

section
/-! The constant and conversion commands (40_conversion_bitseq.md R70 to R78): the ROM entry of an index, and the bytes of BUF as digits, bytes and bits of
a word. -/

namespace Sys2Proof.Machine

open Expect

/-! ## The constant ROM (R20, R70) -/

theorem rom_eq_constants (c : Fin 6) : rom c = constants[c.val]'c.isLt := by
  revert c
  decide

theorem romAt_of_le {c : BitVec 8} (h : c.toNat ≤ 5) :
    romAt c = some (constants[c.toNat]'(by simp [constants]; omega)) := by
  rw [romAt, dif_pos (by omega)]
  exact congrArg some (rom_eq_constants ⟨c.toNat, by omega⟩)

theorem romAt_of_gt {c : BitVec 8} (h : 5 < c.toNat) : romAt c = none := dif_neg (by omega)

/-! ## BUF and a word (R72, R74, R76) -/

/-- What `MemRead` reads, as the sum of R72. -/
theorem memRead_eq_sum (m : List Host.Cell) (a n : Nat) :
    memRead m a n = ∑ i ∈ Finset.range n, (readByte m (a + i)).toNat * 256 ^ (n - 1 - i) := by
  induction n with
  | zero => rfl
  | succ n ih =>
    rw [memRead, ih, Finset.sum_range_succ, Finset.sum_mul, Nat.add_sub_cancel, Nat.sub_self, pow_zero, mul_one]
    refine congrArg (· + _) (Finset.sum_congr rfl fun i hi => ?_)
    have hi := Finset.mem_range.mp hi
    rw [mul_assoc, ← pow_succ, show n - 1 - i + 1 = n - i by omega]

theorem fromBytes_ok {m : List Host.Cell} {len : Nat} (h : len ≤ 32) :
    fromBytes m len = .ok (BitVec.ofNat 256 (memRead m 0 len)) := if_neg (not_lt.mpr h)

theorem exec_fromb_of_le (rd : RegId) (s : State) {len : BitVec 8} (h : len.toNat ≤ 32) :
    exec (.fromb rd len) s = .next (withReg s rd (BitVec.ofNat 256 (memRead s.buf 0 len.toNat))) := by
  rw [exec_fromb, fromBytes_ok h, finish_reg_ok]

/-- The big-endian digit `k` from the end is the byte at bit `8 k`. -/
theorem ofNat_div_pow_eq_extractLsb' (v : Word) (k : Nat) : BitVec.ofNat 8 (v.toNat / 256 ^ k) = v.extractLsb' (8 * k) 8 := by
  rw [BitVec.extractLsb', Nat.shiftRight_eq_div_pow, pow_mul, show 2 ^ 8 = 256 from rfl]

/-- The byte `a` of BUF after a whole word is written (R74). -/
theorem readByte_memWrite_word {m : List Host.Cell} (hm : Memory.wf m) (v : Word) {a : Nat} (ha : a < 32) :
    readByte (memWrite m 0 32 v.toNat) a = v.extractLsb' (8 * (31 - a)) 8 := by
  have h := readByte_memWrite (v := v.toNat) hm (by decide : 0 + 32 ≤ Config.bufLen) ha
  rwa [Nat.zero_add, ofNat_div_pow_eq_extractLsb'] at h

/-- Item `k` of `BitSeq(BUF[0..31])` as arithmetic (R76). -/
theorem bitSeq_bufBytes_getElem (m : List Host.Cell) (k : SeqIdx) :
    (bitSeq (bufBytes m))[k] = decide ((readByte m (k.val / 8)).toNat / 2 ^ (7 - k.val % 8) % 2 = 1) := by
  have h : (bitSeq (bufBytes m))[k] = (readByte m (k.val / 8)).getLsbD (7 - k.val % 8) := by
    rw [Fin.getElem_fin, bitSeq_getElem _ _ k.isLt, bufBytes_getElem]
  rw [h, BitVec.getLsbD, Nat.testBit_eq_decide_div_mod_eq]

/-! ## The round trips (R78) -/

/-- A whole word written to BUF reads back. -/
theorem fromBytes_memWrite_word {m : List Host.Cell} (hm : Memory.wf m) (v : Word) :
    fromBytes (memWrite m 0 Config.bufLen v.toNat) Config.bufLen = .ok v := by
  have hv : v.toNat % 256 ^ 32 = v.toNat := Nat.mod_eq_of_lt (v.isLt.trans_eq (by norm_num))
  rw [fromBytes_ok le_rfl, memRead_memWrite hm (by decide), hv, BitVec.ofNat_toNat, BitVec.setWidth_eq]

/-- The whole word that BUF holds, written back, leaves BUF as it was. -/
theorem memWrite_ofNat_memRead_word {m : List Host.Cell} (hm : Memory.wf m) :
    memWrite m 0 Config.bufLen (BitVec.ofNat 256 (memRead m 0 Config.bufLen)).toNat = m := by
  have hlt : memRead m 0 Config.bufLen < 2 ^ 256 := (memRead_lt m 0 Config.bufLen).trans_eq (by norm_num)
  rw [BitVec.toNat_ofNat, Nat.mod_eq_of_lt hlt, memWrite_memRead hm (by decide)]

/-! ## The statements -/

/-- Settles O34. -/
theorem ldcLoadsAConstant : Obligations.LdcLoadsAConstant := by
  refine ⟨fun rd c s h => ⟨?_, ?_⟩, illegalFaults_opcode _⟩
  · exact decode_wordOf 0x01 rd 0 0 0 c (decide_eq_true h) rfl
  · rw [exec_ldc, romAt_of_le h]
    exact finish_reg_ok s rd _

/-- Settles O35. -/
theorem ldcValueAboveFiveFaults : Obligations.LdcValueAboveFiveFaults := fun rd c s h => by
  rw [exec_ldc, romAt_of_gt h]
  exact finish_error_withFault s .illegalCommand _

/-- Settles O36: the length test of R72, and `MemRead` as a sum. -/
theorem frombReadsTheBuffer : Obligations.FrombReadsTheBuffer := by
  refine ⟨fun rd len s => ⟨?_, fun h => ?_, fun h => ?_⟩, illegalFaults_opcode _⟩
  · exact decode_wordOf 0x02 rd 0 0 0 len rfl rfl
  · rw [exec_fromb_of_le rd s h, memRead_eq_sum]
    simp only [Nat.zero_add]
  · rw [exec_fromb, fromBytes_error h]
    exact finish_error_withFault s .valueTooLarge _

/-- Settles O37. -/
theorem tobWritesTheBuffer : Obligations.TobWritesTheBuffer := by
  refine ⟨fun rs s => ⟨?_, _, exec_tob rs s, ?_, ?_, ?_⟩, illegalFaults_opcode _⟩
  · exact decode_wordOf 0x03 0 rs 0 0 0 rfl rfl
  · exact fun hm a ha => readByte_memWrite_word hm _ ha
  · exact fun a ha => readByte_memWrite_other (.inr ((Nat.zero_add 32).trans_le ha))
  · exact fun hm => memWrite_wf hm (by decide)

/-- Settles O38. -/
theorem bitseqExpandsTheBuffer : Obligations.BitseqExpandsTheBuffer := by
  refine ⟨fun s => ⟨?_, _, exec_bitseq s, bitSeq_bufBytes_getElem s.buf⟩, illegalFaults_opcode _⟩
  exact decode_wordOf 0x04 0 0 0 0 0 rfl rfl

/-- Settles O39: `MemRead` after `MemWrite` of a whole word, and `MemWrite` after `MemRead`. -/
theorem byteRoundTrips : Obligations.ByteRoundTrips := by
  have hlen : (32 : BitVec 8).toNat = Config.bufLen := rfl
  refine ⟨fun rs rd s hm => ⟨_, exec_tob rs s, ?_⟩, fun rd s hm => ⟨_, exec_fromb_of_le rd s hlen.le, _, exec_tob rd _, ?_⟩⟩
  · rw [exec_fromb, hlen, fromBytes_memWrite_word hm, finish_reg_ok]
  · simp only [withReg_buf, withReg_regs_same, hlen, memWrite_ofNat_memRead_word hm]

end Sys2Proof.Machine
end

section
/-! The field commands (41_field_arithmetic.md R80 to R84, R86, R89): what a command with a modulus leaves, the laws of the field functions, and the
bit walk's count of its own operations. -/

namespace Sys2Proof.Machine

open Expect

/-! ## A command that divides by a modulus (R80 to R83) -/

/-- The end of a command whose computation gives a value for a modulus that is not zero, and `DivisionUndefined` for the modulus zero. -/
theorem finish_of_modulus {s : State} {rd rm : RegId} {r : Except CmdError Word} {v : Word} (hv : s.regs[rm] ≠ 0 → r = .ok v)
    (h0 : s.regs[rm] = 0 → r = .error .divisionUndefined) :
    (s.regs[rm] ≠ 0 → finish s r (fun s v => writeReg s rd v) = .next (withReg s rd v)) ∧
    (s.regs[rm] = 0 → finish s r (fun s v => writeReg s rd v) = .next (withFault s 3)) := by
  refine ⟨fun h => ?_, fun h => ?_⟩
  · rw [hv h, finish_reg_ok]
  · rw [h0 h]
    exact finish_error_withFault s .divisionUndefined _

/-! ## The laws (R89) -/

/-- The remainder of two numbers is the remainder of their words. -/
theorem ofNat_toNat_mod (a p : Word) : BitVec.ofNat 256 (a.toNat % p.toNat) = a % p := by
  rw [← BitVec.toNat_umod, BitVec.ofNat_toNat, BitVec.setWidth_eq]

theorem subMod_addMod_cancel {a b c p : Word} (hp : p ≠ 0) (h : addMod a b p = .ok c) : subMod c b p = .ok (a % p) := by
  obtain rfl := Except.ok.inj ((addMod_eq hp a b).symm.trans h)
  have hsub : (((a.toNat + b.toNat) % p.toNat : Nat) - b.toNat : Int) % p.toNat = (a.toNat % p.toNat : Nat) := by
    push_cast
    rw [Int.emod_sub_emod, add_sub_cancel_right]
  rw [subMod_eq_int hp, toNat_ofNat_mod hp, hsub, BitVec.ofInt_natCast, ofNat_toNat_mod]

theorem mulMod_comm (a b p : Word) : mulMod a b p = mulMod b a p := by
  rw [mulMod_eq_mulClosed, mulMod_eq_mulClosed, mulClosed, mulClosed, Nat.mul_comm]

theorem expMod_zero_exponent {p : Word} (hp : p ≠ 0) (a : Word) : expMod a 0 p = .ok (1 % p) := by
  rw [expMod_eq hp, show (0 : Word).toNat = 0 from rfl, pow_zero]
  exact congrArg _ (ofNat_toNat_mod 1 p)

/-- Division by a divisor prime to a prime modulus is undone by multiplication: Fermat's inverse cancels the divisor. -/
theorem mulMod_divMod_cancel {b p : Word} (hp : Nat.Prime p.toNat) (h2 : 2 < p.toNat) (hb : b.toNat % p.toNat ≠ 0) (a : Word) :
    ∃ q, divMod a b p = .ok q ∧ mulMod q b p = .ok (a % p) := by
  have hp0 : p ≠ 0 := by rintro rfl; simp at h2
  have hinv : a.toNat * b.toNat ^ (p.toNat - 2) % p.toNat * b.toNat % p.toNat = a.toNat % p.toNat := by
    rw [Nat.mod_mul_mod, mul_assoc, ← Nat.mul_mod_mod, pow_sub_two_mul_self_mod hp h2 hb, mul_one]
  exact ⟨_, divMod_eq h2 hb a, by rw [mulMod_eq hp0, toNat_ofNat_mod hp0, hinv, ofNat_toNat_mod]⟩

/-! ## The operations of a walk (R86) -/

/-- `Dbl` that counts itself in the first component. -/
def countDbl (n : Nat × Nat) : Except CmdError (Nat × Nat) := .ok (n.1 + 1, n.2)

/-- `Add` that counts itself in the second component. -/
def countAdd (n : Nat × Nat) : Except CmdError (Nat × Nat) := .ok (n.1, n.2 + 1)

/-- Leading zeros start nothing. -/
theorem walkBits_of_no_true {α : Type} (dbl add : α → Except CmdError α) {bs : List Bool} (h : true ∉ bs) (acc : α) :
    walkBits dbl add bs false acc = .ok acc := by
  induction bs with
  | nil => rfl
  | cons b bs ih =>
    cases b with
    | true => exact absurd List.mem_cons_self h
    | false => exact ih fun hbs => h (List.mem_cons_of_mem _ hbs)

/-- A further bit makes a non-zero number one bit longer. -/
theorem log2_two_mul_add_toNat {m : Nat} (hm : m ≠ 0) (b : Bool) : (2 * m + b.toNat).log2 = m.log2 + 1 := by
  have hb := b.toNat_lt
  rw [Nat.log2_def, if_pos (by omega), show (2 * m + b.toNat) / 2 = m by omega]

/-- One iteration of a counting walk whose bits so far stand for `m`: the doublings are one fewer than the bits of `m`, and doubling has started
exactly when `m` is not zero. -/
theorem walkBits_count_cons (b : Bool) (bs : List Bool) (m h : Nat) :
    walkBits countDbl countAdd (b :: bs) (decide (m ≠ 0)) (m.log2, h) =
      walkBits countDbl countAdd bs (decide (2 * m + b.toNat ≠ 0)) ((2 * m + b.toNat).log2, h + b.toNat) := by
  by_cases hm : m = 0
  · subst hm
    cases b <;> rfl
  · rw [log2_two_mul_add_toNat hm, decide_eq_true hm, decide_eq_true (by omega : 2 * m + b.toNat ≠ 0)]
    cases b <;> rfl

/-- A counting walk goes on from the bits that stand for `m` to the number of all the bits, and adds once for each set bit. -/
theorem walkBits_count (bs : List Bool) (m h : Nat) :
    walkBits countDbl countAdd bs (decide (m ≠ 0)) (m.log2, h) =
      .ok ((bs.foldl (fun n b => 2 * n + b.toNat) m).log2, h + bs.count true) := by
  induction bs generalizing m h with
  | nil => rfl
  | cons b bs ih =>
    rw [walkBits_count_cons, ih, List.foldl_cons, List.count_cons, Nat.add_assoc, Nat.add_comm b.toNat]
    cases b <;> rfl

/-- `Bits(v)` holds the bits of `v` in the reverse of their numbering (R77). -/
theorem bits_toList_eq_reverse (v : Word) : (bits v).toList = ((List.range 256).map v.getLsbD).reverse := by
  rw [bits_toList, ← List.map_reverse, List.range_eq_range', List.reverse_range', List.map_map, List.range_eq_range']
  rfl

theorem count_true_bits (v : Word) : (bits v).toList.count true = ((List.range 256).filter fun j => v.getLsbD j).length := by
  rw [bits_toList_eq_reverse, List.count_reverse, List.count_eq_countP, List.countP_map, ← List.countP_eq_length_filter]
  exact List.countP_congr fun j _ => by simp

/-! ## The statements -/

/-- Settles O40. -/
theorem addmAddsModulo : Obligations.AddmAddsModulo := by
  refine ⟨fun rd rs1 rs2 rm s => ⟨decode_wordOf 0x10 rd rs1 rs2 rm 0 rfl rfl, ?_⟩, illegalFaults_opcode _⟩
  rw [exec_addm]
  exact finish_of_modulus (addMod_eq · _ _) fun h => h ▸ addMod_zero _ _

/-- Settles O41. -/
theorem submSubtractsModulo : Obligations.SubmSubtractsModulo := by
  refine ⟨fun rd rs1 rs2 rm s => ⟨decode_wordOf 0x11 rd rs1 rs2 rm 0 rfl rfl, ?_⟩, illegalFaults_opcode _⟩
  rw [exec_subm]
  exact finish_of_modulus (subMod_eq_int · _ _) fun h => h ▸ subMod_zero _ _

/-- Settles O42. -/
theorem mulmMultipliesModulo : Obligations.MulmMultipliesModulo := by
  refine ⟨fun rd rs1 rs2 rm s => ⟨decode_wordOf 0x12 rd rs1 rs2 rm 0 rfl rfl, ?_⟩, illegalFaults_opcode _⟩
  rw [exec_mulm]
  exact finish_of_modulus (mulMod_eq · _ _) fun h => h ▸ mulMod_zero _ _

/-- Settles O43. -/
theorem expmExponentiates : Obligations.ExpmExponentiates := by
  refine ⟨fun rd rs1 rs2 rm s => ⟨decode_wordOf 0x13 rd rs1 rs2 rm 0 rfl rfl, ?_⟩, illegalFaults_opcode _⟩
  rw [exec_expm]
  exact finish_of_modulus (expMod_eq · _ _) fun h => h ▸ expMod_zero _ _

/-- Settles O44. -/
theorem divmDividesByFermat : Obligations.DivmDividesByFermat := by
  refine ⟨fun rd rs1 rs2 rm s => ⟨decode_wordOf 0x14 rd rs1 rs2 rm 0 rfl rfl, fun h2 hb => ?_, fun h => ?_⟩, illegalFaults_opcode _⟩
  · rw [exec_divm, divMod_eq h2 hb, finish_reg_ok]
  · rw [exec_divm, divMod_error h]
    exact finish_error_withFault s .divisionUndefined _

/-- Settles O45. -/
theorem modularLaws : Obligations.ModularLaws :=
  ⟨fun _ _ _ _ hp h => subMod_addMod_cancel hp h, mulMod_comm,
    fun a _ h1 => expMod_zero_exponent (by rintro rfl; simp at h1) a, fun a _ _ hp h2 hb => mulMod_divMod_cancel hp h2 hb a⟩

/-- Settles O47: the counting walk keeps the doublings one below the length of the bits read so far. -/
theorem walkCountsItsOperations : Obligations.WalkCountsItsOperations := by
  refine ⟨fun α acc dbl add => walkBits_of_no_true dbl add ?_ acc, fun k _ => ?_⟩
  · rw [bits_toList, List.mem_map]
    rintro ⟨k, -, hk⟩
    exact Bool.false_ne_true (BitVec.getLsbD_zero.symm.trans hk)
  · refine (walkBits_count (bits k).toList 0 0).trans ?_
    rw [← bitsValue, bitsValue_bits, count_true_bits, Nat.zero_add]

end Sys2Proof.Machine
end

section
/-! The point commands on any operands (42_point_curve.md R102 to R107): the word of a command whose fields are point views, the point result, and what
`AddPoints` and `DoublePoint` compute in each case of their tests. -/

namespace Sys2Proof.Machine

open Expect

/-! ## Point views as fields and as results (R11, R52) -/

/-- The number of a point view in its four-bit field. -/
abbrev pointField (q : PointId) : Fin 16 := q.castLE (by decide)

/-- A point command that computes a point leaves the point result. -/
theorem finish_point_ok (s : State) (qd : PointId) (p : Point) :
    finish s (.ok p) (fun s p => writePoint s qd p) = .next (withPoint s qd p.x p.y) := rfl

theorem isSentinel_iff_readPoint {s : State} {k : PointId} : isSentinel s k ↔ readPoint s k = sentinel := by
  rw [readPoint_eq, sentinel, Point.mk.injEq]

theorem isZeroPoint_of_ne {p : Point} (h : p ≠ sentinel) : isZeroPoint p = false := by
  rw [← Bool.not_eq_true, isZeroPoint_iff]
  exact h

/-! ## `AddPoints` (R106) -/

theorem addPoints_sentinel_left (p : Point) : addPoints sentinel p = .ok p := if_pos rfl

theorem addPoints_sentinel_right (p : Point) : addPoints p sentinel = .ok p := by
  by_cases h : p = sentinel
  · rw [h, addPoints_sentinel_left]
  · rw [addPoints, isZeroPoint_of_ne h, if_neg Bool.false_ne_true]
    exact if_pos rfl

/-- The chord through two points whose x are not congruent. -/
theorem addPoints_chord {p1 p2 : Point} (h1 : p1 ≠ sentinel) (h2 : p2 ≠ sentinel) (hy : p1.y ≠ p2.y)
    (hx : p1.x.toNat % secpP ≠ p2.x.toNat % secpP) :
    addPoints p1 p2 = .ok (lineP (divP (subP p1.y p2.y) (subP p1.x p2.x)) p1.x p1.y p2.x) := by
  rw [secpP_eq, Ne, ← subP_mod_eq_zero] at hx
  rw [addPoints_eq, chordSum, isZeroPoint_of_ne h1, isZeroPoint_of_ne h2, if_neg Bool.false_ne_true, if_neg Bool.false_ne_true,
    if_neg hy, if_neg hx]

/-! ## `DoublePoint` (R107) -/

theorem doublePoint_zero_y {p : Point} (hy : p.y = 0) : doublePoint p = .ok sentinel := by
  rw [doublePoint_eq, tangentDouble, if_pos hy, ite_self]

/-- A multiple of the curve prime that fits a word is 0 or the prime. -/
theorem eq_zero_or_eq_constP {y : Word} (h : y.toNat % curveP.toNat = 0) : y = 0 ∨ y = constP := by
  by_cases h0 : y.toNat = 0
  · exact .inl (BitVec.eq_of_toNat_eq h0)
  · exact .inr (BitVec.eq_of_toNat_eq
      (Nat.eq_of_dvd_of_lt_two_mul h0 (Nat.dvd_of_mod_eq_zero h) (y.isLt.trans (by decide +kernel))))

/-- `2y` is a multiple of the odd prime for the words 0 and `P` alone. -/
theorem addP_self_mod_eq_zero {y : Word} (h : (addP y y).toNat % curveP.toNat = 0) : y = 0 ∨ y = constP := by
  have : Fact secpP.Prime := ⟨secpP_prime⟩
  rw [← cast_eq_zero_iff, addP_cast, ← two_mul, mul_eq_zero, or_iff_right secp_two_ne_zero, cast_eq_zero_iff] at h
  exact eq_zero_or_eq_constP h

/-- The tangent at a point whose y is neither 0 nor `P`. -/
theorem doublePoint_tangent {p : Point} (h0 : p.y ≠ 0) (hp : p.y ≠ constP) :
    doublePoint p = .ok (lineP (divP (mulP 3 (mulP p.x p.x)) (addP p.y p.y)) p.x p.y p.x) := by
  have hs : p ≠ sentinel := by
    rintro rfl
    exact h0 rfl
  have hden : (addP p.y p.y).toNat % curveP.toNat ≠ 0 := fun h => (addP_self_mod_eq_zero h).elim h0 hp
  rw [doublePoint_eq, tangentDouble, isZeroPoint_of_ne hs, if_neg Bool.false_ne_true, if_neg h0, if_neg hden]

/-! ## The rules in the field of the curve -/

theorem fe_subP (a b : Word) : fe (subP a b) = fe a - fe b := subP_cast a b

theorem fe_mulP (a b : Word) : fe (mulP a b) = fe a * fe b := mulP_cast a b

theorem fe_addP (a b : Word) : fe (addP a b) = fe a + fe b := addP_cast a b

theorem fe_divP (a b : Word) : fe (divP a b) = fe a * fe b ^ (secpP - 2) := divP_cast_pow a b

theorem fe_three : fe 3 = 3 := by simp [fe]

/-- The end shared by the two rules gives the reduced coordinates of the statement, for a slope that is a quotient. -/
theorem lineP_lineResult (num den x1 y1 x2 : Word) :
    lineResult (fe num) (fe den) (fe x1) (fe y1) (fe x2) (lineP (divP num den) x1 y1 x2).x (lineP (divP num den) x1 y1 x2).y := by
  have hx : fe (lineP (divP num den) x1 y1 x2).x = (fe num * fe den ^ (secpP - 2)) ^ 2 - fe x1 - fe x2 := by
    simp only [lineP, fe_subP, fe_mulP, fe_divP]
    ring
  refine ⟨toNat_subP_lt _ _, toNat_subP_lt _ _, hx, ?_⟩
  rw [← fe_divP, ← fe_subP, ← fe_mulP, ← fe_subP]
  rfl

/-! ## The statements -/

/-- Settles O48. -/
theorem ldzpLoadsTheSentinel : Obligations.LdzpLoadsTheSentinel :=
  ⟨fun qd _ => ⟨decode_wordOf 0x20 (pointField qd) 0 0 0 0 rfl rfl, rfl⟩, illegalFaults_opcode _⟩

/-- Settles O49. -/
theorem iszpTestsTheSentinel : Obligations.IszpTestsTheSentinel := by
  refine ⟨fun qs s => ⟨decode_wordOf 0x21 0 (pointField qs) 0 0 0 rfl rfl, fun h => ?_, fun h => ?_⟩, illegalFaults_opcode _⟩
  · rw [exec_iszp, decide_eq_true h]
  · rw [exec_iszp, decide_eq_false h]

/-- Settles O50: the shortcuts, the two faults and the chord, each by the case of `AddPoints`. -/
theorem paddAddsByTheChord : Obligations.PaddAddsByTheChord := by
  refine ⟨fun qd qs1 qs2 s => ⟨decode_wordOf 0x22 (pointField qd) (pointField qs1) (pointField qs2) 0 0 rfl rfl, ?_⟩,
    illegalFaults_opcode _⟩
  simp only [isSentinel_iff_readPoint, exec_padd]
  refine ⟨fun h1 => ?_, fun _ h2 => ?_, fun h1 h2 hy => ?_, fun h1 h2 hy hx => ?_, fun h1 h2 hy hx => ?_⟩
  · rw [h1, addPoints_sentinel_left]
    exact finish_point_ok s qd _
  · rw [h2, addPoints_sentinel_right]
    exact finish_point_ok s qd _
  · rw [addPoints_equal_y (isZeroPoint_of_ne h1) (isZeroPoint_of_ne h2) hy]
    exact finish_error_withFault s .preconditionViolated _
  · rw [addPoints_congruent_x (isZeroPoint_of_ne h1) (isZeroPoint_of_ne h2) hy hx]
    exact finish_error_withFault s .divisionUndefined _
  · rw [addPoints_chord h1 h2 hy hx, ← fe_subP, ← fe_subP]
    exact ⟨_, _, finish_point_ok s qd _, lineP_lineResult _ _ _ _ _⟩

/-- Settles O51: the early returns, the fault and the tangent, each by the case of `DoublePoint`. -/
theorem pdblDoublesByTheTangent : Obligations.PdblDoublesByTheTangent := by
  refine ⟨fun qd qs s => ⟨decode_wordOf 0x23 (pointField qd) (pointField qs) 0 0 0 rfl rfl, ?_⟩, illegalFaults_opcode _⟩
  rw [exec_pdbl]
  refine ⟨fun hy => ?_, fun hy => ?_, fun h0 hp => ?_⟩
  · rw [doublePoint_zero_y (p := readPoint s qs) hy]
    exact finish_point_ok s qd _
  · rw [doublePoint_prime_y (pt := readPoint s qs) hy]
    exact finish_error_withFault s .divisionUndefined _
  · have hnum : 3 * fe (xOf s qs) ^ 2 = fe (mulP 3 (mulP (xOf s qs) (xOf s qs))) := by
      rw [fe_mulP, fe_mulP, fe_three, sq]
    rw [doublePoint_tangent (p := readPoint s qs) h0 hp, hnum, two_mul, ← fe_addP]
    exact ⟨_, _, finish_point_ok s qd _, lineP_lineResult _ _ _ _ _⟩

end Sys2Proof.Machine
end

section
/-! The point commands on points of the curve (42_point_curve.md R100, R106, R107, R111): no point has a zero coordinate, the points that share a y, and
the cases in which `AddPoints` is the group sum. The group is general knowledge (log 15). -/

namespace Sys2Proof.Machine

open Expect

/-! ## The coordinates of a point of the curve -/

section

variable [Fact secpP.Prime]

/-- Euler's criterion for `n`-th powers modulo the curve prime: `x^n = a` makes `a^((p-1)/n)` equal 1. -/
theorem pow_ne_natCast {n e a : Nat} (hn : n ≠ 0) (he : n * e = secpP - 1) (ha : a % secpP ≠ 0)
    (h : powMod a secpP 256 e ≠ 1) (x : ZMod secpP) : x ^ n ≠ a := by
  intro hx
  have hx0 : x ≠ 0 := by
    rintro rfl
    rw [zero_pow hn, eq_comm, cast_eq_zero_iff, ← secpP_eq] at hx
    exact ha hx
  have hpos : 0 < n := Nat.pos_of_ne_zero hn
  have hlt : e < 2 ^ 256 :=
    calc e ≤ n * e := Nat.le_mul_of_pos_left e hpos
      _ < 2 ^ 256 := he ▸ by decide +kernel
  have hone : ((a ^ e : Nat) : ZMod secpP) = (1 : Nat) := by
    rw [Nat.cast_pow, ← hx, ← pow_mul, he, ZMod.pow_card_sub_one_eq_one hx0, Nat.cast_one]
  rw [ZMod.natCast_eq_natCast_iff, Nat.ModEq, ← powMod_eq _ _ _ _ hlt] at hone
  exact h (hone.trans (Nat.mod_eq_of_lt secpP_prime.one_lt))

/-- No point of the curve has x = 0: 7 is no square. -/
theorem secp_x_ne_zero {x y : ZMod secpP} (h : y ^ 2 = x ^ 3 + 7) : x ≠ 0 := by
  rintro rfl
  refine pow_ne_natCast (n := 2) (e := (secpP - 1) / 2) (a := 7) (by decide) (by decide +kernel) (by decide +kernel) (by decide +kernel)
    y ?_
  rw [h]
  push_cast
  ring

/-- No point of the curve has y = 0: -7 is no cube. -/
theorem secp_y_ne_zero {x y : ZMod secpP} (h : y ^ 2 = x ^ 3 + 7) : y ≠ 0 := by
  rintro rfl
  refine pow_ne_natCast (n := 3) (e := (secpP - 1) / 3) (a := secpP - 7) (by decide) (by decide +kernel) (by decide +kernel)
    (by decide +kernel) x ?_
  rw [Nat.cast_sub (by decide +kernel), ZMod.natCast_self]
  push_cast
  linear_combination -h

end

/-! ## Points with equal y (R111) -/

/-- `β`, the cube root of unity modulo the curve prime that R111 prints. -/
def cubeRoot : Word := 0x7AE96A2B657C07106E64479EAC3434E99CF0497512F58995C1396C28719501EE

theorem fe_cubeRoot : fe cubeRoot ^ 2 + fe cubeRoot + 1 = 0 := by
  have h := (cast_eq_zero_iff (cubeRoot.toNat ^ 2 + cubeRoot.toNat + 1)).mpr (by decide +kernel)
  push_cast at h
  exact h

section

variable [Fact secpP.Prime]

theorem fe_cubeRoot_ne_one : fe cubeRoot ≠ 1 := fun h =>
  secp_three_ne_zero (by linear_combination fe_cubeRoot - (fe cubeRoot + 2) * h)

/-- The cube roots of a cube: `t^3 - x^3` has the factors `t - x`, `t - βx` and `t - β²x`. -/
theorem cube_eq_cube_iff (x t : ZMod secpP) : t ^ 3 = x ^ 3 ↔ t = x ∨ t = fe cubeRoot * x ∨ t = fe cubeRoot ^ 2 * x := by
  have hfactor : t ^ 3 - x ^ 3 = (t - x) * ((t - fe cubeRoot * x) * (t - fe cubeRoot ^ 2 * x)) := by
    linear_combination (t ^ 2 * x - t * x ^ 2 * fe cubeRoot + x ^ 3 * (fe cubeRoot - 1)) * fe_cubeRoot
  rw [← sub_eq_zero, hfactor, mul_eq_zero, mul_eq_zero, sub_eq_zero, sub_eq_zero, sub_eq_zero]

/-- The points of the curve with the y of a point. -/
theorem secp_equal_y_iff {x t y : ZMod secpP} (h : y ^ 2 = x ^ 3 + 7) :
    y ^ 2 = t ^ 3 + 7 ↔ t = x ∨ t = fe cubeRoot * x ∨ t = fe cubeRoot ^ 2 * x := by
  rw [← cube_eq_cube_iff, h, add_left_inj, eq_comm]

/-- The three x of a y are different: a coincidence of two of them would make `β` equal 1. -/
theorem secp_equal_y_distinct {x y : ZMod secpP} (h : y ^ 2 = x ^ 3 + 7) :
    x ≠ fe cubeRoot * x ∧ x ≠ fe cubeRoot ^ 2 * x ∧ fe cubeRoot * x ≠ fe cubeRoot ^ 2 * x := by
  have hne : x ≠ fe cubeRoot * x := fun hx =>
    fe_cubeRoot_ne_one (mul_right_cancel₀ (secp_x_ne_zero h) (hx.symm.trans (one_mul x).symm))
  refine ⟨hne, fun hx => hne ?_, fun hx => hne ?_⟩
  · linear_combination -fe cubeRoot * hx + x * (1 - fe cubeRoot) * fe_cubeRoot
  · linear_combination fe cubeRoot ^ 2 * hx + (1 - fe cubeRoot) * (x - fe cubeRoot * x) * fe_cubeRoot

/-! ## `AddPoints` in the group (R106) -/

theorem secp_equation {x y : ZMod secpP} (n : secpCurve.Nonsingular x y) : y ^ 2 = x ^ 3 + 7 := (secp_equation_iff x y).mp n.1

/-- Two points of the curve with the same x have the same y or sum to the identity. -/
theorem Represents.y_eq_or_add_eq_zero {p q : Point} {x y x' y' : ZMod secpP} {n : secpCurve.Nonsingular x y}
    {n' : secpCurve.Nonsingular x' y'} (rp : Represents p (.some x y n)) (rq : Represents q (.some x' y' n')) (hx : x = x') :
    p.y = q.y ∨ WeierstrassCurve.Affine.Point.some x y n + .some x' y' n' = 0 := by
  obtain ⟨_, hp, _, ey⟩ := rp.coords
  obtain ⟨_, hq, _, ey'⟩ := rq.coords
  have hsq : y ^ 2 = y' ^ 2 := by rw [secp_equation n, secp_equation n', hx]
  rcases sq_eq_sq_iff_eq_or_eq_neg.mp hsq with h | h
  · exact .inl ((cast_inj hp hq).mp (by rw [ey, ey', h]))
  · exact .inr (WeierstrassCurve.Affine.Point.add_of_Y_eq hx (by rw [secp_negY, h]))

/-- `AddPoints` is the group sum where an operand is the identity, or the y differ and the sum is not the identity. -/
theorem addPoints_represents {p q : Point} {g h : secpCurve.Point} (rp : Represents p g) (rq : Represents q h)
    (hs : g = 0 ∨ h = 0 ∨ (p.y ≠ q.y ∧ g + h ≠ 0)) : ∃ pt, addPoints p q = .ok pt ∧ Represents pt (g + h) := by
  suffices hok : ∃ pt, addPoints p q = .ok pt from
    hok.imp fun _ hpt => ⟨hpt, addPoints_ok_represents rp rq hpt⟩
  cases g with
  | zero => exact ⟨q, by rw [rp.sentinel_iff.mpr rfl, addPoints_sentinel_left]⟩
  | some x y n =>
    cases h with
    | zero => exact ⟨p, by rw [rq.sentinel_iff.mpr rfl, addPoints_sentinel_right]⟩
    | some x' y' n' =>
      obtain ⟨hy, hsum⟩ := (hs.resolve_left (WeierstrassCurve.Affine.Point.some_ne_zero n)).resolve_left
        (WeierstrassCurve.Affine.Point.some_ne_zero n')
      have hx : x ≠ x' := fun hx => (rp.y_eq_or_add_eq_zero rq hx).elim hy hsum
      obtain ⟨pt, hpt, _⟩ := chordSum_represents rp rq hy hx
      exact ⟨pt, (addPoints_eq p q).trans hpt⟩

/-- `AddPoints` of a point and its negation has no slope: the x are equal and the y are opposite, which differ since no y is zero. -/
theorem addPoints_of_add_eq_zero {p q : Point} {g h : secpCurve.Point} (rp : Represents p g) (rq : Represents q h)
    (hg : g ≠ 0) (hsum : g + h = 0) : addPoints p q = .error .divisionUndefined := by
  obtain rfl : h = -g := eq_neg_of_add_eq_zero_right hsum
  cases g with
  | zero => exact absurd rfl hg
  | some x y n =>
    rw [WeierstrassCurve.Affine.Point.neg_some] at rq
    obtain ⟨_, _, ex, ey⟩ := rp.coords
    obtain ⟨_, _, ex', ey'⟩ := rq.coords
    have hy : p.y ≠ q.y := fun hpq => by
      rw [← hpq, ey, secp_negY, ← sub_eq_zero, sub_neg_eq_add, ← two_mul] at ey'
      exact mul_ne_zero secp_two_ne_zero (secp_y_ne_zero (secp_equation n)) ey'
    have hx : p.x.toNat % secpP = q.x.toNat % secpP := (ZMod.natCast_eq_natCast_iff _ _ _).mp (ex.trans ex'.symm)
    exact addPoints_congruent_x (isZeroPoint_of_ne rp.ne_sentinel) (isZeroPoint_of_ne rq.ne_sentinel) hy hx

end

/-! ## The statements -/

/-- Settles O57. -/
theorem paddIsGroupAddition : Obligations.PaddIsGroupAddition := by
  intro _ g h qd qs1 qs2 s r1 r2
  rw [exec_padd]
  refine ⟨fun hs => ?_, fun hg _ hsum => ?_⟩
  · obtain ⟨pt, hpt, r⟩ := addPoints_represents r1 r2 hs
    exact ⟨pt.x, pt.y, by rw [readPoint_eq, readPoint_eq, hpt, finish_point_ok], r⟩
  · rw [readPoint_eq, readPoint_eq, addPoints_of_add_eq_zero r1 r2 hg hsum]
    exact finish_error_withFault s .divisionUndefined _

/-- Settles O58. -/
theorem pdblIsGroupDoubling : Obligations.PdblIsGroupDoubling := by
  intro _ g qd qs s r
  obtain ⟨pt, hpt, r'⟩ := tangentDouble_represents r
  exact ⟨pt.x, pt.y, by rw [exec_pdbl, readPoint_eq, doublePoint_eq, hpt, finish_point_ok], r'⟩

/-- Settles O59: the factors of a difference of cubes, the printed coordinates by computation, the fault by the test of equal y. -/
theorem pointsWithEqualY : Obligations.PointsWithEqualY := by
  refine ⟨fun x t y h => secp_equal_y_iff h, fun x y h => secp_equal_y_distinct h, by decide +kernel, by decide +kernel,
    fun qd qs1 qs2 s h1 h2 hy => ?_⟩
  rw [isSentinel_iff_readPoint] at h1 h2
  rw [exec_padd, addPoints_equal_y (isZeroPoint_of_ne h1) (isZeroPoint_of_ne h2) hy]
  exact finish_error_withFault s .preconditionViolated _

end Sys2Proof.Machine
end

section
/-! `SMUL` (42_point_curve.md R108 to R110): the walk over the scalar's bits as a recursion on the number they form, the multiple of the generator that it
computes, and the six scalars at which it stops. -/

namespace Sys2Proof.Machine

open Expect

/-! ## The walk as a recursion on the number (R108) -/

/-- `SMUL`'s walk by the number that its bits form: the double of what the leading bits give, and G added for a last bit that is 1. -/
def scalarMul (n : Nat) : Except CmdError Point :=
  n.binaryRec (.ok sentinel) fun b _ r => (r.bind doublePoint).bind fun acc => if b then addPoints acc generator else .ok acc

@[simp] theorem scalarMul_zero : scalarMul 0 = .ok sentinel := rfl

theorem doublePoint_sentinel : doublePoint sentinel = .ok sentinel := doublePoint_zero_y rfl

theorem scalarMul_bit (b : Bool) (n : Nat) : scalarMul (2 * n + b.toNat) =
    ((scalarMul n).bind doublePoint).bind fun acc => if b then addPoints acc generator else .ok acc := by
  rw [← Nat.bit_val]
  exact Nat.binaryRec_eq b n (.inl (by rw [Except.bind, doublePoint_sentinel]; rfl))

theorem scalarMul_double (n : Nat) : scalarMul (2 * n) = (scalarMul n).bind doublePoint := by
  refine (scalarMul_bit false n).trans ?_
  cases (scalarMul n).bind doublePoint <;> rfl

theorem scalarMul_double_add_one (n : Nat) : scalarMul (2 * n + 1) = (scalarMul (2 * n)).bind fun acc => addPoints acc generator := by
  rw [scalarMul_double]
  exact scalarMul_bit true n

theorem scalarMul_one : scalarMul 1 = .ok generator := by
  refine (scalarMul_double_add_one 0).trans ?_
  rw [Nat.mul_zero, scalarMul_zero, Except.bind, addPoints_sentinel_left]

/-- The first error ends the walk. -/
theorem scalarMul_foldl_of_error {e : CmdError} (bs : List Bool) {m : Nat} (h : scalarMul m = .error e) :
    scalarMul (bs.foldl (fun n b => 2 * n + b.toNat) m) = .error e := by
  induction bs generalizing m with
  | nil => exact h
  | cons b bs ih => exact ih (by rw [scalarMul_bit, h]; rfl)

/-- The walk goes on from the bits that form `m`: doubling the sentinel changes nothing, so it does not matter when doubling starts. -/
theorem walkBits_eq_scalarMul (bs : List Bool) {started : Bool} {m : Nat} {acc : Point} (hm : started = false → m = 0)
    (hacc : scalarMul m = .ok acc) :
    walkBits doublePoint (fun acc => addPoints acc generator) bs started acc =
      scalarMul (bs.foldl (fun n b => 2 * n + b.toNat) m) := by
  induction bs generalizing started m acc with
  | nil => exact hacc.symm
  | cons b bs ih =>
    have hdbl : (if started then doublePoint acc else Except.ok acc) = doublePoint acc := by
      cases started with
      | true => rfl
      | false =>
        obtain rfl := hm rfl
        cases hacc
        exact doublePoint_sentinel.symm
    have hstep : scalarMul (2 * m + b.toNat) =
        (doublePoint acc).bind fun acc => if b then addPoints acc generator else .ok acc := by
      rw [scalarMul_bit, hacc, Except.bind]
    have hwalk : walkBits doublePoint (fun acc => addPoints acc generator) (b :: bs) started acc =
        (scalarMul (2 * m + b.toNat)).bind (walkBits doublePoint (fun acc => addPoints acc generator) bs (started || b)) := by
      rw [walkBits, hdbl, hstep]
      cases doublePoint acc <;> rfl
    rw [hwalk, List.foldl_cons]
    cases h : scalarMul (2 * m + b.toNat) with
    | error e => exact (scalarMul_foldl_of_error bs h).symm
    | ok acc' =>
      refine ih (fun hsb => ?_) h
      obtain ⟨hs, rfl⟩ := Bool.or_eq_false_iff.mp hsb
      rw [hm hs]
      rfl

theorem prToPub_eq_scalarMul (k : Word) : prToPub k = scalarMul k.toNat := by
  rw [← bitsValue_bits k]
  exact walkBits_eq_scalarMul _ (fun _ => rfl) scalarMul_zero

/-- `SMUL` whose walk ends with a point writes the point. -/
theorem exec_smul_of_ok {qd : PointId} {rs : RegId} {s : State} {x y : Word} (h : prToPub s.regs[rs] = .ok ⟨x, y⟩) :
    exec (.smul qd rs) s = .next (withPoint s qd x y) := by rw [exec_smul, h, finish_point_ok]

/-! ## The scalars of R109 -/

/-- `LAM_A`, the multiple of G with G's y and the second x of R111. -/
abbrev lamA : Nat := 0xAC9C52B33FA3CF1F5AD9E3FD77ED9BA4A880B9FC8EC739C2E0CFC810B51283CE

/-- `LAM_B`, the multiple of G with G's y and the first x of R111. -/
abbrev lamB : Nat := 0x5363AD4CC05C30E0A5261C028812645A122E22EA20816678DF02967C1B23BD72

/-- The scalars at which R109 has `PreconditionViolated`: the walk adds G to `(n+1) G = G`, `LAM_A G` or `LAM_B G`; the last two start with the bits of
`LAM_B + 1`. -/
abbrev equalYScalars : List Nat := [secpN + 2, lamA + 1, lamB + 1, 2 * (lamB + 1), 2 * (lamB + 1) + 1]

/-- The scalars outside the six. -/
abbrev faultFree (n : Nat) : Prop := n ≠ secpN ∧ n ∉ equalYScalars

/-- The statement's codes of `SMUL`, by the number in the scalar register. -/
theorem faultCode_smul (s : State) (qd : PointId) (rs : RegId) : faultCode s (.smul qd rs) =
    if s.regs[rs].toNat = secpN then 3 else if s.regs[rs].toNat ∈ equalYScalars then 4 else 0 := by
  have hN : s.regs[rs] = constN ↔ s.regs[rs].toNat = secpN := BitVec.toNat_inj.symm
  simp only [faultCode, hN, List.mem_cons, List.not_mem_nil, or_false, ← BitVec.toNat_inj (x := s.regs[rs])]
  rfl

theorem faultFree_of_faultCode {s : State} {qd : PointId} {rs : RegId} (h : faultCode s (.smul qd rs) = 0) :
    faultFree s.regs[rs].toNat := by
  rw [faultCode_smul] at h
  split_ifs at h with h1 h2
  · cases h
  · cases h
  · exact ⟨h1, h2⟩

/-- The bits before the last of a scalar outside the six form a number outside the six: of the six, only `LAM_B + 1` has room for another bit, and the
scalars it starts are among the six. -/
theorem faultFree_half {n : Nat} (b : Bool) (hn : 2 * n + b.toNat < 2 ^ 256) (h : faultFree (2 * n + b.toNat)) : faultFree n := by
  have hsmall : n < 2 ^ 255 := by omega
  have hbig : ∀ k ∈ secpN :: equalYScalars.erase (lamB + 1), 2 ^ 255 ≤ k := by decide
  have hne : n ∉ secpN :: equalYScalars.erase (lamB + 1) := fun hm => Nat.not_le_of_lt hsmall (hbig n hm)
  rw [List.mem_cons, not_or] at hne
  refine ⟨hne.1, fun hm => ?_⟩
  by_cases hB : n = lamB + 1
  · subst hB
    cases b with
    | false => exact h.2 (by decide)
    | true => exact h.2 (by decide)
  · exact hne.2 ((List.mem_erase_of_ne hB).mpr hm)

/-- The scalar after an even multiple with G's y is one of the five: 1 and the sums of `LAM_A` and of `LAM_B` with the order are odd. -/
theorem not_faultFree_of_equal_y {n j : Nat} (hj : j ∈ [1, lamA, lamB]) (h : 2 * n = j ∨ 2 * n = j + secpN) : ¬faultFree (2 * n + 1) := by
  rintro ⟨-, hY⟩
  simp only [List.mem_cons, List.not_mem_nil, or_false, not_or, lamA, lamB, secpN] at hj h hY
  omega

/-- `LAM_A G`, the second point of R111. -/
def lamAPoint : Point := ⟨0xC994B69768832BCBFF5E9AB39AE8D1D3763BBF1E531BED98FE51DE5EE84F50FB, constGY⟩

/-- `LAM_B G`, the first point of R111. -/
def lamBPoint : Point := ⟨0xBCACE2E99DA01887AB0102B696902325872844067F15E98DA7BBA04400B88FCB, constGY⟩

theorem prToPub_lamA : prToPub (BitVec.ofNat 256 lamA) = .ok lamAPoint := by rw [prToPub_eq]; decide +kernel

theorem prToPub_lamB : prToPub (BitVec.ofNat 256 lamB) = .ok lamBPoint := by rw [prToPub_eq]; decide +kernel

theorem fe_lamBPoint_x : fe lamBPoint.x = fe cubeRoot * fe generator.x := by
  have h : lamBPoint.x.toNat = cubeRoot.toNat * generator.x.toNat % curveP.toNat := by decide +kernel
  rw [fe, h, cast_mod, Nat.cast_mul, fe, fe]

theorem fe_lamAPoint_x : fe lamAPoint.x = fe cubeRoot ^ 2 * fe generator.x := by
  have h : lamAPoint.x.toNat = cubeRoot.toNat ^ 2 * generator.x.toNat % curveP.toNat := by decide +kernel
  rw [fe, h, cast_mod, Nat.cast_mul, Nat.cast_pow, fe, fe]

/-! ## The walk in the group of the curve (R109, R110) -/

section

variable [Fact secpP.Prime]

/-- A point of the curve has one pair. -/
theorem Represents.pair_unique {p q : Point} {g : secpCurve.Point} (rp : Represents p g) (rq : Represents q g) : p = q := by
  cases g with
  | zero => rw [rp.sentinel_iff.mpr rfl, rq.sentinel_iff.mpr rfl]
  | some x y n =>
    obtain ⟨hpx, hpy, ex, ey⟩ := rp.coords
    obtain ⟨hqx, hqy, ex', ey'⟩ := rq.coords
    have hx : p.x = q.x := (cast_inj hpx hqx).mp (ex.trans ex'.symm)
    have hy : p.y = q.y := (cast_inj hpy hqy).mp (ey.trans ey'.symm)
    exact (Point.mk.injEq ..).mpr ⟨hx, hy⟩

variable {g : secpCurve.Point} (hg : Represents generator g)
include hg

theorem nsmul_generator_eq_zero_iff {n : Nat} : n • g = 0 ↔ secpN ∣ n := by
  rw [← addOrderOf_dvd_iff_nsmul_eq_zero, addOrderOf_generator hg]
  rfl

theorem nsmul_generator_eq_iff {n j : Nat} : n • g = j • g ↔ n ≡ j [MOD secpN] := by
  rw [nsmul_eq_nsmul_iff_modEq, addOrderOf_generator hg]
  rfl

/-- A scalar is below twice the order, so it is its residue or the residue plus the order. -/
theorem eq_or_eq_add_of_nsmul_eq {n j : Nat} (hn : n < 2 ^ 256) (hj : j < secpN) (h : n • g = j • g) : n = j ∨ n = j + secpN := by
  have hmod : n % secpN = j % secpN := (nsmul_generator_eq_iff hg).mp h
  have hdiv : n / secpN < 2 := Nat.div_lt_of_lt_mul (hn.trans (by decide))
  have hsum := Nat.div_add_mod n secpN
  rw [hmod, Nat.mod_eq_of_lt hj] at hsum
  interval_cases n / secpN
  · exact .inl (by rw [← hsum, Nat.mul_zero, Nat.zero_add])
  · exact .inr (by rw [← hsum, Nat.mul_one, Nat.add_comm])

/-- The walk of a number that fits a word gives the multiple of G, where it does not fail. -/
theorem scalarMul_ok_represents {n : Nat} {pt : Point} (hn : n < 2 ^ 256) (h : scalarMul n = .ok pt) : Represents pt (n • g) := by
  have hn' : (BitVec.ofNat 256 n).toNat = n := by rw [BitVec.toNat_ofNat, Nat.mod_eq_of_lt hn]
  have hr := prToPub_ok_represents (k := BitVec.ofNat 256 n) (pt := pt) hg
  rw [prToPub_eq_scalarMul, hn'] at hr
  exact hr h

theorem lamAPoint_represents : Represents lamAPoint (lamA • g) := by
  have h := prToPub_ok_represents hg prToPub_lamA
  rwa [BitVec.toNat_ofNat, Nat.mod_eq_of_lt (by decide)] at h

theorem lamBPoint_represents : Represents lamBPoint (lamB • g) := by
  have h := prToPub_ok_represents hg prToPub_lamB
  rwa [BitVec.toNat_ofNat, Nat.mod_eq_of_lt (by decide)] at h

/-- The three points with G's y are G, `LAM_A G` and `LAM_B G`. -/
theorem eq_nsmul_of_equal_y {p : Point} {h : secpCurve.Point} (r : Represents p h) (hne : h ≠ 0) (hy : p.y = generator.y) :
    ∃ j ∈ [1, lamA, lamB], h = j • g := by
  cases h with
  | zero => exact absurd rfl hne
  | some x y n =>
    cases hgen : g with
    | zero => exact absurd (hg.sentinel_iff.mpr hgen) (by decide)
    | some x' y' n' =>
      rw [← hgen]
      obtain ⟨hpx, _, ex, ey⟩ := r.coords
      obtain ⟨_, _, ex', ey'⟩ := (hgen ▸ hg).coords
      have same {q : Point} {j : Nat} (hq : Represents q (j • g)) (hqx : q.x.toNat < secpP) (hqy : q.y = generator.y)
          (hx : x = fe q.x) : WeierstrassCurve.Affine.Point.some x y n = j • g := by
        have hpq : p = q := (Point.mk.injEq ..).mpr ⟨(cast_inj hpx hqx).mp (ex.trans hx), hy.trans hqy.symm⟩
        exact (hpq ▸ r).unique hq
      have heq : y' ^ 2 = x ^ 3 + 7 := by
        rw [← ey', ← hy, ey]
        exact secp_equation n
      rcases (secp_equal_y_iff (secp_equation n')).mp heq with hx | hx | hx
      · exact ⟨1, by simp, same (by rwa [one_nsmul]) (by decide +kernel) rfl (hx.trans ex'.symm)⟩
      · exact ⟨lamB, by simp, same (lamBPoint_represents hg) (by decide +kernel) rfl (by rw [hx, fe_lamBPoint_x, ← ex']; rfl)⟩
      · exact ⟨lamA, by simp, same (lamAPoint_represents hg) (by decide +kernel) rfl (by rw [hx, fe_lamAPoint_x, ← ex']; rfl)⟩

/-- The last addition of an odd scalar outside the six is a group sum. -/
theorem addition_of_faultFree {n : Nat} {pt : Point} (r : Represents pt ((2 * n) • g)) (hn : 2 * n + 1 < 2 ^ 256)
    (hf : faultFree (2 * n + 1)) : (2 * n) • g = 0 ∨ g = 0 ∨ (pt.y ≠ generator.y ∧ (2 * n) • g + g ≠ 0) := by
  by_cases h0 : (2 * n) • g = 0
  · exact .inl h0
  · refine .inr (.inr ⟨fun hy => ?_, fun hsum => ?_⟩)
    · obtain ⟨j, hj, hjg⟩ := eq_nsmul_of_equal_y hg r h0 hy
      have hjN : ∀ j ∈ [1, lamA, lamB], j < secpN := by decide
      exact not_faultFree_of_equal_y hj (eq_or_eq_add_of_nsmul_eq hg (Nat.lt_of_succ_lt hn) (hjN j hj) hjg) hf
    · rw [← succ_nsmul, nsmul_generator_eq_zero_iff hg] at hsum
      exact hf.1 (Nat.eq_of_dvd_of_lt_two_mul (Nat.succ_ne_zero _) hsum (hn.trans (by decide)))

/-- The walk of every scalar outside the six ends with a point. -/
theorem scalarMul_of_faultFree {n : Nat} (hn : n < 2 ^ 256) (hf : faultFree n) : ∃ pt, scalarMul n = .ok pt := by
  have double {n : Nat} (hn : n < 2 ^ 256) (h : ∃ pt, scalarMul n = .ok pt) : ∃ pt, scalarMul (2 * n) = .ok pt := by
    obtain ⟨pt, hpt⟩ := h
    obtain ⟨pt', hpt', _⟩ := tangentDouble_represents (scalarMul_ok_represents hg hn hpt)
    exact ⟨pt', by rw [scalarMul_double, hpt, Except.bind, doublePoint_eq, hpt']⟩
  induction n using Nat.evenOddRec with
  | h0 => exact ⟨sentinel, rfl⟩
  | h_even n ih => exact double (by omega) (ih (by omega) (faultFree_half false hn hf))
  | h_odd n ih =>
    obtain ⟨pt, hpt⟩ := double (by omega) (ih (by omega) (faultFree_half true hn hf))
    have r := scalarMul_ok_represents hg (by omega) hpt
    obtain ⟨pt', hpt', _⟩ := addPoints_represents r hg (addition_of_faultFree hg r hn hf)
    exact ⟨pt', by rw [scalarMul_double_add_one, hpt, Except.bind, hpt']⟩

/-- At the order the last addition is of `-G` and G. -/
theorem scalarMul_order : scalarMul secpN = .error .divisionUndefined := by
  obtain ⟨pt, hpt⟩ := scalarMul_of_faultFree hg (n := 2 * (secpN / 2)) (by decide) (by decide)
  have hne : (2 * (secpN / 2)) • g ≠ 0 := (nsmul_generator_eq_zero_iff hg).not.mpr (by decide)
  have hsum : (2 * (secpN / 2)) • g + g = 0 := by
    rw [← succ_nsmul, nsmul_generator_eq_zero_iff hg]
    decide
  rw [show secpN = 2 * (secpN / 2) + 1 by decide, scalarMul_double_add_one, hpt, Except.bind]
  exact addPoints_of_add_eq_zero (scalarMul_ok_represents hg (by decide) hpt) hg hne hsum

/-- The walk of an odd scalar stops where its last addition finds a multiple of G with G's y. -/
theorem scalarMul_of_equal_y {k j : Nat} {q : Point} (hq : Represents q (j • g)) (hqy : q.y = generator.y) (hqs : q ≠ sentinel)
    (hk : Odd k) (hlt : k - 1 < 2 ^ 256) (hf : faultFree (k - 1)) (hj : k - 1 ≡ j [MOD secpN]) :
    scalarMul k = .error .preconditionViolated := by
  obtain ⟨n, rfl⟩ := hk
  rw [Nat.add_sub_cancel] at hlt hf hj
  obtain ⟨pt, hpt⟩ := scalarMul_of_faultFree hg hlt hf
  have r := scalarMul_ok_represents hg hlt hpt
  rw [(nsmul_generator_eq_iff hg).mpr hj] at r
  rw [scalarMul_double_add_one, hpt, Except.bind, r.pair_unique hq]
  exact addPoints_equal_y (isZeroPoint_of_ne hqs) rfl hqy

/-- The five scalars with `PreconditionViolated`. -/
theorem scalarMul_of_mem_equalYScalars {n : Nat} (hn : n ∈ equalYScalars) : scalarMul n = .error .preconditionViolated := by
  have h1 : scalarMul (secpN + 2) = .error .preconditionViolated :=
    scalarMul_of_equal_y hg (j := 1) (by rwa [one_nsmul]) rfl (by decide) (by decide) (by decide) (by decide) (by decide)
  have hA : scalarMul (lamA + 1) = .error .preconditionViolated :=
    scalarMul_of_equal_y hg (lamAPoint_represents hg) rfl (by decide) (by decide) (by decide) (by decide) (by decide)
  have hB : scalarMul (lamB + 1) = .error .preconditionViolated :=
    scalarMul_of_equal_y hg (lamBPoint_represents hg) rfl (by decide) (by decide) (by decide) (by decide) (by decide)
  have hB' : scalarMul (2 * (lamB + 1)) = .error .preconditionViolated := by
    rw [scalarMul_double, hB, Except.bind]
  simp only [List.mem_cons, List.not_mem_nil, or_false] at hn
  rcases hn with rfl | rfl | rfl | rfl | rfl
  · exact h1
  · exact hA
  · exact hB
  · exact hB'
  · rw [scalarMul_double_add_one, hB', Except.bind]

end

/-! ## The statements -/

/-- Settles O52: the walk is the recursion on the number its bits form. -/
theorem smulWalksTheScalar : Obligations.SmulWalksTheScalar := by
  refine ⟨⟨scalarMul, rfl, scalarMul_one, fun k _ => scalarMul_double k, fun k _ => scalarMul_double_add_one k, fun qd rs s => ?_⟩,
    fun qd rs => decode_wordOf 0x24 (pointField qd) rs 0 0 0 rfl rfl, illegalFaults_opcode _⟩
  simp only [← prToPub_eq_scalarMul]
  exact ⟨fun pt h => exec_smul_of_ok h, fun e h => exec_smul_of_error h⟩

/-- Settles O53: the five walks by computation over the closed forms. -/
theorem smulSmallScalars : Obligations.SmulSmallScalars := by
  refine fun qd rs s => ⟨fun h => ?_, fun h => ?_, fun h => ?_, fun h => ?_, fun h => ?_⟩
  all_goals
    refine exec_smul_of_ok ?_
    rw [h, prToPub_eq]
    decide +kernel

/-- Settles O54: the six walks end with the error of the table, every other walk ends with a point. -/
theorem smulFaultsForExactlySixScalars : Obligations.SmulFaultsForExactlySixScalars := by
  have : Fact secpP.Prime := ⟨secpP_prime⟩
  obtain ⟨_, hg⟩ := represents_of_equation (pt := generator) (by decide +kernel) (by decide +kernel) (by decide +kernel)
  refine fun qd rs s => ⟨fun h => ?_, fun h => ?_⟩
  · rw [faultCode_smul] at h ⊢
    split_ifs at h ⊢ with hN hY
    · refine exec_smul_of_error (e := .divisionUndefined) ?_
      rw [prToPub_eq_scalarMul, hN, scalarMul_order hg]
    · refine exec_smul_of_error (e := .preconditionViolated) ?_
      rw [prToPub_eq_scalarMul, scalarMul_of_mem_equalYScalars hg hY]
    · exact absurd rfl h
  · obtain ⟨pt, hpt⟩ := scalarMul_of_faultFree hg s.regs[rs].isLt (faultFree_of_faultCode h)
    exact ⟨pt.x, pt.y, exec_smul_of_ok (by rw [prToPub_eq_scalarMul, hpt])⟩

/-- Settles O55: a walk that ends with a point gives the multiple of G, and 0 is the only multiple of the order outside the six. -/
theorem smulIsScalarMultiplication : Obligations.SmulIsScalarMultiplication := by
  intro _ g qd rs s hg hf
  have hfree := faultFree_of_faultCode hf
  obtain ⟨pt, hpt⟩ := scalarMul_of_faultFree hg s.regs[rs].isLt hfree
  have r := scalarMul_ok_represents hg s.regs[rs].isLt hpt
  refine ⟨pt.x, pt.y, exec_smul_of_ok (by rw [prToPub_eq_scalarMul, hpt]), ?_, ?_⟩
  · rwa [← addOrderOf_generator hg, mod_addOrderOf_nsmul]
  · have hs : (pt.x = 0 ∧ pt.y = 0) ↔ pt = sentinel := (Point.mk.injEq ..).to_iff.symm
    rw [hs, r.sentinel_iff, nsmul_generator_eq_zero_iff hg]
    refine ⟨fun hd => by_contra fun h0 => hfree.1 ?_, fun h0 => h0 ▸ Nat.dvd_zero _⟩
    exact Nat.eq_of_dvd_of_lt_two_mul (fun hz => h0 (BitVec.eq_of_toNat_eq hz)) hd (s.regs[rs].isLt.trans (by decide))

end Sys2Proof.Machine
end

section
/-! `CLRERR` (43_system.md R120): the words with its opcode, and what it leaves of a block without a fault. -/

namespace Sys2Proof.Machine

open Expect

/-- `CLRERR` uses no field, so every other word with its opcode has a bit in an unused field (R56 (b)). -/
theorem illegal_of_clrerr_opcode {w : CmdWord} (hop : op w = 0x3F) (hw : w ≠ clrerrWord) : illegal w := by
  have hfields : ¬fieldsAre w .clrerr := fun h => hw (fieldsAre_iff.mp h).1.symm
  have hbit : d w ≠ 0 ∨ s1 w ≠ 0 ∨ s2 w ≠ 0 ∨ m w ≠ 0 ∨ imm w ≠ 0 := by
    simpa only [fieldsAre, hop, true_and, not_and_or] using hfields
  exact .inr (.inl (.inr (.inr (.inl ⟨by simp [hop], hbit⟩))))

/-- Under the invariant a block without a fault has nothing in its fault record to clear (R15, R16). -/
theorem clearFault_of_err_eq_false {s : State} (hs : s.Inv) (he : s.err = false) : clearFault s = s := by
  obtain ⟨hcode, -, hcmd, -⟩ := hs
  rw [clearFault, ← he, ← hcode.mp he, ← hcmd he]

/-- Settles O60: the command clears the fault record, which is clear already where ERR is 0; the host port compares with its word alone; every other
word with its opcode is illegal. -/
theorem clrerrAcknowledgesAFault : Obligations.ClrerrAcknowledgesAFault := by
  refine ⟨decode_clrerrWord, exec_clrerr, fun s hs he => ?_, fun s w ms hb he hm => ?_, fun s w ms hop hw hb he hm => ?_⟩
  · rw [exec_clrerr, clearFault_of_err_eq_false hs he]
  · obtain ⟨-, hgated, haccepted⟩ := issueRule s w ms hm
    split_ifs with hw
    · exact haccepted hb (.inr hw)
    · exact hgated hb he hw
  · exact issuedCommandRuns.2 s w ms hb he (illegal_of_clrerr_opcode hop hw) hm

end Sys2Proof.Machine
end

section
/-! Faults and the return from them (60_exceptions.md R130 to R138): a command whose row of R132 gives no code makes its writes, a completion that leaves
ERR = 1 has taken a fault in a block without one, and while ERR is 1 the one command that completes is `CLRERR`. -/

namespace Sys2Proof.Machine

open Expect

/-! ## A command whose row gives no code (R132) -/

/-- A row with one cause: where it gives no code, the cause does not hold. -/
theorem not_cause_of_code_eq_zero {P : Prop} [Decidable P] {e : CmdError} (h : (if P then e.code else 0) = 0) : ¬P :=
  fun hp => e.code_ne_zero ((if_pos hp).symm.trans h)

/-- A register command that computes a value makes its write. -/
theorem wrote_of_reg_ok {i : Instr} {s : State} {rd : RegId} {r : Except CmdError Word} {v : Word} (hi : destRegs i = [rd])
    (hx : exec i s = finish s r fun s v => writeReg s rd v) (hr : r = .ok v) :
    ∃ u, Wrote s i u ∧ exec i s = .next { u with busy := false } :=
  ⟨_, .reg rd v hi, by rw [hx, hr, finish_ok]⟩

/-- A command with a modulus, where its row gives no code, makes its write: the modulus is not zero. -/
theorem wrote_of_modulus {i : Instr} {s : State} {rd rm : RegId} {r : Except CmdError Word} {v : Word} (hi : destRegs i = [rd])
    (hx : exec i s = finish s r fun s v => writeReg s rd v) (hr : s.regs[rm] ≠ 0 → r = .ok v)
    (h : (if s.regs[rm] = 0 then CmdError.divisionUndefined.code else 0) = 0) :
    ∃ u, Wrote s i u ∧ exec i s = .next { u with busy := false } :=
  wrote_of_reg_ok hi hx (hr (not_cause_of_code_eq_zero h))

/-- A point command that computes a point makes its write. -/
theorem wrote_of_point_ok {i : Instr} {s : State} {qd : PointId} {r : Except CmdError Point} {p : Point}
    (hi : destRegs i = [evenReg qd, oddReg qd]) (hx : exec i s = finish s r fun s p => writePoint s qd p) (hr : r = .ok p) :
    ∃ u, Wrote s i u ∧ exec i s = .next { u with busy := false } :=
  ⟨_, .point qd p hi, by rw [hx, hr, finish_ok]⟩

/-- Where the row of `PADD` gives no code, `AddPoints` takes a shortcut or the chord. -/
theorem addPoints_ok_of_faultCode {s : State} {qd qs1 qs2 : PointId} (h : faultCode s (.padd qd qs1 qs2) = 0) :
    ∃ p, addPoints (readPoint s qs1) (readPoint s qs2) = .ok p := by
  simp only [faultCode, isSentinel_iff_readPoint] at h
  split_ifs at h with hs hy hx
  · rcases hs with h1 | h2
    · exact ⟨_, by rw [h1, addPoints_sentinel_left]⟩
    · exact ⟨_, by rw [h2, addPoints_sentinel_right]⟩
  · exact absurd h (by decide)
  · exact absurd h (by decide)
  · obtain ⟨h1, h2⟩ := not_or.mp hs
    exact ⟨_, addPoints_chord h1 h2 hy hx⟩

/-- `DoublePoint` fails for the y coordinate `P` alone. -/
theorem doublePoint_ok_of_ne {p : Point} (hy : p.y ≠ constP) : ∃ q, doublePoint p = .ok q := by
  by_cases h0 : p.y = 0
  · exact ⟨_, doublePoint_zero_y h0⟩
  · exact ⟨_, doublePoint_tangent h0 hy⟩

/-- Every well-formed command but `SMUL` whose row of R132 gives no code makes its writes. -/
theorem exec_of_faultCode_eq_zero {i : Instr} {s : State} (hwf : i.wellFormed = true) (hi : isSmul i = false)
    (h : faultCode s i = 0) : ∃ u, Wrote s i u ∧ exec i s = .next { u with busy := false } := by
  cases i with
  | smul qd rs => cases hi
  | ldc rd c => exact wrote_of_reg_ok rfl (exec_ldc rd c s) (by rw [romAt_of_le (of_decide_eq_true hwf)]; rfl)
  | fromb rd len =>
    have hlen := not_cause_of_code_eq_zero (e := .valueTooLarge) h
    exact wrote_of_reg_ok rfl (exec_fromb rd len s) (fromBytes_ok (not_lt.mp hlen))
  | tob rs => exact ⟨_, .buf rs, rfl⟩
  | bitseq => exact ⟨_, .seq, rfl⟩
  | addm rd rs1 rs2 rm => exact wrote_of_modulus rfl (exec_addm rd rs1 rs2 rm s) (addMod_eq · _ _) h
  | subm rd rs1 rs2 rm => exact wrote_of_modulus rfl (exec_subm rd rs1 rs2 rm s) (subMod_eq · _ _) h
  | mulm rd rs1 rs2 rm => exact wrote_of_modulus rfl (exec_mulm rd rs1 rs2 rm s) (mulMod_eq · _ _) h
  | expm rd rs1 rs2 rm => exact wrote_of_modulus rfl (exec_expm rd rs1 rs2 rm s) (expMod_eq · _ _) h
  | divm rd rs1 rs2 rm =>
    obtain ⟨h2, hb⟩ := not_or.mp (not_cause_of_code_eq_zero (e := .divisionUndefined) h)
    exact wrote_of_reg_ok rfl (exec_divm rd rs1 rs2 rm s) (divMod_eq (not_le.mp h2) hb _)
  | ldzp qd => exact wrote_of_point_ok rfl (exec_ldzp qd s) rfl
  | iszp qs => exact ⟨_, .zflag qs, rfl⟩
  | padd qd qs1 qs2 =>
    obtain ⟨p, hp⟩ := addPoints_ok_of_faultCode h
    exact wrote_of_point_ok rfl (exec_padd qd qs1 qs2 s) hp
  | pdbl qd qs =>
    obtain ⟨p, hp⟩ := doublePoint_ok_of_ne (p := readPoint s qs) (not_cause_of_code_eq_zero (e := .divisionUndefined) h)
    exact wrote_of_point_ok rfl (exec_pdbl qd qs s) hp
  | clrerr => exact ⟨_, .clear, rfl⟩

/-- A command's writes record no fault. -/
theorem Wrote.fault_free {s u : State} {i : Instr} (hw : Wrote s i u) :
    (s.err = false → u.err = false) ∧ (s.errcode = 0 → u.errcode = 0) := by
  by_cases hi : i = .clrerr
  · subst hi
    obtain ⟨he, hc, -⟩ := hw.clear_fields
    exact ⟨fun _ => he, fun _ => hc⟩
  · obtain ⟨he, hc, -⟩ := hw.fault_fields hi
    exact ⟨he.trans, hc.trans⟩

/-! ## A block with a fault (R34, R134) -/

/-- Under the invariant the one command in flight while ERR is 1 is `CLRERR`. -/
theorem decode_of_busy_err {s : State} (hs : s.Inv) (hb : s.busy = true) (he : s.err = true) :
    decode s.cmdlatch = .ok .clrerr := by
  obtain ⟨-, -, -, hlatch, -⟩ := hs
  rw [hlatch hb he, decode_clrerrWord]

/-- A completion in a block with a fault is the return from it. -/
theorem step_of_completing_err {s : State} (hs : s.Inv) (hc : completing s) (he : s.err = true) :
    step s = .next { clearFault s.popMove with busy := false } := step_of_clrerr hc (decode_of_busy_err hs hc.1 he)

/-- A completion in a block without a fault after which ERR is 1 is the taking of a fault. -/
theorem takeFault_of_completing {s t : State} (hc : completing s) (he : s.err = false) (h : step s = .next t) (ht : t.err = true) :
    ∃ e, t = takeFault e s.popMove := by
  cases ended_of_completing hc h with
  | fault i e _ _ => exact ⟨e, rfl⟩
  | illegal r _ => exact ⟨_, rfl⟩
  | wrote i u _ hw =>
    obtain ⟨hu, -⟩ := hw.fault_free
    cases (hu he).symm.trans ht

/-! ## The statements -/

/-- Settles O16. -/
theorem everyStepAnswersNext : Obligations.EveryStepAnswersNext := fun s => by
  obtain ⟨t, ht, -⟩ := step_next s
  exact ⟨t, ht⟩

/-- Settles O24: a completion that finds ERR = 1 clears it, so one that leaves ERR = 1 took a fault; the block it leaves is idle and gated. -/
theorem faultsArePrecise : Obligations.FaultsArePrecise := by
  intro s t hs hc h ht
  have he : s.err = false := by
    by_contra hne
    obtain rfl := Host.Outcome.next.inj (h.symm.trans (step_of_completing_err hs hc (Bool.eq_true_of_not_eq_false hne)))
    cases ht
  obtain ⟨e, rfl⟩ := takeFault_of_completing hc he h ht
  exact ⟨he, e.code_cases, rfl, fun w ms hm hw => step_host hm (hostIssue_of_gated rfl rfl hw),
    fun i v ms hm => step_host hm (hostWriteReg_of_idle rfl), fun a b ms hm => step_host hm (hostWriteBuf_of_idle rfl),
    fun x r ms hm ha => step_of_answer hm ha⟩

/-- Settles O25: the one completion is `CLRERR`'s, so a step that is neither it nor a reset is none of those that write the fault fields. -/
theorem faultRecordIsSticky : Obligations.FaultRecordIsSticky := by
  intro s t hs he h
  refine ⟨fun hc => decode_of_busy_err hs hc.1 he, fun hw => ?_, fun hn => ?_⟩
  · rcases hw with hc | hr
    · obtain rfl := Host.Outcome.next.inj (h.symm.trans (step_of_completing_err hs hc he))
      exact ⟨rfl, rfl, rfl⟩
    · obtain rfl := Host.Outcome.next.inj (h.symm.trans (step_of_hostDoes hr))
      exact ⟨rfl, rfl, rfl⟩
  · obtain ⟨hnc, hnr⟩ := not_or.mp hn
    rcases (stepped_of_step h).fault_fields with ⟨herr, hcode, hcmd⟩ | ⟨hc, -⟩ | ⟨⟨hc, -⟩ | hr, -⟩
    · exact ⟨herr.trans he, hcode, hcmd⟩
    · exact absurd hc hnc
    · exact absurd hc hnc
    · exact absurd hr hnr

/-- Settles O27: a row that gives a code is a fault of that code, and a row that gives none leaves the command's writes. -/
theorem faultTable : Obligations.FaultTable := by
  intro i s t hwf hi he hc h
  by_cases hf : faultCode s i = 0
  · obtain ⟨u, hw, hx⟩ := exec_of_faultCode_eq_zero hwf hi hf
    obtain rfl := Host.Outcome.next.inj (h.symm.trans hx)
    obtain ⟨hu, hcode⟩ := hw.fault_free
    exact ⟨(hcode hc).trans hf.symm, iff_of_false (by simp [hu he]) (not_not.mpr hf)⟩
  · obtain ⟨e, hx, hcode⟩ := exec_of_faultCode hi hf
    obtain rfl := Host.Outcome.next.inj (h.symm.trans hx)
    exact ⟨hcode, iff_of_true rfl hf⟩

/-- Settles O26: `CLRERR` is the word that is accepted while ERR is 1, and it completes as the return. -/
theorem returnFromFault : Obligations.ReturnFromFault := by
  intro s ms hb _ hm
  have hissue := step_issue hb (.inr rfl) hm
  have hcomplete := step_of_clrerr (s := { s with cmdlatch := clrerrWord, busy := true, moves := .complete :: ms }) ⟨rfl, .inr rfl⟩
    decode_clrerrWord
  refine (run_succ_of_step hissue 1).trans ((run_succ_of_step hcomplete 0).trans ?_)
  exact congrArg (fun b => Host.Outcome.next
    { s with busy := b, err := false, errcode := 0, errcmd := 0, cmdlatch := clrerrWord, moves := ms }) hb.symm

end Sys2Proof.Machine
end

section
/-! Reset and what the commands do right after it (70_reset_and_hazards.md R150, R152): every register is zero, so each modulus is zero and each point view
is the sentinel. -/

namespace Sys2Proof.Machine

open Expect

/-! ## The commands on zero operands -/

/-- Every command but `SMUL` whose row of R132 gives a code leaves the fault of that code. -/
theorem exec_eq_withFault_of_faultCode {i : Instr} {s : State} {c : BitVec 3} (hi : isSmul i = false) (hc : faultCode s i = c)
    (h0 : c ≠ 0) : exec i s = .next (withFault s c) := by
  subst hc
  obtain ⟨e, hx, hcode⟩ := exec_of_faultCode hi h0
  rw [hx, ← hcode]
  rfl

theorem readPoint_reset (k : PointId) : readPoint State.reset k = sentinel := by
  obtain ⟨-, hpoint, -⟩ := resetState
  exact hpoint k

theorem prToPub_zero : prToPub 0 = .ok sentinel := prToPub_eq_scalarMul 0

/-! ## The statements -/

/-- Settles O8: the step is `HostReset`, which leaves R22's values, and in the idle block that it leaves a completion is null and any issue is accepted. -/
theorem hostResetInAnyState : Obligations.HostResetInAnyState := by
  intro s ms hm
  obtain ⟨hregs, -, hbusy, herr, hz, hcode, hcmd, hlatch, hbuf, hseq⟩ := resetState
  refine ⟨hostReset { s with moves := ms }, step_host hm rfl, hregs, hbusy, herr, hz, hcode, hcmd, hlatch, hbuf, hseq, rfl, rfl,
    fun ms' hcomplete => ?_, fun w ms' hissue => step_issue hbusy (.inl herr) hissue⟩
  obtain ⟨hnull, -⟩ := idleBlockHoldsItsState (hostReset { s with moves := ms }) ms' hbusy
  exact hnull hcomplete

/-- Settles O9: a zero modulus has code 3 in R132's row of each field command, and the point commands take the sentinel to itself. -/
theorem resetOperands : Obligations.ResetOperands := by
  intro rd rs1 rs2 rm qd qs1 qs2
  have hreg (i : RegId) : State.reset.regs[i] = 0 := readReg_reset i
  have hdiv : State.reset.regs[rm].toNat ≤ 2 := by rw [hreg]; decide
  refine ⟨exec_eq_withFault_of_faultCode rfl (if_pos (hreg rm)) (by decide),
    exec_eq_withFault_of_faultCode rfl (if_pos (hreg rm)) (by decide),
    exec_eq_withFault_of_faultCode rfl (if_pos (hreg rm)) (by decide),
    exec_eq_withFault_of_faultCode rfl (if_pos (hreg rm)) (by decide),
    exec_eq_withFault_of_faultCode rfl (if_pos (.inl hdiv)) (by decide), ?_, ?_, ?_⟩
  · exact exec_smul_of_ok (by rw [hreg, prToPub_zero]; rfl)
  · rw [exec_padd, readPoint_reset, readPoint_reset, addPoints_sentinel_left]
    exact finish_point_ok State.reset qd sentinel
  · rw [exec_pdbl, readPoint_reset, doublePoint_sentinel]
    exact finish_point_ok State.reset qd sentinel

end Sys2Proof.Machine
end
